-- ==== Sys2Proof/Word.lean ====
section
/-! DEFINITION. The word types of the block (30_encoding.md rule R62: bytes, 16-bit coordinates,
32-bit lengths and counts) and the levels of its pins (00_scope.md section 6, 10_state.md rule R11). -/

namespace Sys2Proof

/-- A byte: 8 bits, bit 7 the most significant (00_scope.md section 6). -/
abbrev Byte := BitVec 8

/-- A pixel coordinate operand: 16 bits unsigned (30_encoding.md rule R62). -/
abbrev Coord := BitVec 16

/-- A length or repeat count operand: 32 bits unsigned (30_encoding.md rule R62). -/
abbrev Len := BitVec 32

/-- The level an output pin is driven to: low or high. -/
inductive Level where
  | L
  | H
  deriving DecidableEq, Repr, Inhabited

/-- `not L = H`, `not H = L` (00_scope.md section 6). -/
def Level.not : Level → Level
  | .L => .H
  | .H => .L

/-- What an output latch holds: a driven level, or `X`, "nothing has driven the pin since reset"
(10_state.md rule R11). -/
inductive Latch where
  | L
  | H
  | X
  deriving DecidableEq, Repr, Inhabited

/-- The latch content after a drive to a level. -/
def Level.latch : Level → Latch
  | .L => .L
  | .H => .H

/-- The five output pins (10_state.md rule R10). -/
inductive Pin where
  | cs
  | sclk
  | mosi
  | dc
  | rst
  deriving DecidableEq, Repr

/-- The five output latches (10_state.md rule R10). -/
structure Pins where
  cs   : Latch
  sclk : Latch
  mosi : Latch
  dc   : Latch
  rst  : Latch
  deriving DecidableEq, Repr, Inhabited

end Sys2Proof
end

