-- ==== Sys2Proof/Config.lean ====
section
/-! DEFINITION. The parameters of a model of the block (00_scope.md rule R5), the well-formedness of
a configuration (rule R6), and the free values: constants with no body, for what the spec leaves
OPEN and for the answers of the environment (rule R7, 92_eei_decisions.md D6). -/

namespace Sys2Proof

/-- The error type of the bus, "opaque to this layer": the block hands values of it on and never
looks into one (60_exceptions.md rule R131). DESIGN CHOICE, safe: a countable type (log entry 8). -/
abbrev BusError := Nat

/-- The `Color` type, OPEN in rule R5. DESIGN CHOICE, safe: a countable type whose values nothing
inspects (log entry 9). -/
abbrev Color := Nat

/-- One sample of the `BUSY` input (10_state.md rule R12). -/
inductive Sample where
  | high
  | low
  | fail
  deriving DecidableEq, Repr, Inhabited

/-- What the external bus does with one call (40_serial_bus.md rule R78): it answers `ok`, answers
`err(e)`, or has not answered (60_exceptions.md rule R148 (c)). -/
inductive BusAnswer where
  | ok
  | err (e : BusError)
  | pending
  deriving DecidableEq, Repr, Inhabited

/-- The bus behind the port of tier DI (rule R5, 40_serial_bus.md rule R78). -/
inductive BusKind where
  | bitbang
  | external
  deriving DecidableEq, Repr, Inhabited

/-- `WIDTH` and `HEIGHT` of a well-formed configuration (rule R6), well formed by construction:
`WIDTH = 8 * (widthBytes + 1)`, from 8 to 2048; `HEIGHT = heightLess2 + 2`, from 2 to 512. -/
structure Panel where
  widthBytes  : Fin 256
  heightLess2 : Fin 511
  deriving DecidableEq, Repr, Inhabited

/-- The thirteen command codes `C_*` (30_encoding.md rule R55), each a parameter of 8 bits. -/
structure Codes where
  swReset        : Byte
  setRamXWindow  : Byte
  setRamYWindow  : Byte
  setRamXCounter : Byte
  setRamYCounter : Byte
  dataEntryMode  : Byte
  writeRamBw     : Byte
  writeRamRed    : Byte
  borderWaveform : Byte
  tempSensor     : Byte
  updateControl1 : Byte
  updateControl2 : Byte
  masterActivate : Byte
  deriving DecidableEq, Repr, Inhabited

/-- The thirteen codes in the order of rule R55. -/
def Codes.all (c : Codes) : List Byte :=
  [c.swReset, c.setRamXWindow, c.setRamYWindow, c.setRamXCounter, c.setRamYCounter,
   c.dataEntryMode, c.writeRamBw, c.writeRamRed, c.borderWaveform, c.tempSensor,
   c.updateControl1, c.updateControl2, c.masterActivate]

/-- The premise of a claim that tells two commands apart: the codes are pairwise distinct. The
source does not say so (rule R55). -/
abbrev Codes.Distinct (c : Codes) : Prop := c.all.Nodup

/-- The six flag values `F_*` (30_encoding.md rule R56), each a parameter of 8 bits. -/
structure FlagValues where
  borderFollowLut    : Byte
  borderLut1         : Byte
  incY               : Byte
  incX               : Byte
  internalTempSensor : Byte
  fullRefresh        : Byte
  deriving DecidableEq, Repr, Inhabited

/-- A configuration (rule R5). `chunkPred` is `MAX_CHUNK`: `none` for `unlimited`, `some p` for the
ceiling `p + 1`, so that `MAX_CHUNK >= 1` by construction. `init` is `INIT_LEVEL` of each pin. -/
structure Config where
  panel          : Panel
  csActive       : Level
  dcCommand      : Level
  chunkPred      : Option Nat
  busKind        : BusKind
  codes          : Codes
  flags          : FlagValues
  updateControl1 : List Byte
  pinFail        : Bool
  init           : Pins
  deriving DecidableEq, Repr

/-- `SETTLE_MS`: "a fixed settle time (10 ms)" (rule R5). -/
def Config.settleMs : Nat := 10

/-- `WIDTH` in pixels. -/
def Config.width (c : Config) : Nat := 8 * (c.panel.widthBytes.val + 1)

/-- `HEIGHT` in pixels. -/
def Config.height (c : Config) : Nat := c.panel.heightLess2.val + 2

/-- `MAX_CHUNK`: `none` is `unlimited`. -/
def Config.maxChunk (c : Config) : Option Nat := c.chunkPred.map (· + 1)

/-- `DC_DATA` is "the other level" than `DC_COMMAND` (rule R5). -/
def Config.dcData (c : Config) : Level := c.dcCommand.not

/-- `not CS_ACTIVE`. -/
def Config.csInactive (c : Config) : Level := c.csActive.not

/-- The conditions of rule R6 on the numbers of a configuration, as rule R6 writes them. -/
abbrev Config.NumbersOk (width height : Nat) (maxChunk : Option Nat) : Prop :=
  width % 8 = 0 ∧ 8 ≤ width ∧ width ≤ 2048 ∧ 2 ≤ height ∧ height ≤ 512 ∧
    (width * height) / 8 < 2 ^ 32 ∧ ∀ m ∈ maxChunk, 1 ≤ m

/-- A configuration with the given panel size and chunk ceiling, the rest taken from `c`. The numbers
that rule R6 does not admit are refused: "a model refuses a configuration that is not well formed". -/
def Config.withNumbers? (c : Config) (width height : Nat) (maxChunk : Option Nat) : Option Config :=
  if Config.NumbersOk width height maxChunk then
    some { c with
      panel := ⟨Fin.ofNat 256 (width / 8 - 1), Fin.ofNat 511 (height - 2)⟩
      chunkPred := maxChunk.map (· - 1) }
  else none

/-! ### Free values: what the spec leaves OPEN

None of these has a body: nothing can evaluate one, and a claim that is proved of them holds of
every value. -/

/-- `WIDTH`, `HEIGHT`: OPEN (92_eei_decisions.md D31). -/
opaque Config.openPanel : Panel

/-- `MAX_CHUNK`: OPEN, no default (D7). -/
opaque Config.openChunkPred : Option Nat

/-- The command codes: OPEN (D18). -/
opaque Config.openCodes : Codes

/-- The flag values: OPEN (D18). -/
opaque Config.openFlags : FlagValues

/-- `P_UC1`, the payload of update-control-1: OPEN, any list (D17). -/
opaque Config.openUpdateControl1 : List Byte

/-- The named color `White` (D19). -/
opaque Config.white : Color

/-- `inverse : Color -> Color`; no law is assumed of it (D19). -/
opaque Config.inverse : Color → Color

/-- `byte_value : Color -> byte`; no law is assumed of it (D19). -/
opaque Config.byteValue : Color → Byte

/-- How the Color parameter maps a color operand other than 0 and 1 (30_encoding.md rule R62). -/
opaque Config.otherColor : Byte → Color

/-- The `n`-th answer of the busy input that nothing else determines: a draw under no law (D6). -/
opaque Config.drawBusy : Nat → Sample

/-- The `n`-th answer of the external bus: a draw under no law (D6, D32). -/
opaque Config.drawBus : Nat → BusAnswer

/-- Whether the delay primitive has returned at its `n`-th asking: a draw under no law (D6). -/
opaque Config.drawDelay : Nat → Bool

/-- Whether the `n`-th output drive fails when `PIN_FAIL = true`: a draw (40_serial_bus.md rule R75). -/
opaque Config.drawPin : Nat → Bool

/-- The configuration of `State.reset`: the values and defaults of rule R5 where it gives one
(`CS_ACTIVE = L`, `DC_COMMAND = L`, `BUS_KIND = bitbang`, `PIN_FAIL = false`, `INIT_LEVEL = X`),
free values where it says OPEN. PRESUMED for the two levels (93_implementation_defined.md G1, G2),
unsafe for a statement about `State.reset` alone; a statement about every state quantifies over
every configuration (log entries 3 to 5). -/
def Config.board : Config where
  panel          := Config.openPanel
  csActive       := .L
  dcCommand      := .L
  chunkPred      := Config.openChunkPred
  busKind        := .bitbang
  codes          := Config.openCodes
  flags          := Config.openFlags
  updateControl1 := Config.openUpdateControl1
  pinFail        := false
  init           := ⟨.X, .X, .X, .X, .X⟩

end Sys2Proof
end

