-- ==== Sys2Proof/Syntax.lean ====
section
/-! DEFINITION. The operations of the block as syntax: one constructor per row of
spec/opcode_table.json (21 operations, 30_encoding.md rule R63; 13 controller commands, rule R55),
the operation names that `Ret` and the faults record, and the two forms in which a host names an
operation. -/

namespace Sys2Proof

/-- The instructions. The operand types are those of 30_encoding.md rule R62. A byte list is the
operand space of 20_memory.md rule R30: a value fixed when the operation is issued (rule R46). The
`wire` constructors are the controller commands of rule R55; their operands are the payload the
command carries on the wire, where the table does not fix it. -/
inductive Instr where
  | sbWrite (bytes : List Byte)
  | sbFlush
  | sbRead (len : Len)
  | sbTransfer (bytes : List Byte)
  | sbTransferInPlace (bytes : List Byte)
  | diReset
  | diWaitIdle
  | diCmd (opcode : Byte)
  | diData (bytes : List Byte)
  | diCmdWithData (opcode : Byte) (bytes : List Byte)
  | diDataXTimes (value : Byte) (count : Len)
  | cdNew
  | cdInit
  | cdUpdateBwFrame (buffer : List Byte)
  | cdUpdateRedFrame (buffer : List Byte)
  | cdDisplayFrame
  | cdClearBwFrame (color : Byte)
  | cdClearRedFrame
  | cdSetRamArea (startX startY endX endY : Coord)
  | cdSetRamCounter (x y : Coord)
  | cdUseFullFrame
  | wireSwReset
  | wireUpdateControl1
  | wireBorderWaveform
  | wireDataEntryMode
  | wireSetRamXWindow (startX endX : Byte)
  | wireSetRamYWindow (startY endY : Coord)
  | wireSetRamXCounter (x : Byte)
  | wireSetRamYCounter (y : Coord)
  | wireTempSensor
  | wireWriteRamBw (bytes : List Byte)
  | wireWriteRamRed (bytes : List Byte)
  | wireUpdateControl2
  | wireMasterActivate
  deriving DecidableEq, Repr

/-- The names of the 21 operations (00_scope.md rule R2). -/
inductive OpName where
  | sbWrite
  | sbFlush
  | sbRead
  | sbTransfer
  | sbTransferInPlace
  | diReset
  | diWaitIdle
  | diCmd
  | diData
  | diCmdWithData
  | diDataXTimes
  | cdNew
  | cdInit
  | cdUpdateBwFrame
  | cdUpdateRedFrame
  | cdDisplayFrame
  | cdClearBwFrame
  | cdClearRedFrame
  | cdSetRamArea
  | cdSetRamCounter
  | cdUseFullFrame
  deriving DecidableEq, Repr

/-- Who can reach an operation (30_encoding.md rule R63, 60_exceptions.md rule R142): it is required by
the bus contract, or stands on the interface of tier DI, on the public surface of tier CD, or is
reached only from inside other operations, "internal". -/
inductive Visibility where
  | busContract
  | interface
  | publicSurface
  | internal
  deriving DecidableEq, Repr

/-- A controller command as it appears on the wire: the byte of its command frame, and the bytes of
the data frames that follow it (30_encoding.md rule R53, rule R55). -/
structure Frame where
  code    : Byte
  payload : List Byte
  deriving DecidableEq, Repr

/-- What a host hands to the block: the descriptor of an operation (30_encoding.md rule R62), or a
controller command to be sent, by the frame it has on the wire (log entry 11). -/
inductive Request where
  | descriptor (bytes : List Byte)
  | frame (f : Frame)
  deriving DecidableEq, Repr

/-- A line of a program: a request the host issues in its turn (30_encoding.md rule R66). With
`always` the program says that the line is issued whatever the outcome before it was (log entry 26). -/
structure Line where
  request : Request
  always  : Bool
  deriving DecidableEq, Repr

end Sys2Proof
end

