-- ==== Sys2Proof/WellFormed.lean ====
section
/-! DEFINITION. The well-formed instructions: a byte-list operand has a length that fits the 32-bit
length field (30_encoding.md rule R62, 92_eei_decisions.md D13: "a model refuses the rest"). Every
other operand fits its field by its type. `P_UC1` is a parameter and no operand: nothing here bounds its
length (log entry 28). -/

namespace Sys2Proof

/-- The byte-list operand of an instruction; empty for the others. -/
def Instr.byteList : Instr → List Byte
  | .sbWrite bs => bs
  | .sbTransfer bs => bs
  | .sbTransferInPlace bs => bs
  | .diData bs => bs
  | .diCmdWithData _ bs => bs
  | .cdUpdateBwFrame bs => bs
  | .cdUpdateRedFrame bs => bs
  | .wireWriteRamBw bs => bs
  | .wireWriteRamRed bs => bs
  | .sbFlush => []
  | .sbRead _ => []
  | .diReset => []
  | .diWaitIdle => []
  | .diCmd _ => []
  | .diDataXTimes _ _ => []
  | .cdNew => []
  | .cdInit => []
  | .cdDisplayFrame => []
  | .cdClearBwFrame _ => []
  | .cdClearRedFrame => []
  | .cdSetRamArea _ _ _ _ => []
  | .cdSetRamCounter _ _ => []
  | .cdUseFullFrame => []
  | .wireSwReset => []
  | .wireUpdateControl1 => []
  | .wireBorderWaveform => []
  | .wireDataEntryMode => []
  | .wireSetRamXWindow _ _ => []
  | .wireSetRamYWindow _ _ => []
  | .wireSetRamXCounter _ => []
  | .wireSetRamYCounter _ => []
  | .wireTempSensor => []
  | .wireUpdateControl2 => []
  | .wireMasterActivate => []

/-- Well formed: the byte-list operand has fewer than `2 ^ 32` bytes. Only operands are looked at: a
`P_UC1` of any length is neither bounded nor refused. DESIGN CHOICE (log entry 28). -/
def Instr.wf (i : Instr) : Bool := i.byteList.length < 2 ^ 32

end Sys2Proof
end

