-- ==== Sys2Proof/Decode.lean ====
section
/-! DEFINITION. Decoding and encoding of requests: host descriptors (30_encoding.md rule R62 to rule
R65) and controller command frames (rule R55 to rule R59). Decoding is total and rejects by name. -/

namespace Sys2Proof

/-- Why a request spells no operation. -/
inductive DecodeError where
  /-- The descriptor has no selector byte. Raised by `decodeDescriptor`. -/
  | empty
  /-- The selector is not in the map of rule R63 ("names no operation", rule R64 (b)). -/
  | unassigned (selector : Byte)
  /-- The descriptor ends before its operands do (rule R65). -/
  | truncated (selector : Byte)
  /-- Bytes stand after the operands (rule R65 fixes the length). -/
  | trailing (extra : Nat)
  /-- No command of rule R55 has this code with a payload of this form. -/
  | unknownFrame (f : Frame)
  deriving DecidableEq, Repr

/-- The bytes of a 16-bit value, least significant first (rule R58, rule R62). -/
def halfBytes (v : BitVec 16) : List Byte := [v.extractLsb' 0 8, v.extractLsb' 8 8]

/-- A 16-bit value from its two bytes, least significant first. -/
def halfOf (b0 b1 : Byte) : BitVec 16 := BitVec.ofNat 16 (b0.toNat + 256 * b1.toNat)

/-- The bytes of a 32-bit value, least significant first (rule R62). -/
def wordBytes (v : BitVec 32) : List Byte :=
  [v.extractLsb' 0 8, v.extractLsb' 8 8, v.extractLsb' 16 8, v.extractLsb' 24 8]

/-- A 32-bit value from its four bytes, least significant first. -/
def wordOf (b0 b1 b2 b3 : Byte) : BitVec 32 :=
  BitVec.ofNat 32 (b0.toNat + 256 * (b1.toNat + 256 * (b2.toNat + 256 * b3.toNat)))

/-- Format N: no operand. -/
def readNone (i : Instr) (bs : List Byte) : Option (Instr × List Byte) := some (i, bs)

/-- Formats B and K: one byte. -/
def readByte (k : Byte → Instr) : List Byte → Option (Instr × List Byte)
  | v :: bs => some (k v, bs)
  | [] => none

/-- Format L: a 32-bit length. -/
def readLen (k : Len → Instr) : List Byte → Option (Instr × List Byte)
  | b0 :: b1 :: b2 :: b3 :: bs => some (k (wordOf b0 b1 b2 b3), bs)
  | _ => none

/-- Format S: a 32-bit length, then as many bytes. -/
def readList (k : List Byte → Instr) : List Byte → Option (Instr × List Byte)
  | b0 :: b1 :: b2 :: b3 :: bs =>
    let n := (wordOf b0 b1 b2 b3).toNat
    if n ≤ bs.length then some (k (bs.take n), bs.drop n) else none
  | _ => none

/-- Format BS: one byte, then format S. -/
def readByteList (k : Byte → List Byte → Instr) : List Byte → Option (Instr × List Byte)
  | v :: bs => readList (k v) bs
  | [] => none

/-- Format BC: one byte, then a 32-bit count. -/
def readByteCount (k : Byte → Len → Instr) : List Byte → Option (Instr × List Byte)
  | v :: bs => readLen (k v) bs
  | [] => none

/-- Format W: four 16-bit coordinates. -/
def readWindow (k : Coord → Coord → Coord → Coord → Instr) :
    List Byte → Option (Instr × List Byte)
  | a0 :: a1 :: b0 :: b1 :: c0 :: c1 :: d0 :: d1 :: bs =>
    some (k (halfOf a0 a1) (halfOf b0 b1) (halfOf c0 c1) (halfOf d0 d1), bs)
  | _ => none

/-- Format P: two 16-bit coordinates. -/
def readPoint (k : Coord → Coord → Instr) : List Byte → Option (Instr × List Byte)
  | a0 :: a1 :: b0 :: b1 :: bs => some (k (halfOf a0 a1) (halfOf b0 b1), bs)
  | _ => none

/-- The selector map (rule R63): how the operands after a selector are read; `none` for a selector
that names no operation. -/
def operandReader (sel : Nat) : Option (List Byte → Option (Instr × List Byte)) :=
  match sel with
  | 0x00 => some (readList .sbWrite)
  | 0x01 => some (readNone .sbFlush)
  | 0x02 => some (readLen .sbRead)
  | 0x03 => some (readList .sbTransfer)
  | 0x04 => some (readList .sbTransferInPlace)
  | 0x10 => some (readNone .diReset)
  | 0x11 => some (readNone .diWaitIdle)
  | 0x12 => some (readByte .diCmd)
  | 0x13 => some (readList .diData)
  | 0x14 => some (readByteList .diCmdWithData)
  | 0x15 => some (readByteCount .diDataXTimes)
  | 0x20 => some (readNone .cdNew)
  | 0x21 => some (readNone .cdInit)
  | 0x22 => some (readList .cdUpdateBwFrame)
  | 0x23 => some (readList .cdUpdateRedFrame)
  | 0x24 => some (readNone .cdDisplayFrame)
  | 0x25 => some (readByte .cdClearBwFrame)
  | 0x26 => some (readNone .cdClearRedFrame)
  | 0x27 => some (readWindow .cdSetRamArea)
  | 0x28 => some (readPoint .cdSetRamCounter)
  | 0x29 => some (readNone .cdUseFullFrame)
  | _ => none

/-- The operation at the head of a list of descriptor bytes, and the bytes after it. -/
def decodeDescriptor : List Byte → Except DecodeError (Instr × List Byte)
  | [] => .error .empty
  | sel :: bs =>
    match operandReader sel.toNat with
    | none => .error (.unassigned sel)
    | some read =>
      match read bs with
      | none => .error (.truncated sel)
      | some r => .ok r

/-- A descriptor is one operation and nothing after it. -/
def decodeExact (bs : List Byte) : Except DecodeError Instr :=
  match decodeDescriptor bs with
  | .error e => .error e
  | .ok (i, []) => .ok i
  | .ok (_, b :: rest) => .error (.trailing (b :: rest).length)

/-- The payload `C_BORDER_WAVEFORM` carries: the bitwise or of its two flags (rule R56). -/
def borderPayload (c : Config) : Byte := c.flags.borderFollowLut ||| c.flags.borderLut1

/-- The payload `C_DATA_ENTRY_MODE` carries: the bitwise or of its two flags (rule R56). -/
def dataEntryPayload (c : Config) : Byte := c.flags.incY ||| c.flags.incX

/-- `C_SET_RAM_X_WINDOW`: two bytes (rule R57). -/
def frameXWindow (c : Config) (f : Frame) : Option Instr :=
  match f.payload with
  | [s, e] => if f.code = c.codes.setRamXWindow then some (.wireSetRamXWindow s e) else none
  | _ => none

/-- `C_SET_RAM_Y_WINDOW`: two 16-bit values (rule R58). -/
def frameYWindow (c : Config) (f : Frame) : Option Instr :=
  match f.payload with
  | [s0, s1, e0, e1] =>
    if f.code = c.codes.setRamYWindow then
      some (.wireSetRamYWindow (halfOf s0 s1) (halfOf e0 e1))
    else none
  | _ => none

/-- `C_SET_RAM_X_COUNTER`: one byte (rule R59). -/
def frameXCounter (c : Config) (f : Frame) : Option Instr :=
  match f.payload with
  | [x] => if f.code = c.codes.setRamXCounter then some (.wireSetRamXCounter x) else none
  | _ => none

/-- `C_SET_RAM_Y_COUNTER`: one 16-bit value (rule R59). -/
def frameYCounter (c : Config) (f : Frame) : Option Instr :=
  match f.payload with
  | [y0, y1] =>
    if f.code = c.codes.setRamYCounter then some (.wireSetRamYCounter (halfOf y0 y1)) else none
  | _ => none

/-- The controller command a frame is, by the codes and payload forms of rule R55. Where two
parameters hold the same code, the first row of this list whose code and payload form both fit is
taken: the rows with a fixed payload, then the two RAM writes, which take any payload, then X window,
Y window, X counter, Y counter. DESIGN CHOICE (log entry 13). -/
def decodeFrame (c : Config) (f : Frame) : Option Instr :=
  if f.code = c.codes.swReset ∧ f.payload = [] then some .wireSwReset
  else if f.code = c.codes.masterActivate ∧ f.payload = [] then some .wireMasterActivate
  else if f.code = c.codes.updateControl1 ∧ f.payload = c.updateControl1 then
    some .wireUpdateControl1
  else if f.code = c.codes.borderWaveform ∧ f.payload = [borderPayload c] then
    some .wireBorderWaveform
  else if f.code = c.codes.dataEntryMode ∧ f.payload = [dataEntryPayload c] then
    some .wireDataEntryMode
  else if f.code = c.codes.tempSensor ∧ f.payload = [c.flags.internalTempSensor] then
    some .wireTempSensor
  else if f.code = c.codes.updateControl2 ∧ f.payload = [c.flags.fullRefresh] then
    some .wireUpdateControl2
  else if f.code = c.codes.writeRamBw then some (.wireWriteRamBw f.payload)
  else if f.code = c.codes.writeRamRed then some (.wireWriteRamRed f.payload)
  else
    (frameXWindow c f).or
      ((frameYWindow c f).or ((frameXCounter c f).or (frameYCounter c f)))

/-- The instruction a request names. -/
def decodeRequest (c : Config) : Request → Except DecodeError Instr
  | .descriptor bs => decodeExact bs
  | .frame f =>
    match decodeFrame c f with
    | some i => .ok i
    | none => .error (.unknownFrame f)

/-! ### The encoder, from the same tables -/

/-- A byte list with its 32-bit length before it (format S after the selector). -/
def listBytes (bs : List Byte) : List Byte := wordBytes (BitVec.ofNat 32 bs.length) ++ bs

/-- The request that names an instruction: a descriptor for the 21 operations (rule R62, rule R63),
a command frame for the 13 controller commands (rule R55, rule R57 to rule R59). -/
def encode (c : Config) : Instr → Request
  | .sbWrite bs => .descriptor (0x00 :: listBytes bs)
  | .sbFlush => .descriptor [0x01]
  | .sbRead n => .descriptor (0x02 :: wordBytes n)
  | .sbTransfer bs => .descriptor (0x03 :: listBytes bs)
  | .sbTransferInPlace bs => .descriptor (0x04 :: listBytes bs)
  | .diReset => .descriptor [0x10]
  | .diWaitIdle => .descriptor [0x11]
  | .diCmd v => .descriptor [0x12, v]
  | .diData bs => .descriptor (0x13 :: listBytes bs)
  | .diCmdWithData v bs => .descriptor (0x14 :: v :: listBytes bs)
  | .diDataXTimes v n => .descriptor (0x15 :: v :: wordBytes n)
  | .cdNew => .descriptor [0x20]
  | .cdInit => .descriptor [0x21]
  | .cdUpdateBwFrame bs => .descriptor (0x22 :: listBytes bs)
  | .cdUpdateRedFrame bs => .descriptor (0x23 :: listBytes bs)
  | .cdDisplayFrame => .descriptor [0x24]
  | .cdClearBwFrame k => .descriptor [0x25, k]
  | .cdClearRedFrame => .descriptor [0x26]
  | .cdSetRamArea sx sy ex ey =>
    .descriptor (0x27 :: (halfBytes sx ++ halfBytes sy ++ halfBytes ex ++ halfBytes ey))
  | .cdSetRamCounter x y => .descriptor (0x28 :: (halfBytes x ++ halfBytes y))
  | .cdUseFullFrame => .descriptor [0x29]
  | .wireSwReset => .frame ⟨c.codes.swReset, []⟩
  | .wireUpdateControl1 => .frame ⟨c.codes.updateControl1, c.updateControl1⟩
  | .wireBorderWaveform => .frame ⟨c.codes.borderWaveform, [borderPayload c]⟩
  | .wireDataEntryMode => .frame ⟨c.codes.dataEntryMode, [dataEntryPayload c]⟩
  | .wireSetRamXWindow s e => .frame ⟨c.codes.setRamXWindow, [s, e]⟩
  | .wireSetRamYWindow s e => .frame ⟨c.codes.setRamYWindow, halfBytes s ++ halfBytes e⟩
  | .wireSetRamXCounter x => .frame ⟨c.codes.setRamXCounter, [x]⟩
  | .wireSetRamYCounter y => .frame ⟨c.codes.setRamYCounter, halfBytes y⟩
  | .wireTempSensor => .frame ⟨c.codes.tempSensor, [c.flags.internalTempSensor]⟩
  | .wireWriteRamBw bs => .frame ⟨c.codes.writeRamBw, bs⟩
  | .wireWriteRamRed bs => .frame ⟨c.codes.writeRamRed, bs⟩
  | .wireUpdateControl2 => .frame ⟨c.codes.updateControl2, [c.flags.fullRefresh]⟩
  | .wireMasterActivate => .frame ⟨c.codes.masterActivate, []⟩

/-- The bytes of a request: of its descriptor, or the code and the payload of its command frame. -/
def Request.bytes : Request → List Byte
  | .descriptor bs => bs
  | .frame f => f.code :: f.payload

/-- The number of bytes of the request that names an instruction: of a descriptor by its format (rule
R65), of a command frame by the payload the table gives it (rule R55, rule R57 to rule R59). -/
def requestLength (c : Config) : Instr → Nat
  | .sbWrite bs => 5 + bs.length
  | .sbFlush => 1
  | .sbRead _ => 5
  | .sbTransfer bs => 5 + bs.length
  | .sbTransferInPlace bs => 5 + bs.length
  | .diReset => 1
  | .diWaitIdle => 1
  | .diCmd _ => 2
  | .diData bs => 5 + bs.length
  | .diCmdWithData _ bs => 6 + bs.length
  | .diDataXTimes _ _ => 6
  | .cdNew => 1
  | .cdInit => 1
  | .cdUpdateBwFrame bs => 5 + bs.length
  | .cdUpdateRedFrame bs => 5 + bs.length
  | .cdDisplayFrame => 1
  | .cdClearBwFrame _ => 2
  | .cdClearRedFrame => 1
  | .cdSetRamArea _ _ _ _ => 9
  | .cdSetRamCounter _ _ => 5
  | .cdUseFullFrame => 1
  | .wireSwReset => 1
  | .wireUpdateControl1 => 1 + c.updateControl1.length
  | .wireBorderWaveform => 2
  | .wireDataEntryMode => 2
  | .wireSetRamXWindow _ _ => 3
  | .wireSetRamYWindow _ _ => 5
  | .wireSetRamXCounter _ => 2
  | .wireSetRamYCounter _ => 3
  | .wireTempSensor => 2
  | .wireWriteRamBw bs => 1 + bs.length
  | .wireWriteRamRed bs => 1 + bs.length
  | .wireUpdateControl2 => 2
  | .wireMasterActivate => 1

/-! ### Words as the opcode table numbers their bits -/

/-- The `n` low bytes of a number, least significant first: byte 0 of a descriptor is bits 7..0. -/
def bytesOfNat (w : Nat) : Nat → List Byte
  | 0 => []
  | n + 1 => BitVec.ofNat 8 w :: bytesOfNat (w / 256) n

/-- The bytes of a table word of `nbits` bits, with operand bytes of zeros after them: the longest
descriptor with zero operands has 9 bytes (format W, rule R65). -/
def tableBytes (nbits w : Nat) : List Byte :=
  bytesOfNat w ((nbits + 7) / 8) ++ List.replicate 9 0

/-- The instruction the decoder reads from a table word. -/
def decodeTableWord (nbits w : Nat) : Option Instr :=
  match decodeDescriptor (tableBytes nbits w) with
  | .ok (i, _) => some i
  | .error _ => none

/-- The descriptor at the head of a byte list, without the bytes after it; the whole list where it
spells no operation. -/
def descriptorAt (bs : List Byte) : List Byte :=
  match decodeDescriptor bs with
  | .ok (_, rest) => bs.take (bs.length - rest.length)
  | .error _ => bs

end Sys2Proof
end

