-- ==== Sys2Proof/Machine/State.lean ====
section
/-! DEFINITION. The state of the machine as plain data (10_state.md), the reasons a step can stop,
and the state after reset (10_state.md rule R26, 70_reset_and_hazards.md rule R155). -/

namespace Sys2Proof.Machine

/-- The outcome of an operation that ends (00_scope.md rule R8): `ok`, or a bus transport error
returned unchanged. A fatal condition is no outcome: it halts the block. -/
inductive OpOutcome where
  | ok
  | err (e : BusError)
  deriving DecidableEq, Repr

/-- The fatal conditions, each with what is recorded with it (60_exceptions.md rule R130). -/
inductive Fatal where
  /-- Which of the three unsupported operations was issued (rule R132). -/
  | unsupported (op : OpName)
  /-- The four operands of a badly ordered window (rule R133). -/
  | invalidWindow (startX startY endX endY : Coord)
  /-- Which pin failed (rule R134). -/
  | pinFault (p : Pin)
  deriving DecidableEq, Repr

/-- The events of the trace (10_state.md rule R19). -/
inductive Event where
  /-- `D(p, v)` -/
  | drive (p : Pin) (v : Level)
  /-- `S(BUSY, r)` -/
  | sample (r : Sample)
  /-- `T(n)` -/
  | delay (ms : Nat)
  /-- `B(write, s, r)`, for a bus call that was answered -/
  | bus (bytes : List Byte) (r : OpOutcome)
  /-- `Ret(op, o)` -/
  | ret (op : OpName) (o : OpOutcome)
  /-- `Halt(r)` -/
  | halt (r : Fatal)
  deriving DecidableEq, Repr

/-- The working values of an operation in progress (10_state.md rule R14), each at its width; `none`
is a value that is dead at this point of the sequence. -/
structure Pos where
  step  : Option Nat
  off   : Option (BitVec 32)
  j     : Option (BitVec 32)
  i     : Option (BitVec 32)
  k     : Option (BitVec 3)
  phase : Option (BitVec 2)
  deriving DecidableEq, Repr

/-- The sequencing position (10_state.md rule R13): idle, or the operation in progress with the
working values at the action that comes next, that action's ordinal `n` in the operation's fixed
sequence, and `r`, the error of the bus call just made when DI.CMD has still to restore `DC`
(41_display_interface.md rule R88). -/
inductive Pc where
  | idle
  | running (op : Instr) (pos : Pos) (n : Nat) (r : Option BusError)
  deriving DecidableEq, Repr

/-- The sequencer state of tier CD (10_state.md rule R16). -/
inductive Seq where
  | uninitialized
  | initializing
  | idle
  | busy (op : OpName)
  deriving DecidableEq, Repr

/-- The answers of the environment that are already known, oldest first, and how many free values
have been drawn (00_scope.md rule R7; log entry 2). When a list is empty the next answer is the free
value `Config.draw…` at `drawn`. In `pin`, true is a drive that fails; in `delay`, true is a delay
that has returned. -/
structure Env where
  busy  : List Sample
  bus   : List BusAnswer
  delay : List Bool
  pin   : List Bool
  drawn : Nat
  deriving DecidableEq, Repr

/-- The state. Every statement over all states quantifies over all configurations: no operation
writes `cfg` (10_state.md rule R22). -/
structure State where
  /-- The parameters of 00_scope.md rule R5. -/
  cfg : Config
  /-- The five output latches (rule R10). -/
  pins : Pins
  /-- The sequencing position (rule R13, rule R14). -/
  pc : Pc
  /-- The outcome of the operation that ended last, be it issued by the host or one inside another; `none`
  before any has ended (rule R15; log entry 27). -/
  result : Option OpOutcome
  /-- The sticky fault mark; `none` or `fatal(r)` (rule R15). -/
  fault : Option Fatal
  /-- The sequencer state (rule R16). -/
  seq : Seq
  /-- The mark that the controller's registers are unspecified (rule R17). -/
  ctrlUnspecified : Bool
  /-- The events since reset, oldest first (rule R19). -/
  trace : List Event
  /-- The lines of the host's program that the block has not taken yet, oldest first (rule R7 (2),
  30_encoding.md rule R66; log entry 10). -/
  port : List Line
  /-- The environment's answers (rule R7 (3) to (5)). -/
  env : Env
  deriving DecidableEq, Repr

/-- Why the machine stops. -/
inductive Fault where
  /-- The block is halted: "once set the block performs no further step" (10_state.md rule R15,
  60_exceptions.md rule R139). Raised by `step` and by every meaning in a state whose `fault` is
  set. Safe: the spec gives the halted block no step. -/
  | halted (r : Fatal)
  deriving DecidableEq, Repr

/-- Why an instruction has no meaning in a state. -/
inductive Refusal where
  /-- An instruction the model gives no meaning to. Raised by no arm of this model. Safe. -/
  | notModelled (mnemonic : String)
  /-- An operation is issued while another is in progress: "the API shape forces strictly sequential
  use" (00_scope.md rule R7). Raised by `issue`; `step` never issues then. Safe. -/
  | operationInProgress
  /-- A byte list too long for the 32-bit length field (92_eei_decisions.md D13: "a model refuses
  the rest"). Raised by `issue`; no descriptor decodes to one. Safe. -/
  | operandTooLong
  /-- A public CD operation that the sequencer state does not accept (42_controller_sequences.md
  rule R105: "a model refuses the others"). Raised by `issue`. Safe. -/
  | notAccepted (seq : Seq)
  /-- A request that spells no operation (30_encoding.md rule R64 (b): "a model's decoder refuses
  it"). Raised by `step`. Safe. -/
  | undecodable (e : DecodeError)
  deriving DecidableEq, Repr

/-- The state after reset of a block with configuration `c` (10_state.md rule R26): every latch at
`INIT_LEVEL(p)`, nothing in progress, no result, no fault, an empty trace. -/
def State.resetWith (c : Config) : State where
  cfg             := c
  pins            := c.init
  pc              := .idle
  result          := none
  fault           := none
  seq             := .uninitialized
  ctrlUnspecified := false
  trace           := []
  port            := []
  env             := ⟨[], [], [], [], 0⟩

/-- The state after reset, of the configuration with the spec's defaults and free values. -/
def State.reset : State := State.resetWith Config.board

end Sys2Proof.Machine
end

