-- ==== Sys2Proof/Machine/Operands.lean ====
section
/-! DEFINITION. Operand assembly: payload layouts (30_encoding.md rule R57 to rule R61), color
operands, and the split of a logical write into chunks (41_display_interface.md rule R85). -/

namespace Sys2Proof.Machine

/-- `trunc8(x >> 3)`: a pixel X coordinate in units of 8 pixels, one byte (rule R57). -/
def xByte (x : Coord) : Byte := (x >>> 3).setWidth 8

/-- The bits `v[7], v[6], ..., v[0]` of a byte, in the order they go on the wire (rule R51). -/
def bitsOf (v : Byte) : List (BitVec 3 × Bool) :=
  [(7, v.getLsbD 7), (6, v.getLsbD 6), (5, v.getLsbD 5), (4, v.getLsbD 4),
   (3, v.getLsbD 3), (2, v.getLsbD 2), (1, v.getLsbD 1), (0, v.getLsbD 0)]

/-- The level of the data line for a bit value (rule R50, 92_eei_decisions.md D4). -/
def bitLevel (b : Bool) : Level := if b then .H else .L

/-- The payload of `C_SET_RAM_X_WINDOW` (rule R57). -/
def xWindowPayload (startX endX : Coord) : List Byte := [xByte startX, xByte endX]

/-- The payload of `C_SET_RAM_Y_WINDOW` (rule R58, 20_memory.md rule R34). -/
def yWindowPayload (startY endY : Coord) : List Byte := halfBytes startY ++ halfBytes endY

/-- The payload of `C_SET_RAM_X_COUNTER` (rule R59). -/
def xCounterPayload (x : Coord) : List Byte := [xByte x]

/-- The payload of `C_SET_RAM_Y_COUNTER` (rule R59). -/
def yCounterPayload (y : Coord) : List Byte := halfBytes y

/-- The last column of the full-panel window, `WIDTH - 1` (42_controller_sequences.md rule R108). -/
def lastX (c : Config) : Coord := BitVec.ofNat 16 (c.width - 1)

/-- The last row of the full-panel window, `HEIGHT - 1` (rule R108). -/
def lastY (c : Config) : Coord := BitVec.ofNat 16 (c.height - 1)

/-- The fill count of a whole-plane clear (rule R60). -/
def fillCount (c : Config) : Nat := c.width * c.height / 8

/-- The byte of a full frame that holds pixel `(x, y)`: planes are row-major, 8 pixels a byte
(20_memory.md rule R31). Which bit of the byte is which pixel the spec does not say. -/
def bufferIndex (c : Config) (x y : Nat) : Nat := y * (c.width / 8) + x / 8

/-- The row of the pixels in byte `n` of a full frame (rule R31). -/
def bufferRow (c : Config) (n : Nat) : Nat := n / (c.width / 8)

/-- The first of the eight columns of the pixels in byte `n` of a full frame (rule R31). -/
def bufferColumn (c : Config) (n : Nat) : Nat := 8 * (n % (c.width / 8))

/-- The color a color operand names: 0 is `White`, 1 is `inverse(White)`, "others as the Color
parameter maps them" (rule R62). -/
def colorOf (v : Byte) : Color :=
  if v = 0 then Config.white
  else if v = 1 then Config.inverse Config.white
  else Config.otherColor v

/-- The fill byte of a clear to the color an operand names: `byte_value(c)` (rule R61). -/
def fillByte (v : Byte) : Byte := Config.byteValue (colorOf v)

/-- The fill byte of the red-plane clear: `byte_value(inverse(White))` (rule R61). -/
def redFillByte : Byte := Config.byteValue (Config.inverse Config.white)

/-- The chunks of what is left of a logical write, from offset `off` on: each with its offset, each
of `MAX_CHUNK` bytes but the last (rule R85). `fuel` bounds their number. -/
def chunksFrom (limit : Option Nat) : (fuel off : Nat) → List Byte → List (Nat × List Byte)
  | 0, _, _ => []
  | _ + 1, _, [] => []
  | fuel + 1, off, b :: bs =>
    let m := limit.getD (bs.length + 1)
    (off, (b :: bs).take m) :: chunksFrom limit fuel (off + m) ((b :: bs).drop m)

/-- The chunks of a logical write; none for the empty write (rule R85, D8). -/
def chunks (c : Config) (bytes : List Byte) : List (Nat × List Byte) :=
  chunksFrom c.maxChunk bytes.length 0 bytes

end Sys2Proof.Machine
end

