-- ==== Sys2Proof/Machine/Flags.lean ====
section
/-! DEFINITION. The status computations: the numbers of the error causes (60_exceptions.md rule
R130) and the sequencer state and its mark (42_controller_sequences.md rule R105). -/

namespace Sys2Proof.Machine

/-- The operation an instruction is; a controller command is the tier DI operation that sends it
(log entry 11). -/
def opName : Instr → OpName
  | .sbWrite _ => .sbWrite
  | .sbFlush => .sbFlush
  | .sbRead _ => .sbRead
  | .sbTransfer _ => .sbTransfer
  | .sbTransferInPlace _ => .sbTransferInPlace
  | .diReset => .diReset
  | .diWaitIdle => .diWaitIdle
  | .diCmd _ => .diCmd
  | .diData _ => .diData
  | .diCmdWithData _ _ => .diCmdWithData
  | .diDataXTimes _ _ => .diDataXTimes
  | .cdNew => .cdNew
  | .cdInit => .cdInit
  | .cdUpdateBwFrame _ => .cdUpdateBwFrame
  | .cdUpdateRedFrame _ => .cdUpdateRedFrame
  | .cdDisplayFrame => .cdDisplayFrame
  | .cdClearBwFrame _ => .cdClearBwFrame
  | .cdClearRedFrame => .cdClearRedFrame
  | .cdSetRamArea _ _ _ _ => .cdSetRamArea
  | .cdSetRamCounter _ _ => .cdSetRamCounter
  | .cdUseFullFrame => .cdUseFullFrame
  | .wireSwReset => .diCmd
  | .wireUpdateControl1 => .diCmdWithData
  | .wireBorderWaveform => .diCmdWithData
  | .wireDataEntryMode => .diCmdWithData
  | .wireSetRamXWindow _ _ => .diCmdWithData
  | .wireSetRamYWindow _ _ => .diCmdWithData
  | .wireSetRamXCounter _ => .diCmdWithData
  | .wireSetRamYCounter _ => .diCmdWithData
  | .wireTempSensor => .diCmdWithData
  | .wireWriteRamBw _ => .diCmdWithData
  | .wireWriteRamRed _ => .diCmdWithData
  | .wireUpdateControl2 => .diCmdWithData
  | .wireMasterActivate => .diCmd

/-- The visibility of an operation (30_encoding.md rule R63). There is no privilege: "No operation traps
for want of privilege" (60_exceptions.md rule R142). -/
def visibility : OpName → Visibility
  | .sbWrite => .busContract
  | .sbFlush => .busContract
  | .sbRead => .busContract
  | .sbTransfer => .busContract
  | .sbTransferInPlace => .busContract
  | .diReset => .interface
  | .diWaitIdle => .interface
  | .diCmd => .interface
  | .diData => .interface
  | .diCmdWithData => .interface
  | .diDataXTimes => .interface
  | .cdNew => .publicSurface
  | .cdInit => .publicSurface
  | .cdUpdateBwFrame => .publicSurface
  | .cdUpdateRedFrame => .publicSurface
  | .cdDisplayFrame => .publicSurface
  | .cdClearBwFrame => .publicSurface
  | .cdClearRedFrame => .publicSurface
  | .cdSetRamArea => .internal
  | .cdSetRamCounter => .internal
  | .cdUseFullFrame => .internal

/-- Whether an operation is a pseudo-operation, "whose whole meaning is a fixed sequence of operations
of the tier below" (30_encoding.md rule R67). -/
def isPseudo : OpName → Bool
  | .sbWrite => false
  | .sbFlush => false
  | .sbRead => false
  | .sbTransfer => false
  | .sbTransferInPlace => false
  | .diReset => false
  | .diWaitIdle => false
  | .diCmd => false
  | .diData => false
  | .diCmdWithData => true
  | .diDataXTimes => false
  | .cdNew => true
  | .cdInit => true
  | .cdUpdateBwFrame => true
  | .cdUpdateRedFrame => true
  | .cdDisplayFrame => true
  | .cdClearBwFrame => true
  | .cdClearRedFrame => true
  | .cdSetRamArea => true
  | .cdSetRamCounter => true
  | .cdUseFullFrame => true

/-- The cause number of a fatal condition (rule R130). -/
def fatalCode : Fatal → Nat
  | .unsupported _ => 2
  | .invalidWindow _ _ _ _ => 3
  | .pinFault _ => 4

/-- The cause number of an outcome that is not `ok` (rule R130): a bus error is 1. -/
def outcomeCode : OpOutcome → Option Nat
  | .ok => none
  | .err _ => some 1

/-- How the sequencer treats an operation (rule R105): CD.NEW, CD.INIT, one of the five frame
operations, or an operation the gate does not apply to. -/
inductive SeqClass where
  | new
  | init
  | frame
  | ungated
  deriving DecidableEq, Repr

/-- The class of an operation: "the gate applies to the seven public operations only" (rule R105). -/
def seqClass : OpName → SeqClass
  | .cdNew => .new
  | .cdInit => .init
  | .cdUpdateBwFrame => .frame
  | .cdUpdateRedFrame => .frame
  | .cdDisplayFrame => .frame
  | .cdClearBwFrame => .frame
  | .cdClearRedFrame => .frame
  | .sbWrite => .ungated
  | .sbFlush => .ungated
  | .sbRead => .ungated
  | .sbTransfer => .ungated
  | .sbTransferInPlace => .ungated
  | .diReset => .ungated
  | .diWaitIdle => .ungated
  | .diCmd => .ungated
  | .diData => .ungated
  | .diCmdWithData => .ungated
  | .diDataXTimes => .ungated
  | .cdSetRamArea => .ungated
  | .cdSetRamCounter => .ungated
  | .cdUseFullFrame => .ungated

/-- Whether the sequencer accepts an operation: CD.NEW only in `Uninitialized`, the other public
operations only in `Idle`, everything else always (rule R105, 92_eei_decisions.md D23). -/
def accepts (q : Seq) (op : OpName) : Bool :=
  match seqClass op with
  | .new => q = .uninitialized
  | .init => q = .idle
  | .frame => q = .idle
  | .ungated => true

/-- `seq` when an operation is issued (rule R105). -/
def seqEnter (op : OpName) (q : Seq) : Seq :=
  match seqClass op with
  | .new => .initializing
  | .init => .initializing
  | .frame => .busy op
  | .ungated => q

/-- `seq` when an operation ends with an outcome (rule R105). -/
def seqLeave (op : OpName) (o : OpOutcome) (q : Seq) : Seq :=
  match seqClass op with
  | .new =>
    match o with
    | .ok => .idle
    | .err _ => .uninitialized
  | .init => .idle
  | .frame => .idle
  | .ungated => q

/-- `ctrl_unspecified` when an operation ends with an outcome: set by an error of a public operation,
cleared only by a CD.NEW or CD.INIT that ends with `ok` (rule R105, 10_state.md rule R17). -/
def markLeave (op : OpName) (o : OpOutcome) (m : Bool) : Bool :=
  match seqClass op with
  | .new =>
    match o with
    | .ok => false
    | .err _ => true
  | .init =>
    match o with
    | .ok => false
    | .err _ => true
  | .frame =>
    match o with
    | .ok => m
    | .err _ => true
  | .ungated => m

end Sys2Proof.Machine
end

