-- ==== Sys2Proof/Machine/Ops.lean ====
section
/-! DEFINITION. The named operations over the state: the latches, the trace, the answers of the
environment, and the two ways an operation ends: with an outcome (60_exceptions.md rule R138) or in a
fatal condition (rule R139). There is no return from a fault (rule R140). -/

namespace Sys2Proof.Machine

/-- `x[p]`: the content of the latch behind a pin (10_state.md rule R10). -/
def getPin (ps : Pins) : Pin → Latch
  | .cs => ps.cs
  | .sclk => ps.sclk
  | .mosi => ps.mosi
  | .dc => ps.dc
  | .rst => ps.rst

/-- The latches after pin `p` is driven to level `v`. -/
def setPin (ps : Pins) (p : Pin) (v : Level) : Pins :=
  match p with
  | .cs => { ps with cs := v.latch }
  | .sclk => { ps with sclk := v.latch }
  | .mosi => { ps with mosi := v.latch }
  | .dc => { ps with dc := v.latch }
  | .rst => { ps with rst := v.latch }

/-- The next answer of the busy input. -/
def Env.nextBusy (e : Env) : Sample × Env :=
  match e.busy with
  | a :: as => (a, { e with busy := as })
  | [] => (Config.drawBusy e.drawn, { e with drawn := e.drawn + 1 })

/-- The next answer of the external bus. -/
def Env.nextBus (e : Env) : BusAnswer × Env :=
  match e.bus with
  | a :: as => (a, { e with bus := as })
  | [] => (Config.drawBus e.drawn, { e with drawn := e.drawn + 1 })

/-- Whether the delay primitive has returned when the block looks next. -/
def Env.nextDelay (e : Env) : Bool × Env :=
  match e.delay with
  | a :: as => (a, { e with delay := as })
  | [] => (Config.drawDelay e.drawn, { e with drawn := e.drawn + 1 })

/-- Whether the next drive of an output pin fails. -/
def Env.nextPin (e : Env) : Bool × Env :=
  match e.pin with
  | a :: as => (a, { e with pin := as })
  | [] => (Config.drawPin e.drawn, { e with drawn := e.drawn + 1 })

/-- Appends an event to the trace (10_state.md rule R19). -/
def State.log (s : State) (ev : Event) : State := { s with trace := s.trace ++ [ev] }

/-- The state with the environment's answers replaced. -/
def State.withEnv (s : State) (e : Env) : State := { s with env := e }

/-- `x[p] <- v` that succeeds: "the latch takes v and the event `D(p, v)` is appended to the trace,
whether or not the level changed" (00_scope.md section 6). -/
def State.put (s : State) (p : Pin) (v : Level) : State :=
  { s with pins := setPin s.pins p v, trace := s.trace ++ [.drive p v] }

/-- A fatal condition (rule R139): sets `fault`, appends `Halt(r)`, no `Ret`; the sequencing
position, `seq` and `result` keep their values. -/
def State.halt (s : State) (r : Fatal) : State :=
  { s with fault := some r, trace := s.trace ++ [.halt r] }

/-- The end of an operation with an outcome (10_state.md rule R15, 60_exceptions.md rule R138):
writes `result`, moves `seq` and the mark as rule R105 says, appends `Ret(op, o)`, and leaves the
block ready for the next operation. It is the end of an operation the host issued; that of one inside
it is `State.leave`. -/
def State.finish (s : State) (op : OpName) (o : OpOutcome) : State :=
  { s with
    pc := .idle
    result := some o
    seq := seqLeave op o s.seq
    ctrlUnspecified := markLeave op o s.ctrlUnspecified
    trace := s.trace ++ [.ret op o] }

/-- The end of an operation that runs inside another one, where one ends: it writes `result` (10_state.md
rule R15), and appends no `Ret` (41_display_interface.md rule R90). -/
def State.leave (s : State) (ends : Bool) (o : OpOutcome) : State :=
  if ends then { s with result := some o } else s

/-- The error in an outcome. -/
def errorOf : Option OpOutcome → Option BusError
  | none => none
  | some .ok => none
  | some (.err e) => some e

/-- The error an operation goes on with: where one inside it has just ended, its fail-fast test reads
`result`, "the outcome of the sub-operation just ended" (10_state.md rule R15); elsewhere it has its own
`r` (41_display_interface.md rule R85, rule R88). -/
def State.failFast (s : State) (ends : Bool) (r : Option BusError) : Option BusError :=
  if ends then errorOf s.result else r

/-- The state at the start of an operation (rule R105). -/
def State.enter (s : State) (op : OpName) : State := { s with seq := seqEnter op s.seq }

/-- The state with an operation in progress at a position. -/
def State.suspend (s : State) (i : Instr) (pos : Pos) (n : Nat) (r : Option BusError) : State :=
  { s with pc := .running i pos n r }

/-- Whether a program stops before a line (30_encoding.md rule R66): the outcome before it is not `ok`,
and the program does not say otherwise. -/
def lineStops (result : Option OpOutcome) (l : Line) : Bool :=
  match result with
  | none => false
  | some .ok => false
  | some (.err _) => !l.always

end Sys2Proof.Machine
end

