-- ==== Sys2Proof/Machine/Sequence.lean ====
section
/-! DEFINITION. The fixed sequences of the operations: the actions a block performs one at a time
(10_state.md rule R13), the wire formats (30_encoding.md rule R50 to rule R54), the chunked write,
and the tier DI operations as sequences (41_display_interface.md rule R85 to rule R91). -/

namespace Sys2Proof.Machine

/-- One action of the block: "one drive, one sample, one delay or one external bus call"
(92_eei_decisions.md D6), or the raise of a fatal condition. `restore` is the drive of `DC` that
DI.CMD performs "whether or not the write failed" (41_display_interface.md rule R88). -/
inductive Act where
  | drive (p : Pin) (v : Level)
  | restore (v : Level)
  | sample
  | delay (ms : Nat)
  | bus (bytes : List Byte)
  | raise (f : Fatal)
  deriving DecidableEq, Repr

/-- An action with the working values at it (10_state.md rule R14), and whether an operation ends with
it: one inside another, or the whole. Its end writes `result` (rule R15). -/
structure Entry where
  pos  : Pos
  act  : Act
  ends : Bool
  deriving DecidableEq, Repr

/-- The sequence of an operation that ends with its last action. -/
def closed : List Entry → List Entry
  | [] => []
  | [e] => [{ e with ends := true }]
  | e :: e' :: es => e :: closed (e' :: es)

/-- Every working value dead. -/
def Pos.dead : Pos := ⟨none, none, none, none, none, none⟩

/-- A bit cell (rule R50): clock low, data, clock high. -/
def bitCell (pos : Pos) (b : Bool) : List Entry :=
  [⟨{ pos with phase := some 0 }, .drive .sclk .L, false⟩,
   ⟨{ pos with phase := some 1 }, .drive .mosi (bitLevel b), false⟩,
   ⟨{ pos with phase := some 2 }, .drive .sclk .H, false⟩]

/-- A byte frame (rule R51): eight bit cells, bit 7 first. -/
def byteFrame (pos : Pos) (v : Byte) : List Entry :=
  (bitsOf v).flatMap fun kb => bitCell { pos with k := some kb.1 } kb.2

/-- The byte frames of a list, the first of them byte number `i` of its write frame. The working value
`i` has 32 bits (10_state.md rule R14): at byte `2 ^ 32` of a `P_UC1` of that length it wraps. DESIGN
CHOICE (log entry 28). -/
def byteFrames (pos : Pos) : (i : Nat) → List Byte → List Entry
  | _, [] => []
  | i, v :: vs => byteFrame { pos with i := some (BitVec.ofNat 32 i) } v ++ byteFrames pos (i + 1) vs

/-- A write frame (rule R52, 40_serial_bus.md rule R70): chip-select, the byte frames, chip-select
released, with which SB.WRITE ends. -/
def writeFrame (c : Config) (pos : Pos) (bytes : List Byte) : List Entry :=
  ⟨pos, .drive .cs c.csActive, false⟩ ::
    (byteFrames pos 0 bytes ++ [⟨pos, .drive .cs c.csInactive, true⟩])

/-- `bus.write(s)` (40_serial_bus.md rule R78): a write frame, or one call of the external bus. The first
is SB.WRITE, an operation; that the second is none, and writes no `result`, is DEDUCED (log entry 27). -/
def busWrite (c : Config) (pos : Pos) (bytes : List Byte) : List Entry :=
  match c.busKind with
  | .bitbang => writeFrame c pos bytes
  | .external => [⟨pos, .bus bytes, false⟩]

/-- The helper `DI.write` (41_display_interface.md rule R85): one bus call a chunk. The working value
`off` has 32 bits (10_state.md rule R14) and wraps as `i` does; the bytes sent are all of the list's.
DESIGN CHOICE (log entry 28). -/
def diWrite (c : Config) (pos : Pos) (bytes : List Byte) : List Entry :=
  (chunks c bytes).flatMap fun oc => busWrite c { pos with off := some (BitVec.ofNat 32 oc.1) } oc.2

/-- DI.RESET (rule R86). -/
def resetEntries (pos : Pos) : List Entry :=
  [⟨pos, .drive .rst .L, false⟩, ⟨pos, .delay Config.settleMs, false⟩,
   ⟨pos, .drive .rst .H, false⟩, ⟨pos, .delay Config.settleMs, true⟩]

/-- DI.WAIT_IDLE (rule R87): the poll, performed again while it reads high. -/
def waitEntries (pos : Pos) : List Entry := [⟨pos, .sample, true⟩]

/-- DI.CMD (rule R88). -/
def cmdEntries (c : Config) (pos : Pos) (opcode : Byte) : List Entry :=
  ⟨pos, .drive .dc c.dcCommand, false⟩ ::
    (diWrite c pos [opcode] ++ [⟨pos, .restore c.dcData, true⟩])

/-- DI.DATA (rule R89). -/
def dataEntries (c : Config) (pos : Pos) (bytes : List Byte) : List Entry :=
  closed (⟨pos, .drive .dc c.dcData, false⟩ :: diWrite c pos bytes)

/-- DI.CMD_WITH_DATA (rule R90): DI.CMD, then DI.DATA, with which it ends. -/
def cmdDataEntries (c : Config) (pos : Pos) (opcode : Byte) (bytes : List Byte) : List Entry :=
  cmdEntries c pos opcode ++ dataEntries c pos bytes

/-- The single-byte writes of a fill, from repetition `j` on (rule R91). -/
def fillWrites (c : Config) (pos : Pos) (value : Byte) : (j count : Nat) → List Entry
  | _, 0 => []
  | j, count + 1 =>
    diWrite c { pos with j := some (BitVec.ofNat 32 j) } [value] ++
      fillWrites c pos value (j + 1) count

/-- DI.DATA_X_TIMES (rule R91). -/
def fillEntries (c : Config) (pos : Pos) (value : Byte) (count : Nat) : List Entry :=
  closed (⟨pos, .drive .dc c.dcData, false⟩ :: fillWrites c pos value 0 count)

/-- What a tier CD operation is a fixed list of (42_controller_sequences.md): tier DI operations,
the settle delay of CD.INIT, and the raise of a fatal condition. -/
inductive DiOp where
  | reset
  | waitIdle
  | settle
  | cmd (opcode : Byte)
  | cmdWithData (opcode : Byte) (bytes : List Byte)
  | dataXTimes (value : Byte) (count : Nat)
  | raise (f : Fatal)
  deriving DecidableEq, Repr

/-- The sequence of one operation of an expansion. -/
def diOpEntries (c : Config) (pos : Pos) : DiOp → List Entry
  | .reset => resetEntries pos
  | .waitIdle => waitEntries pos
  | .settle => [⟨pos, .delay Config.settleMs, false⟩]
  | .cmd opcode => cmdEntries c pos opcode
  | .cmdWithData opcode bytes => cmdDataEntries c pos opcode bytes
  | .dataXTimes value count => fillEntries c pos value count
  | .raise f => [⟨pos, .raise f, false⟩]

/-- The sequence of an expansion whose first operation is number `k`; `step` counts its operations
(10_state.md rule R14). -/
def expand (c : Config) : (k : Nat) → List DiOp → List Entry
  | _, [] => []
  | k, o :: os => diOpEntries c { Pos.dead with step := some k } o ++ expand c (k + 1) os

end Sys2Proof.Machine
end

