-- ==== Sys2Proof/Machine/Plans.lean ====
section
/-! DEFINITION. The fixed sequence of each of the 34 instructions, one definition each, from its rule,
and `planOf`, which the block follows when an operation in progress goes on. -/

namespace Sys2Proof.Machine

/-! ### Tier SB (40_serial_bus.md) -/

/-- SB.WRITE (rule R70, rule R77). -/
def planSbWrite (c : Config) (bytes : List Byte) : List Entry := writeFrame c Pos.dead bytes

/-- SB.FLUSH (rule R71): "no-op (no internal buffering)". -/
def planSbFlush : List Entry := []

/-- SB.READ (rule R72): fatal at once. -/
def planSbRead : List Entry := [⟨Pos.dead, .raise (.unsupported .sbRead), false⟩]

/-- SB.TRANSFER (rule R73): fatal at once. -/
def planSbTransfer : List Entry := [⟨Pos.dead, .raise (.unsupported .sbTransfer), false⟩]

/-- SB.TRANSFER_IN_PLACE (rule R74): fatal at once. -/
def planSbTransferInPlace : List Entry := [⟨Pos.dead, .raise (.unsupported .sbTransferInPlace), false⟩]

/-! ### Tier DI (41_display_interface.md) -/

/-- DI.RESET (rule R86). -/
def planDiReset : List Entry := resetEntries Pos.dead

/-- DI.WAIT_IDLE (rule R87). -/
def planDiWaitIdle : List Entry := waitEntries Pos.dead

/-- DI.CMD (rule R88). -/
def planDiCmd (c : Config) (opcode : Byte) : List Entry := cmdEntries c Pos.dead opcode

/-- DI.DATA (rule R89). -/
def planDiData (c : Config) (bytes : List Byte) : List Entry := dataEntries c Pos.dead bytes

/-- DI.CMD_WITH_DATA (rule R90). -/
def planDiCmdWithData (c : Config) (opcode : Byte) (bytes : List Byte) : List Entry :=
  cmdDataEntries c Pos.dead opcode bytes

/-- DI.DATA_X_TIMES (rule R91). -/
def planDiDataXTimes (c : Config) (value : Byte) (count : Len) : List Entry :=
  fillEntries c Pos.dead value count.toNat

/-! ### Tier CD (42_controller_sequences.md): expansions into tier DI operations -/

/-- CD.SET_RAM_AREA (rule R106): the strict ordering is checked before anything is driven. -/
def opsSetRamArea (c : Config) (startX startY endX endY : Coord) : List DiOp :=
  if startX.toNat < endX.toNat ∧ startY.toNat < endY.toNat then
    [.cmdWithData c.codes.setRamXWindow (xWindowPayload startX endX),
     .cmdWithData c.codes.setRamYWindow (yWindowPayload startY endY)]
  else [.raise (.invalidWindow startX startY endX endY)]

/-- CD.SET_RAM_COUNTER (rule R107). -/
def opsSetRamCounter (c : Config) (x y : Coord) : List DiOp :=
  [.cmdWithData c.codes.setRamXCounter (xCounterPayload x),
   .cmdWithData c.codes.setRamYCounter (yCounterPayload y)]

/-- CD.USE_FULL_FRAME (rule R108): window, then counter. -/
def opsUseFullFrame (c : Config) : List DiOp :=
  opsSetRamArea c 0 0 (lastX c) (lastY c) ++ opsSetRamCounter c 0 0

/-- CD.INIT (rule R110): the ten steps. -/
def opsInit (c : Config) : List DiOp :=
  [.reset,
   .cmd c.codes.swReset,
   .waitIdle,
   .settle,
   .cmdWithData c.codes.updateControl1 c.updateControl1,
   .cmdWithData c.codes.borderWaveform [borderPayload c],
   .cmdWithData c.codes.dataEntryMode [dataEntryPayload c]] ++
  opsUseFullFrame c ++
  [.cmdWithData c.codes.tempSensor [c.flags.internalTempSensor],
   .waitIdle]

/-- CD.NEW (rule R109): constructing the Interface drives nothing; then CD.INIT. -/
def opsNew (c : Config) : List DiOp := opsInit c

/-- CD.UPDATE_BW_FRAME (rule R111): the buffer goes out whole, whatever its length (rule R117). -/
def opsUpdateBwFrame (c : Config) (buffer : List Byte) : List DiOp :=
  opsUseFullFrame c ++ [.cmdWithData c.codes.writeRamBw buffer]

/-- CD.UPDATE_RED_FRAME (rule R112, rule R117). -/
def opsUpdateRedFrame (c : Config) (buffer : List Byte) : List DiOp :=
  opsUseFullFrame c ++ [.cmdWithData c.codes.writeRamRed buffer]

/-- CD.DISPLAY_FRAME (rule R113). -/
def opsDisplayFrame (c : Config) : List DiOp :=
  [.cmdWithData c.codes.updateControl2 [c.flags.fullRefresh],
   .cmd c.codes.masterActivate,
   .waitIdle]

/-- CD.CLEAR_BW_FRAME (rule R114). -/
def opsClearBwFrame (c : Config) (color : Byte) : List DiOp :=
  opsUseFullFrame c ++ [.cmd c.codes.writeRamBw, .dataXTimes (fillByte color) (fillCount c)]

/-- CD.CLEAR_RED_FRAME (rule R115). -/
def opsClearRedFrame (c : Config) : List DiOp :=
  opsUseFullFrame c ++ [.cmd c.codes.writeRamRed, .dataXTimes redFillByte (fillCount c)]

def planCdNew (c : Config) : List Entry := expand c 0 (opsNew c)

def planCdInit (c : Config) : List Entry := expand c 0 (opsInit c)

def planCdUpdateBwFrame (c : Config) (buffer : List Byte) : List Entry :=
  expand c 0 (opsUpdateBwFrame c buffer)

def planCdUpdateRedFrame (c : Config) (buffer : List Byte) : List Entry :=
  expand c 0 (opsUpdateRedFrame c buffer)

def planCdDisplayFrame (c : Config) : List Entry := expand c 0 (opsDisplayFrame c)

def planCdClearBwFrame (c : Config) (color : Byte) : List Entry :=
  expand c 0 (opsClearBwFrame c color)

def planCdClearRedFrame (c : Config) : List Entry := expand c 0 (opsClearRedFrame c)

def planCdSetRamArea (c : Config) (startX startY endX endY : Coord) : List Entry :=
  expand c 0 (opsSetRamArea c startX startY endX endY)

def planCdSetRamCounter (c : Config) (x y : Coord) : List Entry :=
  expand c 0 (opsSetRamCounter c x y)

def planCdUseFullFrame (c : Config) : List Entry := expand c 0 (opsUseFullFrame c)

/-! ### Controller commands on the wire (30_encoding.md rule R55): the command frame, then the
payload of the table as data, sent by the tier DI operation that sends it (log entry 11) -/

/-- `C_SW_RESET`, no payload. -/
def planWireSwReset (c : Config) : List Entry := planDiCmd c c.codes.swReset

/-- `C_UPDATE_CONTROL_1`, payload `P_UC1`. -/
def planWireUpdateControl1 (c : Config) : List Entry :=
  planDiCmdWithData c c.codes.updateControl1 c.updateControl1

/-- `C_BORDER_WAVEFORM`, payload `F_BORDER_FOLLOW_LUT | F_BORDER_LUT1`. -/
def planWireBorderWaveform (c : Config) : List Entry :=
  planDiCmdWithData c c.codes.borderWaveform [borderPayload c]

/-- `C_DATA_ENTRY_MODE`, payload `F_INC_Y | F_INC_X`. -/
def planWireDataEntryMode (c : Config) : List Entry :=
  planDiCmdWithData c c.codes.dataEntryMode [dataEntryPayload c]

/-- `C_SET_RAM_X_WINDOW`, payload of two bytes in units of 8 pixels (rule R57). -/
def planWireSetRamXWindow (c : Config) (startX endX : Byte) : List Entry :=
  planDiCmdWithData c c.codes.setRamXWindow [startX, endX]

/-- `C_SET_RAM_Y_WINDOW`, payload of two 16-bit values (rule R58). -/
def planWireSetRamYWindow (c : Config) (startY endY : Coord) : List Entry :=
  planDiCmdWithData c c.codes.setRamYWindow (yWindowPayload startY endY)

/-- `C_SET_RAM_X_COUNTER`, payload of one byte in units of 8 pixels (rule R59). -/
def planWireSetRamXCounter (c : Config) (x : Byte) : List Entry :=
  planDiCmdWithData c c.codes.setRamXCounter [x]

/-- `C_SET_RAM_Y_COUNTER`, payload of one 16-bit value (rule R59). -/
def planWireSetRamYCounter (c : Config) (y : Coord) : List Entry :=
  planDiCmdWithData c c.codes.setRamYCounter (yCounterPayload y)

/-- `C_TEMP_SENSOR`, payload `F_INTERNAL_TEMP_SENSOR`. -/
def planWireTempSensor (c : Config) : List Entry :=
  planDiCmdWithData c c.codes.tempSensor [c.flags.internalTempSensor]

/-- `C_WRITE_RAM_BW`, payload the plane bytes. -/
def planWireWriteRamBw (c : Config) (bytes : List Byte) : List Entry :=
  planDiCmdWithData c c.codes.writeRamBw bytes

/-- `C_WRITE_RAM_RED`, payload the plane bytes. -/
def planWireWriteRamRed (c : Config) (bytes : List Byte) : List Entry :=
  planDiCmdWithData c c.codes.writeRamRed bytes

/-- `C_UPDATE_CONTROL_2`, payload `F_FULL_REFRESH`. -/
def planWireUpdateControl2 (c : Config) : List Entry :=
  planDiCmdWithData c c.codes.updateControl2 [c.flags.fullRefresh]

/-- `C_MASTER_ACTIVATE`, no payload. -/
def planWireMasterActivate (c : Config) : List Entry := planDiCmd c c.codes.masterActivate

/-- The fixed sequence of an instruction in a configuration. -/
def planOf (c : Config) : Instr → List Entry
  | .sbWrite bytes => planSbWrite c bytes
  | .sbFlush => planSbFlush
  | .sbRead _ => planSbRead
  | .sbTransfer _ => planSbTransfer
  | .sbTransferInPlace _ => planSbTransferInPlace
  | .diReset => planDiReset
  | .diWaitIdle => planDiWaitIdle
  | .diCmd opcode => planDiCmd c opcode
  | .diData bytes => planDiData c bytes
  | .diCmdWithData opcode bytes => planDiCmdWithData c opcode bytes
  | .diDataXTimes value count => planDiDataXTimes c value count
  | .cdNew => planCdNew c
  | .cdInit => planCdInit c
  | .cdUpdateBwFrame buffer => planCdUpdateBwFrame c buffer
  | .cdUpdateRedFrame buffer => planCdUpdateRedFrame c buffer
  | .cdDisplayFrame => planCdDisplayFrame c
  | .cdClearBwFrame color => planCdClearBwFrame c color
  | .cdClearRedFrame => planCdClearRedFrame c
  | .cdSetRamArea sx sy ex ey => planCdSetRamArea c sx sy ex ey
  | .cdSetRamCounter x y => planCdSetRamCounter c x y
  | .cdUseFullFrame => planCdUseFullFrame c
  | .wireSwReset => planWireSwReset c
  | .wireUpdateControl1 => planWireUpdateControl1 c
  | .wireBorderWaveform => planWireBorderWaveform c
  | .wireDataEntryMode => planWireDataEntryMode c
  | .wireSetRamXWindow s e => planWireSetRamXWindow c s e
  | .wireSetRamYWindow s e => planWireSetRamYWindow c s e
  | .wireSetRamXCounter x => planWireSetRamXCounter c x
  | .wireSetRamYCounter y => planWireSetRamYCounter c y
  | .wireTempSensor => planWireTempSensor c
  | .wireWriteRamBw bytes => planWireWriteRamBw c bytes
  | .wireWriteRamRed bytes => planWireWriteRamRed c bytes
  | .wireUpdateControl2 => planWireUpdateControl2 c
  | .wireMasterActivate => planWireMasterActivate c

end Sys2Proof.Machine
end

