-- ==== Sys2Proof/Machine/Run.lean ====
section
/-! DEFINITION. Performing a sequence: one action (92_eei_decisions.md D6), a whole operation up to its
end or to where the environment holds it, issuing an operation, and going on with one in progress. -/

namespace Sys2Proof.Machine

/-- How one action went: done; done with the bus call answered `err(e)`; not done yet, to be
performed again; or the block halted at it. -/
inductive Progress where
  | done (s : State)
  | failed (e : BusError) (s : State)
  | wait (s : State)
  | halted (s : State)
  deriving DecidableEq, Repr

/-- One drive of an output pin. With `PIN_FAIL = true` it may fail, which "raises `fatal(PinFault)`
at that drive" (40_serial_bus.md rule R75, 41_display_interface.md rule R92). -/
def performDrive (p : Pin) (v : Level) (s : State) : Progress :=
  if s.cfg.pinFail then
    if s.env.nextPin.1 then .halted ((s.withEnv s.env.nextPin.2).halt (.pinFault p))
    else .done ((s.withEnv s.env.nextPin.2).put p v)
  else .done (s.put p v)

/-- One sample of `BUSY` (rule R87): high polls again; low, and a failed read, end the wait. -/
def performSample (s : State) : Progress :=
  match s.env.nextBusy.1 with
  | .high => .wait ((s.withEnv s.env.nextBusy.2).log (.sample .high))
  | .low => .done ((s.withEnv s.env.nextBusy.2).log (.sample .low))
  | .fail => .done ((s.withEnv s.env.nextBusy.2).log (.sample .fail))

/-- A delay (60_exceptions.md rule R143): the event is recorded when the primitive returns; while it
has not returned the block is held (rule R148 (b)). -/
def performDelay (ms : Nat) (s : State) : Progress :=
  if s.env.nextDelay.1 then .done ((s.withEnv s.env.nextDelay.2).log (.delay ms))
  else .wait (s.withEnv s.env.nextDelay.2)

/-- A call of the external bus (40_serial_bus.md rule R78): it drives no pin; while it has not
answered the block is held (rule R148 (c)). -/
def performBus (bytes : List Byte) (s : State) : Progress :=
  match s.env.nextBus.1 with
  | .ok => .done ((s.withEnv s.env.nextBus.2).log (.bus bytes .ok))
  | .err e => .failed e ((s.withEnv s.env.nextBus.2).log (.bus bytes (.err e)))
  | .pending => .wait (s.withEnv s.env.nextBus.2)

/-- One action. -/
def perform : Act → State → Progress
  | .drive p v, s => performDrive p v s
  | .restore v, s => performDrive .dc v s
  | .sample, s => performSample s
  | .delay ms, s => performDelay ms s
  | .bus bytes, s => performBus bytes s
  | .raise f, s => .halted (s.halt f)

/-- After a bus error every action is passed over but the restore of `DC` that follows the failed
call in DI.CMD (41_display_interface.md rule R88, 60_exceptions.md rule R138). -/
def skipped (r : Option BusError) (a : Act) : Bool :=
  match r, a with
  | none, _ => false
  | some _, .restore _ => false
  | some _, .drive _ _ => true
  | some _, .sample => true
  | some _, .delay _ => true
  | some _, .bus _ => true
  | some _, .raise _ => true

/-- The outcome an operation ends with: the bus error, if there was one. -/
def outcomeOf : Option BusError → OpOutcome
  | none => .ok
  | some e => .err e

/-- The end of an operation inside another, after an action that was done with `r` as the error so far:
the state, with `result` written where one ends, and the error the enclosing operation goes on with. -/
def passOn (e : Entry) (r : Option BusError) (s : State) : State × Option BusError :=
  let t := s.leave e.ends (outcomeOf r)
  (t, t.failFast e.ends r)

/-- Performs what is left of the sequence of `i`, from action number `n` on, up to the end of the
operation or to the action at which the environment holds it or the block halts. -/
def run (i : Instr) : List Entry → Nat → Option BusError → State → State
  | [], _, r, s => s.finish (opName i) (outcomeOf r)
  | e :: es, n, r, s =>
    if skipped r e.act then s.finish (opName i) (outcomeOf r)
    else
      match perform e.act s with
      | .done s' => run i es (n + 1) (passOn e r s').2 (passOn e r s').1
      | .failed x s' => run i es (n + 1) (some x) s'
      | .wait s' => s'.suspend i e.pos n r
      | .halted s' => s'.suspend i e.pos n r

/-- The state that has come to the actions `es` of `i`: the operation ends, or waits at the first. -/
def arrive (i : Instr) (es : List Entry) (n : Nat) (r : Option BusError) (s : State) : State :=
  match es with
  | [] => s.finish (opName i) (outcomeOf r)
  | e :: _ =>
    if skipped r e.act then s.finish (opName i) (outcomeOf r) else s.suspend i e.pos n r

/-- One step at the grain of 92_eei_decisions.md D6: the action an operation in progress is at. -/
def microStep (s : State) : State :=
  match s.fault, s.pc with
  | some _, _ => s
  | none, .idle => s
  | none, .running i _ n r =>
    match (planOf s.cfg i).drop n with
    | [] => s.finish (opName i) (outcomeOf r)
    | e :: es =>
      match perform e.act s with
      | .done s' => arrive i es (n + 1) (passOn e r s').2 (passOn e r s').1
      | .failed x s' => arrive i es (n + 1) (some x) s'
      | .wait s' => s'
      | .halted s' => s'

/-- Issues an operation (00_scope.md rule R7, 42_controller_sequences.md rule R105) and performs it to
its end or to where the environment holds it. -/
def issue (i : Instr) (s : State) : Host.Outcome State Fault Refusal :=
  match s.fault with
  | some f => .fault (.halted f)
  | none =>
    if s.pc ≠ .idle then .refused .operationInProgress
    else if !i.wf then .refused .operandTooLong
    else if !accepts s.seq (opName i) then .refused (.notAccepted s.seq)
    else .next (run i (planOf s.cfg i) 0 none (s.enter (opName i)))

/-- Goes on with the operation in progress, from the action it is at. -/
def resume (i : Instr) (n : Nat) (r : Option BusError) (s : State) : State :=
  run i ((planOf s.cfg i).drop n) n r s

end Sys2Proof.Machine
end

