-- ==== Sys2Proof/Machine/ControllerDriver.lean ====
section
/-! DEFINITION. The meanings of tier CD, the controller sequences (42_controller_sequences.md). What each does is its
sequence in Machine/Plans.lean, performed as Machine/Run.lean says. -/

namespace Sys2Proof.Machine

/-- CD.NEW (rule R109): from `Uninitialized` to `Idle` through the initialization sequence. -/
def execCdNew (s : State) : Host.Outcome State Fault Refusal :=
  issue .cdNew s

/-- CD.INIT (rule R110): the ten steps of the initialization sequence. -/
def execCdInit (s : State) : Host.Outcome State Fault Refusal :=
  issue .cdInit s

/-- CD.UPDATE_BW_FRAME (rule R111): uploads a buffer into the black/white plane. -/
def execCdUpdateBwFrame (buffer : List Byte) (s : State) : Host.Outcome State Fault Refusal :=
  issue (.cdUpdateBwFrame buffer) s

/-- CD.UPDATE_RED_FRAME (rule R112): uploads a buffer into the red plane. -/
def execCdUpdateRedFrame (buffer : List Byte) (s : State) : Host.Outcome State Fault Refusal :=
  issue (.cdUpdateRedFrame buffer) s

/-- CD.DISPLAY_FRAME (rule R113): full refresh, master-activate, wait until idle. -/
def execCdDisplayFrame (s : State) : Host.Outcome State Fault Refusal :=
  issue .cdDisplayFrame s

/-- CD.CLEAR_BW_FRAME (rule R114): fills the black/white plane with one color. -/
def execCdClearBwFrame (color : Byte) (s : State) : Host.Outcome State Fault Refusal :=
  issue (.cdClearBwFrame color) s

/-- CD.CLEAR_RED_FRAME (rule R115): fills the red plane with the inverse of white. -/
def execCdClearRedFrame (s : State) : Host.Outcome State Fault Refusal :=
  issue .cdClearRedFrame s

/-- CD.SET_RAM_AREA (rule R106): programs the RAM window; a badly ordered window is fatal. -/
def execCdSetRamArea (startX startY endX endY : Coord) (s : State) : Host.Outcome State Fault Refusal :=
  issue (.cdSetRamArea startX startY endX endY) s

/-- CD.SET_RAM_COUNTER (rule R107): programs the RAM write cursor. -/
def execCdSetRamCounter (x y : Coord) (s : State) : Host.Outcome State Fault Refusal :=
  issue (.cdSetRamCounter x y) s

/-- CD.USE_FULL_FRAME (rule R108): the whole panel as the window, the cursor at the origin. -/
def execCdUseFullFrame (s : State) : Host.Outcome State Fault Refusal :=
  issue .cdUseFullFrame s

end Sys2Proof.Machine
end

