-- ==== Sys2Proof/Machine/DisplayInterface.lean ====
section
/-! DEFINITION. The meanings of tier DI, the display interface (41_display_interface.md). What each does is its
sequence in Machine/Plans.lean, performed as Machine/Run.lean says. -/

namespace Sys2Proof.Machine

/-- DI.RESET (rule R86): the hardware reset pulse of the controller. -/
def execDiReset (s : State) : Host.Outcome State Fault Refusal :=
  issue .diReset s

/-- DI.WAIT_IDLE (rule R87): polls `BUSY` until it does not read high. -/
def execDiWaitIdle (s : State) : Host.Outcome State Fault Refusal :=
  issue .diWaitIdle s

/-- DI.CMD (rule R88): one command frame; `DC` is restored whether or not the write failed. -/
def execDiCmd (opcode : Byte) (s : State) : Host.Outcome State Fault Refusal :=
  issue (.diCmd opcode) s

/-- DI.DATA (rule R89): a byte sequence as data, in chunks. -/
def execDiData (bytes : List Byte) (s : State) : Host.Outcome State Fault Refusal :=
  issue (.diData bytes) s

/-- DI.CMD_WITH_DATA (rule R90): a command frame, then its payload as data, fail-fast. -/
def execDiCmdWithData (opcode : Byte) (bytes : List Byte) (s : State) : Host.Outcome State Fault Refusal :=
  issue (.diCmdWithData opcode bytes) s

/-- DI.DATA_X_TIMES (rule R91): the same data byte `count` times, each a write of its own. -/
def execDiDataXTimes (value : Byte) (count : Len) (s : State) : Host.Outcome State Fault Refusal :=
  issue (.diDataXTimes value count) s

end Sys2Proof.Machine
end

