-- ==== Sys2Proof/Machine/SerialBus.lean ====
section
/-! DEFINITION. The meanings of tier SB, the bit-banged serial bus (40_serial_bus.md). What each does is its
sequence in Machine/Plans.lean, performed as Machine/Run.lean says. -/

namespace Sys2Proof.Machine

/-- SB.WRITE (rule R70): sends a byte list on the three bus pins. -/
def execSbWrite (bytes : List Byte) (s : State) : Host.Outcome State Fault Refusal :=
  issue (.sbWrite bytes) s

/-- SB.FLUSH (rule R71): does nothing and ends with `ok`. -/
def execSbFlush (s : State) : Host.Outcome State Fault Refusal :=
  issue .sbFlush s

/-- SB.READ (rule R72): `fatal(Unsupported)`, whatever the length; no pin is driven. -/
def execSbRead (len : Len) (s : State) : Host.Outcome State Fault Refusal :=
  issue (.sbRead len) s

/-- SB.TRANSFER (rule R73): `fatal(Unsupported)`; the write half is not performed. -/
def execSbTransfer (bytes : List Byte) (s : State) : Host.Outcome State Fault Refusal :=
  issue (.sbTransfer bytes) s

/-- SB.TRANSFER_IN_PLACE (rule R74): `fatal(Unsupported)`. -/
def execSbTransferInPlace (bytes : List Byte) (s : State) : Host.Outcome State Fault Refusal :=
  issue (.sbTransferInPlace bytes) s

end Sys2Proof.Machine
end

