-- ==== Sys2Proof/Machine/WireCommands.lean ====
section
/-! DEFINITION. The meanings of the thirteen controller commands on the wire (30_encoding.md rule R55). What each does is its
sequence in Machine/Plans.lean, performed as Machine/Run.lean says. -/

namespace Sys2Proof.Machine

/-- `C_SW_RESET`: the software-reset command frame. -/
def execWireSwReset (s : State) : Host.Outcome State Fault Refusal :=
  issue .wireSwReset s

/-- `C_UPDATE_CONTROL_1` with the payload `P_UC1`. -/
def execWireUpdateControl1 (s : State) : Host.Outcome State Fault Refusal :=
  issue .wireUpdateControl1 s

/-- `C_BORDER_WAVEFORM` with the two border flags. -/
def execWireBorderWaveform (s : State) : Host.Outcome State Fault Refusal :=
  issue .wireBorderWaveform s

/-- `C_DATA_ENTRY_MODE` with the two direction flags. -/
def execWireDataEntryMode (s : State) : Host.Outcome State Fault Refusal :=
  issue .wireDataEntryMode s

/-- `C_SET_RAM_X_WINDOW` with its two bytes (rule R57). -/
def execWireSetRamXWindow (startX endX : Byte) (s : State) : Host.Outcome State Fault Refusal :=
  issue (.wireSetRamXWindow startX endX) s

/-- `C_SET_RAM_Y_WINDOW` with its two 16-bit values (rule R58). -/
def execWireSetRamYWindow (startY endY : Coord) (s : State) : Host.Outcome State Fault Refusal :=
  issue (.wireSetRamYWindow startY endY) s

/-- `C_SET_RAM_X_COUNTER` with its byte (rule R59). -/
def execWireSetRamXCounter (x : Byte) (s : State) : Host.Outcome State Fault Refusal :=
  issue (.wireSetRamXCounter x) s

/-- `C_SET_RAM_Y_COUNTER` with its 16-bit value (rule R59). -/
def execWireSetRamYCounter (y : Coord) (s : State) : Host.Outcome State Fault Refusal :=
  issue (.wireSetRamYCounter y) s

/-- `C_TEMP_SENSOR` with the internal-sensor flag. -/
def execWireTempSensor (s : State) : Host.Outcome State Fault Refusal :=
  issue .wireTempSensor s

/-- `C_WRITE_RAM_BW` with the plane bytes. -/
def execWireWriteRamBw (bytes : List Byte) (s : State) : Host.Outcome State Fault Refusal :=
  issue (.wireWriteRamBw bytes) s

/-- `C_WRITE_RAM_RED` with the plane bytes. -/
def execWireWriteRamRed (bytes : List Byte) (s : State) : Host.Outcome State Fault Refusal :=
  issue (.wireWriteRamRed bytes) s

/-- `C_UPDATE_CONTROL_2` with the full-refresh flag. -/
def execWireUpdateControl2 (s : State) : Host.Outcome State Fault Refusal :=
  issue .wireUpdateControl2 s

/-- `C_MASTER_ACTIVATE`: the command frame that starts the refresh. -/
def execWireMasterActivate (s : State) : Host.Outcome State Fault Refusal :=
  issue .wireMasterActivate s

end Sys2Proof.Machine
end

