-- ==== Sys2Proof/Machine/Dispatch.lean ====
section
/-! DEFINITION. The dispatch: one arm per constructor of Instr. -/

namespace Sys2Proof.Machine

def exec (i : Instr) (s : State) : Host.Outcome State Fault Refusal :=
  match i with
  | .sbWrite bytes => Sys2Proof.Machine.execSbWrite bytes s
  | .sbFlush => Sys2Proof.Machine.execSbFlush s
  | .sbRead len => Sys2Proof.Machine.execSbRead len s
  | .sbTransfer bytes => Sys2Proof.Machine.execSbTransfer bytes s
  | .sbTransferInPlace bytes => Sys2Proof.Machine.execSbTransferInPlace bytes s
  | .diReset => Sys2Proof.Machine.execDiReset s
  | .diWaitIdle => Sys2Proof.Machine.execDiWaitIdle s
  | .diCmd opcode => Sys2Proof.Machine.execDiCmd opcode s
  | .diData bytes => Sys2Proof.Machine.execDiData bytes s
  | .diCmdWithData opcode bytes => Sys2Proof.Machine.execDiCmdWithData opcode bytes s
  | .diDataXTimes value count => Sys2Proof.Machine.execDiDataXTimes value count s
  | .cdNew => Sys2Proof.Machine.execCdNew s
  | .cdInit => Sys2Proof.Machine.execCdInit s
  | .cdUpdateBwFrame buffer => Sys2Proof.Machine.execCdUpdateBwFrame buffer s
  | .cdUpdateRedFrame buffer => Sys2Proof.Machine.execCdUpdateRedFrame buffer s
  | .cdDisplayFrame => Sys2Proof.Machine.execCdDisplayFrame s
  | .cdClearBwFrame color => Sys2Proof.Machine.execCdClearBwFrame color s
  | .cdClearRedFrame => Sys2Proof.Machine.execCdClearRedFrame s
  | .cdSetRamArea startX startY endX endY => Sys2Proof.Machine.execCdSetRamArea startX startY endX endY s
  | .cdSetRamCounter x y => Sys2Proof.Machine.execCdSetRamCounter x y s
  | .cdUseFullFrame => Sys2Proof.Machine.execCdUseFullFrame s
  | .wireSwReset => Sys2Proof.Machine.execWireSwReset s
  | .wireUpdateControl1 => Sys2Proof.Machine.execWireUpdateControl1 s
  | .wireBorderWaveform => Sys2Proof.Machine.execWireBorderWaveform s
  | .wireDataEntryMode => Sys2Proof.Machine.execWireDataEntryMode s
  | .wireSetRamXWindow startX endX => Sys2Proof.Machine.execWireSetRamXWindow startX endX s
  | .wireSetRamYWindow startY endY => Sys2Proof.Machine.execWireSetRamYWindow startY endY s
  | .wireSetRamXCounter x => Sys2Proof.Machine.execWireSetRamXCounter x s
  | .wireSetRamYCounter y => Sys2Proof.Machine.execWireSetRamYCounter y s
  | .wireTempSensor => Sys2Proof.Machine.execWireTempSensor s
  | .wireWriteRamBw bytes => Sys2Proof.Machine.execWireWriteRamBw bytes s
  | .wireWriteRamRed bytes => Sys2Proof.Machine.execWireWriteRamRed bytes s
  | .wireUpdateControl2 => Sys2Proof.Machine.execWireUpdateControl2 s
  | .wireMasterActivate => Sys2Proof.Machine.execWireMasterActivate s

end Sys2Proof.Machine
end

