-- ==== Sys2Proof/Machine/Step.lean ====
section
/-! DEFINITION. One step of the machine: an operation in progress goes on; otherwise the next line of
the host's program is decoded and performed, or the program stops there (30_encoding.md rule R66);
without a line the block waits (70_reset_and_hazards.md rule R155). How a program comes to run from
reset: log entry 10. -/

namespace Sys2Proof.Machine

/-- One step. A halted block performs none (60_exceptions.md rule R139). -/
def step (s : State) : Host.Outcome State Fault Refusal :=
  match s.fault, s.pc, s.port with
  | some f, _, _ => .fault (.halted f)
  | none, .running i _ n r, _ => .next (resume i n r s)
  | none, .idle, [] => .next s
  | none, .idle, l :: rest =>
    if lineStops s.result l then .next { s with port := [] }
    else
      match decodeRequest s.cfg l.request with
      | .error e => .refused (.undecodable e)
      | .ok i => exec i { s with port := rest }

/-- The state with the descriptor of a table word as the host's only line. -/
def State.withFetchWord (s : State) (nbits w : Nat) : State :=
  { s with port := [⟨.descriptor (descriptorAt (tableBytes nbits w)), true⟩] }

end Sys2Proof.Machine
end

