-- ==== Sys2Proof/Machine/Trace.lean ====
section
/-! DEFINITION. What an observer of the trace has: the events of the spec's abbreviations W, C and Dt
(00_scope.md section 6), the waveform and its edges (10_state.md rule R20), and the receiver's side:
`wire(trace)` (30_encoding.md rule R68) and the command frames in it. -/

namespace Sys2Proof.Machine

/-! ### Events of the wire formats, written from their rules -/

/-- The three drives of a bit cell (30_encoding.md rule R50). -/
def bitEvents (b : Bool) : List Event :=
  [.drive .sclk .L, .drive .mosi (bitLevel b), .drive .sclk .H]

/-- The drives of a byte frame, bit 7 first (rule R51). -/
def byteEvents (v : Byte) : List Event := (bitsOf v).flatMap fun kb => bitEvents kb.2

/-- `W(s)`: the drives of SB.WRITE (rule R52, 40_serial_bus.md rule R70). -/
def writeEvents (c : Config) (bytes : List Byte) : List Event :=
  .drive .cs c.csActive :: (bytes.flatMap byteEvents ++ [.drive .cs c.csInactive])

/-- The events of one bus call that succeeds (40_serial_bus.md rule R78): `W(s)` with the bit-banged
bus, `B(write, s, ok)` with the external one. -/
def callEvents (c : Config) (bytes : List Byte) : List Event :=
  match c.busKind with
  | .bitbang => writeEvents c bytes
  | .external => [.bus bytes .ok]

/-- The events of a logical write, one bus call a chunk (rule R54, 41_display_interface.md rule R85). -/
def chunkEvents (c : Config) (bytes : List Byte) : List Event :=
  (chunks c bytes).flatMap fun oc => callEvents c oc.2

/-- `C(c)`: the events of DI.CMD without its `Ret`. -/
def cmdEvents (c : Config) (opcode : Byte) : List Event :=
  .drive .dc c.dcCommand :: (callEvents c [opcode] ++ [.drive .dc c.dcData])

/-- `Dt(s)`: the events of DI.DATA without its `Ret`. -/
def dataEvents (c : Config) (bytes : List Byte) : List Event :=
  .drive .dc c.dcData :: chunkEvents c bytes

/-- The events of DI.CMD_WITH_DATA without its `Ret` (41_display_interface.md rule R90). -/
def cmdDataEvents (c : Config) (opcode : Byte) (bytes : List Byte) : List Event :=
  cmdEvents c opcode ++ dataEvents c bytes

/-- The events of DI.DATA_X_TIMES without its `Ret` (rule R91). -/
def fillEvents (c : Config) (value : Byte) (count : Nat) : List Event :=
  .drive .dc c.dcData :: (List.replicate count (callEvents c [value])).flatten

/-- The events of DI.RESET without its `Ret` (rule R86). -/
def resetEvents : List Event := [.drive .rst .L, .delay 10, .drive .rst .H, .delay 10]

/-- The events of DI.WAIT_IDLE without its `Ret`, when `k` samples read high and then one reads `r`
(rule R87). -/
def waitEvents (k : Nat) (r : Sample) : List Event :=
  List.replicate k (.sample .high) ++ [.sample r]

/-- The events of CD.SET_RAM_AREA without its `Ret`, for a well ordered window
(42_controller_sequences.md rule R106). -/
def areaEvents (c : Config) (startX startY endX endY : Coord) : List Event :=
  cmdDataEvents c c.codes.setRamXWindow [xByte startX, xByte endX] ++
    cmdDataEvents c c.codes.setRamYWindow (halfBytes startY ++ halfBytes endY)

/-- The events of CD.SET_RAM_COUNTER without its `Ret` (rule R107). -/
def counterEvents (c : Config) (x y : Coord) : List Event :=
  cmdDataEvents c c.codes.setRamXCounter [xByte x] ++
    cmdDataEvents c c.codes.setRamYCounter (halfBytes y)

/-- The events of CD.USE_FULL_FRAME without its `Ret` (rule R108). -/
def fullFrameEvents (c : Config) : List Event :=
  areaEvents c 0 0 (BitVec.ofNat 16 (c.width - 1)) (BitVec.ofNat 16 (c.height - 1)) ++
    counterEvents c 0 0

/-- The events of CD.INIT without its `Ret`, when its two waits read `k1` and `k2` times high and then
`r1` and `r2` (rule R110). -/
def initEvents (c : Config) (k1 : Nat) (r1 : Sample) (k2 : Nat) (r2 : Sample) : List Event :=
  resetEvents ++ cmdEvents c c.codes.swReset ++ waitEvents k1 r1 ++ [.delay 10] ++
    cmdDataEvents c c.codes.updateControl1 c.updateControl1 ++
    cmdDataEvents c c.codes.borderWaveform [c.flags.borderFollowLut ||| c.flags.borderLut1] ++
    cmdDataEvents c c.codes.dataEntryMode [c.flags.incY ||| c.flags.incX] ++
    fullFrameEvents c ++
    cmdDataEvents c c.codes.tempSensor [c.flags.internalTempSensor] ++ waitEvents k2 r2

/-- The events of CD.DISPLAY_FRAME without its `Ret`, when its wait reads `k` times high and then `r`
(rule R113). -/
def displayEvents (c : Config) (k : Nat) (r : Sample) : List Event :=
  cmdDataEvents c c.codes.updateControl2 [c.flags.fullRefresh] ++
    cmdEvents c c.codes.masterActivate ++ waitEvents k r

/-- The events of an upload to the plane whose write command is `code`, without the `Ret` (rule R111,
rule R112). -/
def uploadEvents (c : Config) (code : Byte) (buffer : List Byte) : List Event :=
  fullFrameEvents c ++ cmdDataEvents c code buffer

/-- The events of a clear of the plane whose write command is `code`, without the `Ret` (rule R114,
rule R115). -/
def clearEvents (c : Config) (code value : Byte) : List Event :=
  fullFrameEvents c ++ cmdEvents c code ++ fillEvents c value (c.width * c.height / 8)

/-- The events of an instruction that the environment lets come to its end, without the `Ret`; its first
wait reads `w.1.1` times high and then `w.1.2`, its second `w.2.1` times high and then `w.2.2`. None
where the instruction halts the block: an unsupported operation, a badly ordered window. -/
def wholeEvents (c : Config) (w : (Nat × Sample) × (Nat × Sample)) : Instr → List Event
  | .sbWrite bytes => writeEvents c bytes
  | .sbFlush => []
  | .sbRead _ => []
  | .sbTransfer _ => []
  | .sbTransferInPlace _ => []
  | .diReset => resetEvents
  | .diWaitIdle => waitEvents w.1.1 w.1.2
  | .diCmd opcode => cmdEvents c opcode
  | .diData bytes => dataEvents c bytes
  | .diCmdWithData opcode bytes => cmdDataEvents c opcode bytes
  | .diDataXTimes value count => fillEvents c value count.toNat
  | .cdNew => initEvents c w.1.1 w.1.2 w.2.1 w.2.2
  | .cdInit => initEvents c w.1.1 w.1.2 w.2.1 w.2.2
  | .cdUpdateBwFrame buffer => uploadEvents c c.codes.writeRamBw buffer
  | .cdUpdateRedFrame buffer => uploadEvents c c.codes.writeRamRed buffer
  | .cdDisplayFrame => displayEvents c w.1.1 w.1.2
  | .cdClearBwFrame color => clearEvents c c.codes.writeRamBw (fillByte color)
  | .cdClearRedFrame => clearEvents c c.codes.writeRamRed redFillByte
  | .cdSetRamArea sx sy ex ey =>
    if sx.toNat < ex.toNat ∧ sy.toNat < ey.toNat then areaEvents c sx sy ex ey else []
  | .cdSetRamCounter x y => counterEvents c x y
  | .cdUseFullFrame => fullFrameEvents c
  | .wireSwReset => cmdEvents c c.codes.swReset
  | .wireUpdateControl1 => cmdDataEvents c c.codes.updateControl1 c.updateControl1
  | .wireBorderWaveform => cmdDataEvents c c.codes.borderWaveform [borderPayload c]
  | .wireDataEntryMode => cmdDataEvents c c.codes.dataEntryMode [dataEntryPayload c]
  | .wireSetRamXWindow s e => cmdDataEvents c c.codes.setRamXWindow [s, e]
  | .wireSetRamYWindow s e => cmdDataEvents c c.codes.setRamYWindow (yWindowPayload s e)
  | .wireSetRamXCounter x => cmdDataEvents c c.codes.setRamXCounter [x]
  | .wireSetRamYCounter y => cmdDataEvents c c.codes.setRamYCounter (yCounterPayload y)
  | .wireTempSensor => cmdDataEvents c c.codes.tempSensor [c.flags.internalTempSensor]
  | .wireWriteRamBw bytes => cmdDataEvents c c.codes.writeRamBw bytes
  | .wireWriteRamRed bytes => cmdDataEvents c c.codes.writeRamRed bytes
  | .wireUpdateControl2 => cmdDataEvents c c.codes.updateControl2 [c.flags.fullRefresh]
  | .wireMasterActivate => cmdEvents c c.codes.masterActivate

/-! ### The operations inside an operation -/

/-- The events of a command frame before the one with which the first operation in it ends: with the
bit-banged bus SB.WRITE ends with the release of chip-select, after `DC`, chip-select and eight bit
cells; with the external one DI.CMD ends with its restore of `DC`, after `DC` and the call. -/
def firstEndCmd (c : Config) : Nat :=
  match c.busKind with
  | .bitbang => 26
  | .external => 2

/-- The events of DI.DATA before the one with which the first operation in it, or itself, ends. -/
def firstEndData (c : Config) (bytes : List Byte) : Nat :=
  match c.busKind with
  | .bitbang =>
    match chunks c bytes with
    | [] => 0
    | oc :: _ => 24 * oc.2.length + 2
  | .external => (chunks c bytes).length

/-- The events of DI.DATA_X_TIMES before the one with which the first operation in it, or itself, ends. -/
def firstEndFill (c : Config) (count : Nat) : Nat :=
  match c.busKind with
  | .bitbang => if count = 0 then 0 else 26
  | .external => count

/-- The events of an instruction before the one with which the first operation that ends in it, one
inside it or itself, ends. From there on `result` is `ok`, as long as no bus call fails: "it is written
when an operation ends" (10_state.md rule R15). No wait stands before it but that of DI.WAIT_IDLE. -/
def firstEnd (c : Config) : Instr → Nat
  | .sbWrite bytes => 24 * bytes.length + 1
  | .sbFlush => 0
  | .sbRead _ => 0
  | .sbTransfer _ => 0
  | .sbTransferInPlace _ => 0
  | .diReset => 3
  | .diWaitIdle => 0
  | .diCmd _ => firstEndCmd c
  | .diData bytes => firstEndData c bytes
  | .diCmdWithData _ _ => firstEndCmd c
  | .diDataXTimes _ count => firstEndFill c count.toNat
  | .cdNew => 3
  | .cdInit => 3
  | .cdUpdateBwFrame _ => firstEndCmd c
  | .cdUpdateRedFrame _ => firstEndCmd c
  | .cdDisplayFrame => firstEndCmd c
  | .cdClearBwFrame _ => firstEndCmd c
  | .cdClearRedFrame => firstEndCmd c
  | .cdSetRamArea _ _ _ _ => firstEndCmd c
  | .cdSetRamCounter _ _ => firstEndCmd c
  | .cdUseFullFrame => firstEndCmd c
  | .wireSwReset => firstEndCmd c
  | .wireUpdateControl1 => firstEndCmd c
  | .wireBorderWaveform => firstEndCmd c
  | .wireDataEntryMode => firstEndCmd c
  | .wireSetRamXWindow _ _ => firstEndCmd c
  | .wireSetRamYWindow _ _ => firstEndCmd c
  | .wireSetRamXCounter _ => firstEndCmd c
  | .wireSetRamYCounter _ => firstEndCmd c
  | .wireTempSensor => firstEndCmd c
  | .wireWriteRamBw _ => firstEndCmd c
  | .wireWriteRamRed _ => firstEndCmd c
  | .wireUpdateControl2 => firstEndCmd c
  | .wireMasterActivate => firstEndCmd c

/-- `result` after `n` events of an instruction that were no error, when it was `o` before them. -/
def resultAfter (c : Config) (i : Instr) (n : Nat) (o : Option OpOutcome) : Option OpOutcome :=
  if firstEnd c i < n then some .ok else o

/-! ### The waveform -/

/-- The latches after an event (10_state.md rule R20): a drive sets its pin, nothing else does. -/
def applyEvent (ps : Pins) : Event → Pins
  | .drive p v => setPin ps p v
  | .sample _ => ps
  | .delay _ => ps
  | .bus _ _ => ps
  | .ret _ _ => ps
  | .halt _ => ps

/-- The latches after a list of events. -/
def replay (ps : Pins) (evs : List Event) : Pins := evs.foldl applyEvent ps

/-- The waveform of a pin: "the sequence of levels p takes" (rule R20), from its level at first on. An
event that leaves the level as it is adds none: a drive that does not change the level is in the trace,
and "The waveform ... forgets it" (92_eei_decisions.md D34). -/
def waveform (p : Pin) : Pins → List Event → List Latch
  | ps, [] => [getPin ps p]
  | ps, ev :: evs =>
    if getPin (applyEvent ps ev) p = getPin ps p then waveform p (applyEvent ps ev) evs
    else getPin ps p :: waveform p (applyEvent ps ev) evs

/-- Whether an event is an edge of pin `p` to level `v` that is known to be one: a drive to `v` from
the other level. From `X` it is not known (rule R20). -/
def isEdge (p : Pin) (v : Level) (ps : Pins) (ev : Event) : Bool :=
  ev = .drive p v && getPin ps p = v.not.latch

/-- The number of known edges of pin `p` to level `v`. -/
def edgeCount (p : Pin) (v : Level) : Pins → List Event → Nat
  | _, [] => 0
  | ps, ev :: evs => (isEdge p v ps ev).toNat + edgeCount p v (applyEvent ps ev) evs

/-- The number of drive events in a list. -/
def driveCount (evs : List Event) : Nat :=
  evs.countP fun ev => match ev with
    | .drive _ _ => true
    | _ => false

/-- Whether an event is a sample of `BUSY`. -/
def isSample : Event → Bool
  | .sample _ => true
  | _ => false

/-- Whether an event is a drive of pin `p`. -/
def isDriveOf (p : Pin) : Event → Bool
  | .drive q _ => p = q
  | _ => false

/-- The milliseconds that have passed at least: `T(n)` is read as "at least n milliseconds passed", with
no upper bound (60_exceptions.md rule R143). -/
def minElapsed : List Event → Nat
  | [] => 0
  | .delay ms :: evs => ms + minElapsed evs
  | .drive _ _ :: evs => minElapsed evs
  | .sample _ :: evs => minElapsed evs
  | .bus _ _ :: evs => minElapsed evs
  | .ret _ _ :: evs => minElapsed evs
  | .halt _ :: evs => minElapsed evs

/-! ### The receiver's side -/

/-- The tag of a received byte: the select line at its last bit (30_encoding.md rule R68). -/
inductive Tag where
  | cmd
  | data
  | unknown
  deriving DecidableEq, Repr

/-- The tag for a level of the select line. -/
def tagOf (c : Config) (dc : Latch) : Tag :=
  if dc = c.dcCommand.latch then .cmd else if dc = c.dcData.latch then .data else .unknown

/-- The byte whose bits were taken in this order, bit 7 first. -/
def byteOfBits (bits : List Bool) : Byte :=
  BitVec.ofNat 8 (bits.foldl (fun n b => 2 * n + b.toNat) 0)

/-- A receiver: the levels it sees, the bits taken since the last whole byte of this chip-select
window, and the bytes received. -/
structure Rx where
  pins : Pins
  bits : List Bool
  out  : List (Tag × Byte)
  deriving DecidableEq, Repr

/-- A receiver takes the level of `MOSI` as a bit; the eighth bit completes a byte. -/
def Rx.take (c : Config) (x : Rx) : Rx :=
  let bits := x.bits ++ [decide (x.pins.mosi = .H)]
  if bits.length = 8 then
    { x with bits := [], out := x.out ++ [(tagOf c x.pins.dc, byteOfBits bits)] }
  else { x with bits := bits }

/-- A receiver at one event (rule R68): at a rising edge of `SCLK` while selected it takes a bit; at
the release of `CS` it drops the bits of an incomplete byte. -/
def Rx.event (c : Config) (x : Rx) (ev : Event) : Rx :=
  let y : Rx := { x with pins := applyEvent x.pins ev }
  if isEdge .sclk .H x.pins ev && x.pins.cs = c.csActive.latch then Rx.take c y
  else if ev = .drive .cs c.csInactive then { y with bits := [] }
  else y

/-- What a receiver that starts at the levels `ps` receives from a list of events. -/
def wireFrom (c : Config) (ps : Pins) (evs : List Event) : List (Tag × Byte) :=
  (evs.foldl (Rx.event c) ⟨ps, [], []⟩).out

/-- `wire(trace)` (rule R68): what the controller has received since reset. -/
def wire (s : State) : List (Tag × Byte) := wireFrom s.cfg s.cfg.init s.trace

/-- The command frames in received bytes: each command byte with the data bytes up to the next one
(rule R53). Bytes before the first command byte belong to none. -/
def framesOf : List (Tag × Byte) → List Frame
  | [] => []
  | (.cmd, v) :: rest => ⟨v, (rest.takeWhile (·.1 = .data)).map (·.2)⟩ :: framesOf rest
  | (.data, _) :: rest => framesOf rest
  | (.unknown, _) :: rest => framesOf rest

end Sys2Proof.Machine
end

