-- ==== Sys2Proof/Safety.lean ====
section
/-! DEFINITION. The terms claims use: a state a claim may speak of, the state an operation that ends
leaves, and the invariants of the machine. -/

namespace Sys2Proof.Machine

/-- The block can take an operation: not halted (60_exceptions.md rule R139: "every claim takes
`fault = none` as a premise") and idle. -/
structure State.Ready (s : State) : Prop where
  notHalted : s.fault = none
  idle      : s.pc = .idle

/-- A claim about the controller's registers takes this as a premise (10_state.md rule R17). -/
abbrev State.ControllerKnown (s : State) : Prop := s.ctrlUnspecified = false

/-- What the block asks of its host and does not check, or checks only by halting
(70_reset_and_hazards.md rule R164, rule R165): an uploaded buffer has exactly the full-frame byte
count, and a window is strictly ordered. -/
def RespectsHazards (c : Config) : Instr → Prop
  | .cdUpdateBwFrame buffer => buffer.length = fillCount c
  | .cdUpdateRedFrame buffer => buffer.length = fillCount c
  | .cdSetRamArea sx sy ex ey => sx.toNat < ex.toNat ∧ sy.toNat < ey.toNat
  | .sbWrite _ => True
  | .sbFlush => True
  | .sbRead _ => True
  | .sbTransfer _ => True
  | .sbTransferInPlace _ => True
  | .diReset => True
  | .diWaitIdle => True
  | .diCmd _ => True
  | .diData _ => True
  | .diCmdWithData _ _ => True
  | .diDataXTimes _ _ => True
  | .cdNew => True
  | .cdInit => True
  | .cdDisplayFrame => True
  | .cdClearBwFrame _ => True
  | .cdClearRedFrame => True
  | .cdSetRamCounter _ _ => True
  | .cdUseFullFrame => True
  | .wireSwReset => True
  | .wireUpdateControl1 => True
  | .wireBorderWaveform => True
  | .wireDataEntryMode => True
  | .wireSetRamXWindow _ _ => True
  | .wireSetRamYWindow _ _ => True
  | .wireSetRamXCounter _ => True
  | .wireSetRamYCounter _ => True
  | .wireTempSensor => True
  | .wireWriteRamBw _ => True
  | .wireWriteRamRed _ => True
  | .wireUpdateControl2 => True
  | .wireMasterActivate => True

/-- The state after events that are no returns and no halts: the latches follow the drives
(10_state.md rule R20), the trace has the events at its end, nothing else differs. -/
def State.emit (s : State) (evs : List Event) : State :=
  { s with pins := replay s.pins evs, trace := s.trace ++ evs }

/-- The state an operation leaves that produced the events `evs` and ended with `o`, as an operation
that the gate of rule R105 does not apply to: `result`, the `Ret` event, nothing in progress. -/
def State.completed (s : State) (op : OpName) (evs : List Event) (o : OpOutcome) : State :=
  { s with
    pins   := replay s.pins evs
    trace  := s.trace ++ evs ++ [.ret op o]
    pc     := .idle
    result := some o }

/-- The samples in a list of events, in order. -/
def samplesOf : List Event → List Sample
  | [] => []
  | .sample r :: evs => r :: samplesOf evs
  | .drive _ _ :: evs => samplesOf evs
  | .delay _ :: evs => samplesOf evs
  | .bus _ _ :: evs => samplesOf evs
  | .ret _ _ :: evs => samplesOf evs
  | .halt _ :: evs => samplesOf evs

/-- The number of bus calls in a list of events. -/
def busCount (evs : List Event) : Nat :=
  evs.countP fun ev => match ev with
    | .bus _ _ => true
    | _ => false

/-- The number of delays in a list of events. -/
def delayCount (evs : List Event) : Nat :=
  evs.countP fun ev => match ev with
    | .delay _ => true
    | _ => false

/-- The environment lets the events `evs` happen and is then `e'`: no drive fails (asked only when
`PIN_FAIL = true`), every bus call is answered `ok`, every delay returns, and the busy input answers
the samples of `evs`. This is the premise of a claim that an operation ends (60_exceptions.md rule
R148). Where `evs` has only drives and `PIN_FAIL = false`, `e' = e` and nothing is asked. -/
structure Grants (c : Config) (evs : List Event) (e e' : Env) : Prop where
  pin   : e.pin = (if c.pinFail then List.replicate (driveCount evs) false else []) ++ e'.pin
  bus   : e.bus = List.replicate (busCount evs) .ok ++ e'.bus
  delay : e.delay = List.replicate (delayCount evs) true ++ e'.delay
  busy  : e.busy = samplesOf evs ++ e'.busy
  drawn : e'.drawn = e.drawn

/-- The number of samples in a list of events that read high: so often the environment holds an operation
that waits, and so many steps more it takes. -/
def highCount (evs : List Event) : Nat := (samplesOf evs).count .high

/-- The event an action that was done produced. -/
def doneEvent : Act → Event → Prop
  | .drive p v, ev => ev = .drive p v
  | .restore v, ev => ev = .drive .dc v
  | .sample, ev => ev = .sample .low ∨ ev = .sample .fail
  | .delay ms, ev => ev = .delay ms
  | .bus bytes, ev => ev = .bus bytes .ok
  | .raise _, _ => False

/-- The events a part of a sequence produces when each of its actions is done: one an action, and before
that of a sample any number of samples that read high (41_display_interface.md rule R87). -/
inductive Polled : List Entry → List Event → Prop where
  | nil : Polled [] []
  | done {e : Entry} {es : List Entry} {ev : Event} {evs : List Event} (h : doneEvent e.act ev)
      (t : Polled es evs) : Polled (e :: es) (ev :: evs)
  | poll {e : Entry} {es : List Entry} {evs : List Event} (h : e.act = .sample)
      (t : Polled (e :: es) evs) : Polled (e :: es) (.sample .high :: evs)

/-- Whether an event is the end of an operation. -/
def isRet : Event → Bool
  | .ret _ _ => true
  | .drive _ _ => false
  | .sample _ => false
  | .delay _ => false
  | .bus _ _ => false
  | .halt _ => false

/-- The part of a trace up to the last operation that ended. -/
def opStart (evs : List Event) : List Event := (evs.reverse.dropWhile fun ev => !isRet ev).reverse

/-- The part of a trace after the last operation that ended: the events so far of the operation in
progress. -/
def opEvents (evs : List Event) : List Event := (evs.reverse.takeWhile fun ev => !isRet ev).reverse

/-- The outcome in the last `Ret` of a trace. -/
def lastRet : List Event → Option OpOutcome → Option OpOutcome
  | [], o => o
  | .ret _ o :: evs, _ => lastRet evs (some o)
  | .drive _ _ :: evs, o => lastRet evs o
  | .sample _ :: evs, o => lastRet evs o
  | .delay _ :: evs, o => lastRet evs o
  | .bus _ _ :: evs, o => lastRet evs o
  | .halt _ :: evs, o => lastRet evs o

/-- The fault a trace shows: that of a `Halt` at its very end. -/
def lastHalt (evs : List Event) : Option Fatal :=
  match evs.getLast? with
  | some (.halt f) => some f
  | _ => none

/-- `seq` fits the sequencing position (42_controller_sequences.md rule R105): between operations it
is `Uninitialized` or `Idle`; during one it is what issuing that operation made it. -/
def seqFits (q : Seq) : Pc → Prop
  | .idle => q = .uninitialized ∨ q = .idle
  | .running i _ _ _ =>
    match seqClass (opName i) with
    | .new => q = .initializing
    | .init => q = .initializing
    | .frame => q = .busy (opName i)
    | .ungated => q = .uninitialized ∨ q = .idle

/-- The sequencing position is a place of its operation's fixed sequence, with the working values of
that place (10_state.md rule R13, rule R14). -/
def pcFits (c : Config) : Pc → Prop
  | .idle => True
  | .running i pos n r =>
    i.wf = true ∧ ∃ a ends, (planOf c i)[n]? = some ⟨pos, a, ends⟩ ∧ skipped r a = false

/-- The events since the last operation ended fit the sequencing position of a block that is not halted:
none while it is idle; those of the actions before the one that comes next, and any number of samples
that read high where that one is a sample; and, where DI.CMD has still to restore `DC`, the failed call
just before it. -/
def progressFits (c : Config) (evs : List Event) : Pc → Prop
  | .idle => evs = []
  | .running i _ n none => ∃ before k, evs = before ++ List.replicate k (Event.sample .high) ∧
      Polled ((planOf c i).take n) before ∧
      (k ≠ 0 → ∃ x, (planOf c i)[n]? = some x ∧ x.act = .sample)
  | .running i _ n (some err) => ∃ before m x bytes, n = m + 1 ∧ (planOf c i)[m]? = some x ∧
      x.act = .bus bytes ∧ evs = before ++ [Event.bus bytes (.err err)] ∧
      Polled ((planOf c i).take m) before

/-- `result` at a sequencing position, when the last operation that the host issued and that ended did so
with `o`: that outcome, until an operation inside the one in progress has ended (10_state.md rule R15).
The actions before the position were done, or the last of them was a bus call that failed, which ends no
operation before `DC` is restored. -/
def resultAt (c : Config) (o : Option OpOutcome) : Pc → Option OpOutcome
  | .idle => o
  | .running i _ n _ => resultAfter c i n o

/-- The invariant of the machine: the latches are what the trace drove them to (rule R20), `result`
is the outcome of the operation that ended last, be it inside the one in progress (rule R15),
`fault` is set exactly when the trace ends in `Halt` (rule R139), a halted block stands inside an
operation, `seq` and the sequencing position fit, and so do the events of the operation in progress. -/
structure State.Inv (s : State) : Prop where
  pinsFollowTrace : s.pins = replay s.cfg.init s.trace
  resultOk        : s.result = resultAt s.cfg (lastRet s.trace none) s.pc
  faultIsLastHalt : s.fault = lastHalt s.trace
  haltedInside    : s.fault ≠ none → s.pc ≠ .idle
  seqOk           : seqFits s.seq s.pc
  pcOk            : pcFits s.cfg s.pc
  progressOk      : s.fault = none → progressFits s.cfg (opEvents s.trace) s.pc

/-- The instruction `i` takes the block from `s` to `t`: it is issued at `s`, or it is in progress there,
in a state that meets the invariant, and goes on by a step. The trace was `start` and the latches `ps`
when it was issued. -/
inductive Advances (i : Instr) (s t : State) : List Event → Pins → Prop where
  | issued (h : exec i s = .next t) : Advances i s t s.trace s.pins
  | resumed (pos : Pos) (n : Nat) (r : Option BusError) (hi : s.Inv)
      (hp : s.pc = .running i pos n r) (h : step s = .next t) :
      Advances i s t (opStart s.trace) (replay s.cfg.init (opStart s.trace))

/-- The error of a bus call that the sequencing position holds. -/
def pcError : Pc → Option BusError
  | .idle => none
  | .running _ _ _ r => r

/-- What is true of the block proper: no bus error is known to it, so none was returned and the
controller's registers are not unspecified (60_exceptions.md rule R131, 42_controller_sequences.md
rule R116). -/
structure State.NoBusError (s : State) : Prop where
  bitbang : s.cfg.busKind = .bitbang
  result  : ∀ e, s.result ≠ some (.err e)
  held    : pcError s.pc = none
  known   : s.ctrlUnspecified = false

end Sys2Proof.Machine
end

