-- ==== Sys2Proof/Certificates/Slice0/Obligations.lean ====
section
/-! DEFINITION. The statements for the provers, each from numbered rules of spec/. A statement over all
states holds of every configuration (`State.cfg`): both levels of `CS_ACTIVE` and `DC_COMMAND`, every
panel size and chunk ceiling, every command code and flag, both kinds of bus, drives that can and
cannot fail. `Grants` is the premise that the environment lets the operation end. `Advances` says that an
instruction is issued, or is in progress in a state that meets the invariant and goes on by a step. -/

open Sys2Proof Sys2Proof.Machine

/-! ## Requests -/

/-- The request that names a well-formed instruction decodes to that instruction: for every operation
with every operand, and, where the command codes are distinct (the premise rule R55 asks of a claim
that tells two commands apart), for every controller command. -/
def Obligations.DecodeUndoesEncode : Prop :=
  (∀ (c : Config) (i : Instr) (bs : List Byte), i.wf = true → encode c i = .descriptor bs →
    decodeRequest c (.descriptor bs) = .ok i) ∧
  (∀ (c : Config) (i : Instr), i.wf = true → c.codes.Distinct →
    decodeRequest c (encode c i) = .ok i)

/-- A descriptor that spells an operation is the encoding of that operation, which is well formed: no
two descriptors spell the same one. -/
def Obligations.EncodeUndoesDecode : Prop :=
  ∀ (c : Config) (bs : List Byte) (i : Instr), decodeExact bs = .ok i →
    encode c i = .descriptor bs ∧ i.wf = true

/-- Decoding takes from the head of a byte list exactly the length the format fixes (rule R65), and
what follows is left as it stands. -/
def Obligations.DecodeTakesFormatLength : Prop :=
  ∀ (c : Config) (bs rest : List Byte) (i : Instr), decodeDescriptor bs = .ok (i, rest) →
    encode c i = .descriptor (bs.take (requestLength c i)) ∧ rest = bs.drop (requestLength c i) ∧
      bs.length = requestLength c i + rest.length

/-- The selectors of the map (rule R63). -/
def assignedSelectors : List Nat :=
  [0x00, 0x01, 0x02, 0x03, 0x04, 0x10, 0x11, 0x12, 0x13, 0x14, 0x15,
   0x20, 0x21, 0x22, 0x23, 0x24, 0x25, 0x26, 0x27, 0x28, 0x29]

/-- A selector outside the map names no operation and a selector in the map never counts as
unassigned (rule R64 (b)); a ready block whose program goes on refuses a descriptor of an unassigned
selector by name. -/
def Obligations.UnassignedSelectorRefused : Prop :=
  (∀ (sel : Byte) (rest : List Byte),
    decodeDescriptor (sel :: rest) = .error (.unassigned sel) ↔ sel.toNat ∉ assignedSelectors) ∧
  (∀ (s : State) (sel : Byte) (rest : List Byte) (always : Bool) (q : List Line), s.Ready →
    sel.toNat ∉ assignedSelectors → s.port = ⟨.descriptor (sel :: rest), always⟩ :: q →
    always = true ∨ (∀ e, s.result ≠ some (.err e)) →
    step s = .refused (.undecodable (.unassigned sel)))

/-- Descriptors written out from rules R62 and R63 decode to what they stand for. -/
def Obligations.DescriptorWordsDecode : Prop :=
  decodeExact [0x00, 0x01, 0x00, 0x00, 0x00, 0xA5] = .ok (.sbWrite [0xA5]) ∧
  decodeExact [0x12, 0x12] = .ok (.diCmd 0x12) ∧
  decodeExact [0x15, 0xFF, 0x80, 0x12, 0x00, 0x00] = .ok (.diDataXTimes 0xFF 4736) ∧
  decodeExact [0x25, 0x00] = .ok (.cdClearBwFrame 0) ∧
  decodeExact [0x27, 0x00, 0x00, 0x00, 0x00, 0x7F, 0x00, 0x27, 0x01] =
    .ok (.cdSetRamArea 0 0 127 295)

/-! ## The machine around the instructions -/

/-- One step. When the last outcome was no error, or the program says that the next line is issued
whatever it was, the line's decoded instruction runs, with the line taken from the port, and a request
that spells no operation is refused. After an error the program stops: no line is left (rule R66; that
the block's port holds the program is log entries 10 and 26). Without a line the block waits; an
operation in progress goes on from its action. -/
def Obligations.StepRunsDecodedInstruction : Prop :=
  (∀ (s : State) (l : Line) (rest : List Line), s.Ready → s.port = l :: rest →
    l.always = true ∨ (∀ e, s.result ≠ some (.err e)) →
    (∀ i : Instr, decodeRequest s.cfg l.request = .ok i → step s = exec i { s with port := rest }) ∧
    (∀ e : DecodeError, decodeRequest s.cfg l.request = .error e →
      step s = .refused (.undecodable e))) ∧
  (∀ (s : State) (l : Line) (rest : List Line) (e : BusError), s.Ready → s.port = l :: rest →
    l.always = false → s.result = some (.err e) → step s = .next { s with port := [] }) ∧
  (∀ s : State, s.Ready → s.port = [] → step s = .next s) ∧
  (∀ (s : State) (i : Instr) (pos : Pos) (n : Nat) (r : Option BusError), s.fault = none →
    s.pc = .running i pos n r → step s = .next (resume i n r s))

/-- The state after reset, for every configuration (rule R155), and the wait for the host's first
operation. That the environment's lists and the port are empty then is the model's choice (log
entries 2 and 10). -/
def Obligations.ResetLeaves : Prop :=
  (∀ c : Config, (State.resetWith c).pins = c.init ∧ (State.resetWith c).pc = .idle ∧
    (State.resetWith c).fault = none ∧ (State.resetWith c).seq = .uninitialized ∧
    (State.resetWith c).ctrlUnspecified = false ∧ (State.resetWith c).result = none ∧
    (State.resetWith c).trace = [] ∧ step (State.resetWith c) = .next (State.resetWith c)) ∧
  (∀ p : Pin, getPin State.reset.pins p = .X)

/-- A configuration is well formed exactly when rule R6 says so, and then has the numbers given. -/
def Obligations.ConfigurationNumbers : Prop :=
  ∀ (c : Config) (width height : Nat) (maxChunk : Option Nat),
    (Config.NumbersOk width height maxChunk →
      ∃ c', c.withNumbers? width height maxChunk = some c' ∧ c'.width = width ∧
        c'.height = height ∧ c'.maxChunk = maxChunk) ∧
    (¬ Config.NumbersOk width height maxChunk → c.withNumbers? width height maxChunk = none) ∧
    Config.NumbersOk c.width c.height c.maxChunk

/-- A halted block performs no further step, of this or any later operation (rule R139). -/
def Obligations.HaltedBlockStops : Prop :=
  ∀ (s : State) (f : Fatal), s.fault = some f →
    step s = .fault (.halted f) ∧ ∀ i : Instr, exec i s = .fault (.halted f)

/-- A step only appends to the trace, the latches follow the appended drives, no parameter changes, and
the port keeps its lines, loses the first, or, where the program stops, all of them (rules R19, R20,
R22). The waveform of a pin starts at its level and takes the level of a drive of that pin where it is
another one; no other event adds to it (rule R20). -/
def Obligations.StepExtendsTrace : Prop :=
  (∀ s t : State, step s = .next t →
    t.cfg = s.cfg ∧ (t.port = s.port ∨ (∃ l, s.port = l :: t.port) ∨ t.port = []) ∧
      ∃ evs, t.trace = s.trace ++ evs ∧ t.pins = replay s.pins evs) ∧
  (∀ (p : Pin) (ps : Pins) (evs : List Event),
    waveform p ps [] = [getPin ps p] ∧
    (∀ v : Level, waveform p ps (evs ++ [.drive p v]) =
      if getPin (replay ps evs) p = v.latch then waveform p ps evs
      else waveform p ps evs ++ [v.latch]) ∧
    (∀ ev : Event, (∀ v, ev ≠ .drive p v) → waveform p ps (evs ++ [ev]) = waveform p ps evs))

/-- Both invariants hold after reset, whatever the configuration: that of the machine, and, with the
bit-banged bus, that no bus error is known. -/
def Obligations.ResetMeetsInvariants : Prop :=
  ∀ c : Config, (State.resetWith c).Inv ∧ (c.busKind = .bitbang → (State.resetWith c).NoBusError)

/-- Every step keeps the invariant of the machine: latches as the trace drove them, `result` the outcome
of the operation that ended last, be it inside the one in progress (rule R15), `fault` set exactly when
the trace ends in `Halt`, `seq`, the sequencing position and the events since the last `Ret` fitting the
operation in progress. That a call of the external bus is no operation, and so writes no `result`, is
read from the spec by inference (log entry 27). -/
def Obligations.StepKeepsInvariant : Prop :=
  ∀ s t : State, s.Inv → step s = .next t → t.Inv

/-- With the bit-banged bus no step makes a bus error known: no operation ends with `err(e)` and
`ctrl_unspecified` is never set (rules R116, R131). -/
def Obligations.BitbangNeverErrs : Prop :=
  ∀ s t : State, s.NoBusError → step s = .next t → t.NoBusError

/-- What an instruction does in one go, and what going on with one does, is what the block does one
action at a time (92_eei_decisions.md D6): so many of the single steps lead to it. That one step takes
an operation as far as the environment lets it is the model's choice (log entry 1). -/
def Obligations.RunIsMicroSteps : Prop :=
  (∀ (i : Instr) (s t : State), exec i s = .next t →
    ∃ k, t = microStep^[k] (arrive i (planOf s.cfg i) 0 none (s.enter (opName i)))) ∧
  (∀ (s t : State) (i : Instr) (pos : Pos) (n : Nat) (r : Option BusError), s.fault = none →
    s.pc = .running i pos n r → pcFits s.cfg s.pc → step s = .next t →
    ∃ k, t = microStep^[k] s)

/-! ## Tier SB -/

/-- A byte frame is eight bit cells, bit 7 first, each clock low, data, clock high: 24 drives, 8 rising
clock edges whatever the levels before it, and nothing between two byte frames (rules R50, R51). -/
def Obligations.ByteFrameShape : Prop :=
  ∀ (c : Config) (v : Byte) (ps : Pins) (a b : List Byte),
    (byteEvents v = [7, 6, 5, 4, 3, 2, 1, 0].flatMap fun k =>
      [.drive .sclk .L, .drive .mosi (if v.getLsbD k then .H else .L), .drive .sclk .H]) ∧
    (byteEvents v).length = 24 ∧ edgeCount .sclk .H ps (byteEvents v) = 8 ∧
    writeEvents c (a ++ b) = .drive .cs c.csActive ::
      (a.flatMap byteEvents ++ b.flatMap byteEvents ++ [.drive .cs c.csInactive])

/-- SB.WRITE of any list that fits its length field ends with `ok` and does exactly the drives of its
write frame (rules R52, R70); nothing else changes. That it acts on the pins with the external bus too is
the model's choice (log entry 16). -/
def Obligations.SbWriteCompletes : Prop :=
  ∀ (s : State) (bytes : List Byte) (e' : Env), s.Ready → bytes.length < 2 ^ 32 →
    Grants s.cfg (writeEvents s.cfg bytes) s.env e' →
    exec (.sbWrite bytes) s =
      .next ((s.withEnv e').completed .sbWrite (writeEvents s.cfg bytes) .ok)

/-- What a receiver takes from a write frame is the bytes in order, each tagged with the select line's
level, and there are `2 + 24 * n` drives and `8 * n` rising clock edges (rule R76 (a), (b)). -/
def Obligations.SbWriteOnTheWire : Prop :=
  ∀ (c : Config) (ps : Pins) (bytes : List Byte),
    wireFrom c ps (writeEvents c bytes) = bytes.map (fun v => (tagOf c ps.dc, v)) ∧
    driveCount (writeEvents c bytes) = 2 + 24 * bytes.length ∧
    edgeCount .sclk .H ps (writeEvents c bytes) = 8 * bytes.length

/-- The falling clock edges of a write frame of `n >= 1` bytes (rule R76 (c)): `8 * n` from a high
clock, `8 * n - 1` from a low one; from an unknown level `8 * n - 1` are certain. The levels it
leaves are those of rule R76 (e). -/
def Obligations.SbWriteFallingEdges : Prop :=
  ∀ (c : Config) (ps : Pins) (bytes : List Byte) (v : Byte),
    (edgeCount .sclk .L ps (writeEvents c (bytes ++ [v])) =
      if ps.sclk = .H then 8 * (bytes.length + 1) else 8 * (bytes.length + 1) - 1) ∧
    edgeCount .sclk .L ps (writeEvents c []) = 0 ∧
    (replay ps (writeEvents c (bytes ++ [v]))).cs = c.csInactive.latch ∧
    (replay ps (writeEvents c (bytes ++ [v]))).sclk = .H ∧
    (replay ps (writeEvents c (bytes ++ [v]))).mosi = if v.getLsbD 0 then .H else .L

/-- `MOSI` is driven only while `SCLK` is low, and both clock and data move only while the chip is
selected (rules R42, R76 (b), (d)). -/
def Obligations.DataStableWhileClockHigh : Prop :=
  ∀ (c : Config) (ps : Pins) (bytes : List Byte) (before after : List Event) (v : Level),
    (writeEvents c bytes = before ++ .drive .mosi v :: after →
      (replay ps before).sclk = .L ∧ (replay ps before).cs = c.csActive.latch) ∧
    (writeEvents c bytes = before ++ .drive .sclk v :: after →
      (replay ps before).cs = c.csActive.latch)

/-- SB.WRITE of the empty list pulses chip-select with no clock activity, and the other latches keep
their levels (rule R77). That it acts on the pins with the external bus too is the model's choice (log
entry 16). -/
def Obligations.EmptySbWrite : Prop :=
  ∀ (s : State) (e' : Env), s.Ready → Grants s.cfg (writeEvents s.cfg []) s.env e' →
    ∃ t, exec (.sbWrite []) s = .next t ∧
      t.trace = s.trace ++
        [.drive .cs s.cfg.csActive, .drive .cs s.cfg.csActive.not, .ret .sbWrite .ok] ∧
      t.pins.sclk = s.pins.sclk ∧ t.pins.mosi = s.pins.mosi ∧ t.pins.dc = s.pins.dc ∧
      t.pins.rst = s.pins.rst ∧ t.pins.cs = s.cfg.csActive.not.latch ∧ t.result = some .ok

/-- SB.FLUSH ends with `ok`; no latch is written, no pin read, no event but `Ret` (rule R71). -/
def Obligations.FlushDoesNothing : Prop :=
  ∀ s : State, s.Ready →
    exec .sbFlush s = .next { s with result := some .ok, trace := s.trace ++ [.ret .sbFlush .ok] }

/-- SB.READ, SB.TRANSFER and SB.TRANSFER_IN_PLACE halt the block, whatever their operand, before any
pin is driven or sampled (rules R72, R73, R74). -/
def Obligations.UnsupportedOperationsHalt : Prop :=
  ∀ (s : State), s.Ready →
    (∀ len : Len, ∃ pc, exec (.sbRead len) s = .next { s with
      pc := pc, fault := some (.unsupported .sbRead),
      trace := s.trace ++ [.halt (.unsupported .sbRead)] }) ∧
    (∀ bytes : List Byte, bytes.length < 2 ^ 32 → ∃ pc, exec (.sbTransfer bytes) s = .next { s with
      pc := pc, fault := some (.unsupported .sbTransfer),
      trace := s.trace ++ [.halt (.unsupported .sbTransfer)] }) ∧
    (∀ bytes : List Byte, bytes.length < 2 ^ 32 → ∃ pc,
      exec (.sbTransferInPlace bytes) s = .next { s with
        pc := pc, fault := some (.unsupported .sbTransferInPlace),
        trace := s.trace ++ [.halt (.unsupported .sbTransferInPlace)] })

/-- With `PIN_FAIL = true` the drive that fails halts the block at once, whichever instruction it belongs
to and whichever pin it drives: what the instruction did before it has happened, waits that read high
included, and the rest is not done (rules R75, R92, R134, R139); `result` is `ok` where an operation inside
has ended by then, and as it was before otherwise (rule R15; that a call of the external bus is no operation
is log entry 27). That the latch of the failed pin keeps its content and that no drive of it is recorded is
the model's choice (log entry 20: rule R92 gives that level no meaning), and so are that each sample that
reads high takes one step more (log entry 1), and that SB.WRITE acts on the pins with the external bus too
(log entry 16). -/
def Obligations.FailedDriveHalts : Prop :=
  ∀ (s : State) (i : Instr) (w : (Nat × Sample) × (Nat × Sample)) (m : Nat) (p : Pin) (v : Level)
    (e' : Env) (rest : List Bool),
    s.Ready → i.wf = true → accepts s.seq (opName i) = true → s.cfg.pinFail = true →
    w.1.2 ≠ .high → w.2.2 ≠ .high →
    (wholeEvents s.cfg w i)[m]? = some (.drive p v) →
    Grants s.cfg ((wholeEvents s.cfg w i).take m) s.env e' → e'.pin = true :: rest →
    ∃ t pc, exec i s = .next t ∧
      core.run (highCount ((wholeEvents s.cfg w i).take m)) t = .next { s.enter (opName i) with
        pc := pc
        pins := replay s.pins ((wholeEvents s.cfg w i).take m)
        result := resultAfter s.cfg i m s.result
        fault := some (.pinFault p)
        trace := s.trace ++ (wholeEvents s.cfg w i).take m ++ [.halt (.pinFault p)]
        env := { e' with pin := rest } }

/-! ## Tier DI -/

/-- DI.RESET gives the reset pulse (rule R86): `RST` low, 10 ms, high, 10 ms. -/
def Obligations.DiResetCompletes : Prop :=
  ∀ (s : State) (e' : Env), s.Ready → Grants s.cfg resetEvents s.env e' →
    exec .diReset s = .next ((s.withEnv e').completed .diReset
      [.drive .rst .L, .delay 10, .drive .rst .H, .delay 10] .ok)

/-- DI.WAIT_IDLE polls until a sample is not high, in a tight loop, low or failed alike ending the wait
with `ok` (rule R87): with `k` samples high and then one that is not, the operation ends after `k`
more steps with those samples in the trace and nothing else. -/
def Obligations.WaitIdlePolls : Prop :=
  ∀ (s : State) (k : Nat) (r : Sample) (rest : List Sample), s.Ready → r ≠ .high →
    s.env.busy = List.replicate k .high ++ r :: rest →
    ∃ t, exec .diWaitIdle s = .next t ∧
      core.run k t = .next ((s.withEnv { s.env with busy := rest }).completed .diWaitIdle
        (List.replicate k (Event.sample .high) ++ [Event.sample r]) .ok)

/-- Nothing ends a wait while the environment withholds its answer (rule R148): a busy line that reads
high, a delay that has not returned, a bus call that has not been answered leave the operation at
the same action, and no step adds a timeout. The sample is recorded (rules R19, R87). That a delay and a
bus call are asked again, and that nothing is recorded until they answer, is the model's choice (log
entry 18). -/
def Obligations.HeldOperationStaysHeld : Prop :=
  ∀ (s : State) (i : Instr) (pos : Pos) (n : Nat) (r : Option BusError) (a : Act) (ends : Bool),
    s.fault = none → s.pc = .running i pos n r → (planOf s.cfg i)[n]? = some ⟨pos, a, ends⟩ →
    skipped r a = false →
    (∀ b, a = .sample → s.env.busy = .high :: b →
      step s = .next { s with
        env := { s.env with busy := b }, trace := s.trace ++ [.sample .high] }) ∧
    (∀ ms d, a = .delay ms → s.env.delay = false :: d →
      step s = .next { s with env := { s.env with delay := d } }) ∧
    (∀ bytes b, a = .bus bytes → s.env.bus = .pending :: b →
      step s = .next { s with env := { s.env with bus := b } })

/-- DI.CMD sends one command frame and leaves `DC` in the data state (rule R88). -/
def Obligations.DiCmdCompletes : Prop :=
  ∀ (s : State) (opcode : Byte) (e' : Env), s.Ready →
    Grants s.cfg (cmdEvents s.cfg opcode) s.env e' →
    exec (.diCmd opcode) s = .next ((s.withEnv e').completed .diCmd
      (Event.drive .dc s.cfg.dcCommand ::
        (callEvents s.cfg [opcode] ++ [.drive .dc s.cfg.dcCommand.not])) .ok)

/-- When the bus call of a command byte fails, `DC` is restored to the data state all the same and the
error is returned unchanged; in DI.CMD_WITH_DATA the data phase is not attempted (rules R88, R90,
R138). -/
def Obligations.CommandErrorRestoresSelect : Prop :=
  ∀ (s : State) (opcode : Byte) (e : BusError) (b : List BusAnswer), s.Ready →
    s.cfg.busKind = .external → s.cfg.pinFail = false → s.env.bus = .err e :: b →
    exec (.diCmd opcode) s =
      .next ((s.withEnv { s.env with bus := b }).completed .diCmd
        [.drive .dc s.cfg.dcCommand, .bus [opcode] (.err e), .drive .dc s.cfg.dcCommand.not]
        (.err e)) ∧
    ∀ bytes : List Byte, bytes.length < 2 ^ 32 →
      exec (.diCmdWithData opcode bytes) s =
        .next ((s.withEnv { s.env with bus := b }).completed .diCmdWithData
          [.drive .dc s.cfg.dcCommand, .bus [opcode] (.err e), .drive .dc s.cfg.dcCommand.not]
          (.err e))

/-- DI.DATA sends a byte sequence as data, one bus call a chunk (rules R85, R89). -/
def Obligations.DiDataCompletes : Prop :=
  ∀ (s : State) (bytes : List Byte) (e' : Env), s.Ready → bytes.length < 2 ^ 32 →
    Grants s.cfg (dataEvents s.cfg bytes) s.env e' →
    exec (.diData bytes) s = .next ((s.withEnv e').completed .diData
      (Event.drive .dc s.cfg.dcCommand.not ::
        (chunks s.cfg bytes).flatMap fun oc => callEvents s.cfg oc.2) .ok)

/-- The first chunk that fails aborts the remaining chunks and its error is returned (rules R85, R89). -/
def Obligations.DiDataStopsAtFailedChunk : Prop :=
  ∀ (s : State) (bytes : List Byte) (done rest : List (Nat × List Byte)) (chunk : Nat × List Byte)
    (e : BusError) (b : List BusAnswer), s.Ready → bytes.length < 2 ^ 32 →
    s.cfg.busKind = .external → s.cfg.pinFail = false →
    chunks s.cfg bytes = done ++ chunk :: rest →
    s.env.bus = List.replicate done.length BusAnswer.ok ++ .err e :: b →
    exec (.diData bytes) s =
      .next ((s.withEnv { s.env with bus := b }).completed .diData
        (Event.drive .dc s.cfg.dcData :: (done.map (fun oc => Event.bus oc.2 .ok) ++
          [Event.bus chunk.2 (.err e)])) (.err e))

/-- A logical write is split into chunks (rule R54): consecutive, in order, covering the write exactly;
`ceil(n / MAX_CHUNK)` of them, all but the last of `MAX_CHUNK` bytes; one when there is no ceiling;
none for the empty write. With the bit-banged bus each is one write frame. -/
def Obligations.ChunksCoverWrite : Prop :=
  ∀ (c : Config) (bytes : List Byte),
    (chunks c bytes).flatMap (·.2) = bytes ∧
    (∀ m, c.maxChunk = some m →
      (chunks c bytes).length = (bytes.length + m - 1) / m ∧
      (∀ k oc, (chunks c bytes)[k]? = some oc →
        oc.2 = (bytes.drop (k * m)).take m ∧ oc.1 = k * m ∧ 1 ≤ oc.2.length ∧
          (k + 1 < (chunks c bytes).length → oc.2.length = m))) ∧
    (c.maxChunk = none → bytes ≠ [] → chunks c bytes = [(0, bytes)]) ∧
    chunks c [] = [] ∧
    (c.busKind = .bitbang →
      chunkEvents c bytes = (chunks c bytes).flatMap fun oc => writeEvents c oc.2)

/-- DI.CMD_WITH_DATA is the command frame and then the payload as data (rule R90). -/
def Obligations.DiCmdWithDataCompletes : Prop :=
  ∀ (s : State) (opcode : Byte) (bytes : List Byte) (e' : Env), s.Ready →
    bytes.length < 2 ^ 32 → Grants s.cfg (cmdDataEvents s.cfg opcode bytes) s.env e' →
    exec (.diCmdWithData opcode bytes) s = .next ((s.withEnv e').completed .diCmdWithData
      (cmdEvents s.cfg opcode ++ dataEvents s.cfg bytes) .ok)

/-- DI.DATA_X_TIMES sends the byte `count` times, each in a bus call of its own (rule R91). -/
def Obligations.DiDataXTimesCompletes : Prop :=
  ∀ (s : State) (value : Byte) (count : Len) (e' : Env), s.Ready →
    Grants s.cfg (fillEvents s.cfg value count.toNat) s.env e' →
    exec (.diDataXTimes value count) s = .next ((s.withEnv e').completed .diDataXTimes
      (Event.drive .dc s.cfg.dcCommand.not ::
        (List.replicate count.toNat (callEvents s.cfg [value])).flatten) .ok)

/-- A fill fails fast on the first bus error: the calls after it are not made (rule R91). -/
def Obligations.FillStopsAtFirstError : Prop :=
  ∀ (s : State) (value : Byte) (count : Len) (m : Nat) (e : BusError) (b : List BusAnswer),
    s.Ready → s.cfg.busKind = .external → s.cfg.pinFail = false → m < count.toNat →
    s.env.bus = List.replicate m BusAnswer.ok ++ .err e :: b →
    exec (.diDataXTimes value count) s =
      .next ((s.withEnv { s.env with bus := b }).completed .diDataXTimes
        (Event.drive .dc s.cfg.dcData :: (List.replicate m (Event.bus [value] .ok) ++
          [Event.bus [value] (.err e)])) (.err e))

/-- After a DI.CMD, DI.DATA, DI.CMD_WITH_DATA or DI.DATA_X_TIMES that has ended, on being issued or on
going on after the environment held it, with `ok` or with `err(e)`, the select line is in the data
state, on either bus (rule R93). -/
def Obligations.SelectLineLeftInDataState : Prop :=
  ∀ (s t : State) (i : Instr) (start : List Event) (ps : Pins),
    opName i ∈ [OpName.diCmd, .diData, .diCmdWithData, .diDataXTimes] →
    Advances i s t start ps → t.pc = .idle → t.pins.dc = s.cfg.dcData.latch

/-- `DC` is never driven while the chip is selected, with the bit-banged bus, by any instruction that
was issued with the chip not selected, over all the steps it takes (rules R53, R93). -/
def Obligations.SelectLineConstantInWindow : Prop :=
  ∀ (s t : State) (i : Instr) (start before after : List Event) (ps : Pins) (v : Level),
    s.cfg.busKind = .bitbang → ps.cs ≠ s.cfg.csActive.latch → Advances i s t start ps →
    t.trace = start ++ before ++ .drive .dc v :: after →
    (replay ps before).cs ≠ s.cfg.csActive.latch

/-- With the bit-banged bus, what a DI.CMD_WITH_DATA that has ended put on the wire since it was issued
is the opcode tagged `cmd` and then every payload byte tagged `data`, whatever the chunk ceiling is
(rule R94). -/
def Obligations.CmdWithDataOnTheWire : Prop :=
  ∀ (s t : State) (opcode : Byte) (bytes : List Byte) (start : List Event) (ps : Pins),
    s.cfg.busKind = .bitbang → Advances (.diCmdWithData opcode bytes) s t start ps →
    t.pc = .idle →
    ∃ evs, t.trace = start ++ evs ++ [.ret .diCmdWithData .ok] ∧
      wireFrom s.cfg ps evs = (.cmd, opcode) :: bytes.map fun v => (.data, v)

/-- `ceil(n / MAX_CHUNK)`, read as 1 for `n > 0` and 0 for `n = 0` when there is no ceiling (rule R95). -/
def ceilChunks (c : Config) (n : Nat) : Nat :=
  match c.maxChunk with
  | none => if n = 0 then 0 else 1
  | some m => (n + m - 1) / m

/-- The drives each tier DI operation has made by the time it has ended, however many steps it took, with
the bit-banged bus, and the two delays of DI.RESET (rule R95). -/
def Obligations.DriveCounts : Prop :=
  ∀ (s t : State) (start : List Event) (ps : Pins), s.cfg.busKind = .bitbang → t.pc = .idle →
    (Advances .diReset s t start ps → driveCount t.trace = driveCount start + 2 ∧
      delayCount t.trace = delayCount start + 2) ∧
    (Advances .diWaitIdle s t start ps → driveCount t.trace = driveCount start) ∧
    (∀ opcode, Advances (.diCmd opcode) s t start ps →
      driveCount t.trace = driveCount start + 28) ∧
    (∀ bytes, Advances (.diData bytes) s t start ps → driveCount t.trace = driveCount start +
      (1 + 2 * ceilChunks s.cfg bytes.length + 24 * bytes.length)) ∧
    (∀ opcode bytes, Advances (.diCmdWithData opcode bytes) s t start ps →
      driveCount t.trace = driveCount start +
        (29 + 2 * ceilChunks s.cfg bytes.length + 24 * bytes.length)) ∧
    (∀ value count, Advances (.diDataXTimes value count) s t start ps →
      driveCount t.trace = driveCount start + (1 + 26 * count.toNat))

/-! ## Tier CD -/

/-- The payload layouts: an X coordinate goes out in units of 8 pixels, cut to a byte; a Y coordinate in
two bytes, least significant first (rules R57, R58, R59). -/
def Obligations.PayloadLayouts : Prop :=
  ∀ sx sy ex ey : Coord,
    (∃ b0 b1, xWindowPayload sx ex = [b0, b1] ∧ b0.toNat = sx.toNat / 8 % 256 ∧
      b1.toNat = ex.toNat / 8 % 256) ∧
    (∃ b0 b1 b2 b3, yWindowPayload sy ey = [b0, b1, b2, b3] ∧
      b0.toNat = sy.toNat % 256 ∧ b1.toNat = sy.toNat / 256 ∧
      b2.toNat = ey.toNat % 256 ∧ b3.toNat = ey.toNat / 256) ∧
    (∃ b, xCounterPayload sx = [b] ∧ b.toNat = sx.toNat / 8 % 256) ∧
    (∃ b0 b1, yCounterPayload sy = [b0, b1] ∧ b0.toNat = sy.toNat % 256 ∧
      b1.toNat = sy.toNat / 256)

/-- A full frame is row by row, each row `WIDTH / 8` bytes: a pixel of the panel is one of the eight of
one byte of it, and every byte holds eight pixels of one row of the panel (rule R31). -/
def Obligations.FrameBufferLayout : Prop :=
  ∀ c : Config,
    (∀ x y : Nat, x < c.width → y < c.height →
      bufferIndex c x y < fillCount c ∧ bufferRow c (bufferIndex c x y) = y ∧
        ∃ k, k < 8 ∧ x = bufferColumn c (bufferIndex c x y) + k) ∧
    (∀ n k : Nat, n < fillCount c → k < 8 →
      bufferRow c n < c.height ∧ bufferColumn c n + k < c.width ∧
        bufferIndex c (bufferColumn c n + k) (bufferRow c n) = n)

/-- CD.SET_RAM_AREA of a well ordered window sends exactly the X window and the Y window command with
their payloads (rule R106), in every state of the sequencer. -/
def Obligations.SetRamAreaCompletes : Prop :=
  ∀ (s : State) (sx sy ex ey : Coord) (e' : Env), s.Ready → sx.toNat < ex.toNat →
    sy.toNat < ey.toNat → Grants s.cfg (areaEvents s.cfg sx sy ex ey) s.env e' →
    exec (.cdSetRamArea sx sy ex ey) s = .next ((s.withEnv e').completed .cdSetRamArea
      (cmdDataEvents s.cfg s.cfg.codes.setRamXWindow (xWindowPayload sx ex) ++
        cmdDataEvents s.cfg s.cfg.codes.setRamYWindow (yWindowPayload sy ey)) .ok)

/-- A window whose ordering is not strict on both axes halts the block before any pin is driven and any
byte is sent, whatever the bus would answer (rules R106, R133, R137 (a)). -/
def Obligations.BadWindowHalts : Prop :=
  ∀ (s : State) (sx sy ex ey : Coord), s.Ready →
    (ex.toNat ≤ sx.toNat ∨ ey.toNat ≤ sy.toNat) →
    ∃ pc, exec (.cdSetRamArea sx sy ex ey) s = .next { s with
      pc := pc
      fault := some (.invalidWindow sx sy ex ey)
      trace := s.trace ++ [.halt (.invalidWindow sx sy ex ey)] }

/-- No instruction but CD.SET_RAM_AREA itself ever halts for a badly ordered window, on being issued or on
going on: the full panel is well ordered in every configuration (rules R108, R133). -/
def Obligations.FullFrameNeverInvalid : Prop :=
  ∀ (s t : State) (i : Instr) (start : List Event) (ps : Pins) (sx sy ex ey : Coord),
    Advances i s t start ps → t.fault = some (.invalidWindow sx sy ex ey) → i = .cdSetRamArea sx sy ex ey

/-- CD.SET_RAM_COUNTER sends the X counter and the Y counter command, with no check on its operands
(rule R107). -/
def Obligations.SetRamCounterCompletes : Prop :=
  ∀ (s : State) (x y : Coord) (e' : Env), s.Ready →
    Grants s.cfg (counterEvents s.cfg x y) s.env e' →
    exec (.cdSetRamCounter x y) s = .next ((s.withEnv e').completed .cdSetRamCounter
      (cmdDataEvents s.cfg s.cfg.codes.setRamXCounter (xCounterPayload x) ++
        cmdDataEvents s.cfg s.cfg.codes.setRamYCounter (yCounterPayload y)) .ok)

/-- CD.USE_FULL_FRAME programs the window `(0, 0)-(WIDTH-1, HEIGHT-1)` and the counter `(0, 0)` (rule
R108). -/
def Obligations.UseFullFrameCompletes : Prop :=
  ∀ (s : State) (e' : Env), s.Ready → Grants s.cfg (fullFrameEvents s.cfg) s.env e' →
    exec .cdUseFullFrame s = .next ((s.withEnv e').completed .cdUseFullFrame
      (areaEvents s.cfg 0 0 (BitVec.ofNat 16 (s.cfg.width - 1)) (BitVec.ofNat 16 (s.cfg.height - 1))
        ++ counterEvents s.cfg 0 0) .ok)

/-- CD.INIT from `Idle` performs the ten steps of the initialization sequence, returns to `Idle` and
clears the mark (rules R105, R110); each of the samples of its waits that reads high takes one step
more of the machine (log entry 1). -/
def Obligations.InitCompletes : Prop :=
  ∀ (s : State) (k1 k2 : Nat) (r1 r2 : Sample) (e' : Env), s.Ready → s.seq = .idle → r1 ≠ .high →
    r2 ≠ .high → Grants s.cfg (initEvents s.cfg k1 r1 k2 r2) s.env e' →
    ∃ t, exec .cdInit s = .next t ∧ core.run (k1 + k2) t = .next
      { (s.withEnv e').completed .cdInit (initEvents s.cfg k1 r1 k2 r2) .ok with
        seq := .idle, ctrlUnspecified := false }

/-- CD.NEW from `Uninitialized` performs the initialization sequence and leads to `Idle` with the mark
cleared (rules R105, R109), its waits as in CD.INIT. -/
def Obligations.NewCompletes : Prop :=
  ∀ (s : State) (k1 k2 : Nat) (r1 r2 : Sample) (e' : Env), s.Ready → s.seq = .uninitialized →
    r1 ≠ .high → r2 ≠ .high → Grants s.cfg (initEvents s.cfg k1 r1 k2 r2) s.env e' →
    ∃ t, exec .cdNew s = .next t ∧ core.run (k1 + k2) t = .next
      { (s.withEnv e').completed .cdNew (initEvents s.cfg k1 r1 k2 r2) .ok with
        seq := .idle, ctrlUnspecified := false }

/-- The uploads re-select the full panel and send the buffer verbatim, whatever its length, after the
plane's command (rules R111, R112, R117); the sequencer returns to `Idle`. -/
def Obligations.UploadsComplete : Prop :=
  ∀ (s : State) (buffer : List Byte) (e' : Env), s.Ready → s.seq = .idle →
    buffer.length < 2 ^ 32 →
    (Grants s.cfg (uploadEvents s.cfg s.cfg.codes.writeRamBw buffer) s.env e' →
      exec (.cdUpdateBwFrame buffer) s = .next ((s.withEnv e').completed .cdUpdateBwFrame
        (fullFrameEvents s.cfg ++ cmdDataEvents s.cfg s.cfg.codes.writeRamBw buffer) .ok)) ∧
    (Grants s.cfg (uploadEvents s.cfg s.cfg.codes.writeRamRed buffer) s.env e' →
      exec (.cdUpdateRedFrame buffer) s = .next ((s.withEnv e').completed .cdUpdateRedFrame
        (fullFrameEvents s.cfg ++ cmdDataEvents s.cfg s.cfg.codes.writeRamRed buffer) .ok))

/-- CD.DISPLAY_FRAME programs full refresh, sends master-activate and waits until idle: it polls while the
busy line reads high, one step more of the machine for each such sample (rule R113; log entry 1). -/
def Obligations.DisplayFrameCompletes : Prop :=
  ∀ (s : State) (k : Nat) (r : Sample) (e' : Env), s.Ready → s.seq = .idle → r ≠ .high →
    Grants s.cfg (displayEvents s.cfg k r) s.env e' →
    ∃ t, exec .cdDisplayFrame s = .next t ∧
      core.run k t = .next ((s.withEnv e').completed .cdDisplayFrame
        (cmdDataEvents s.cfg s.cfg.codes.updateControl2 [s.cfg.flags.fullRefresh] ++
          cmdEvents s.cfg s.cfg.codes.masterActivate ++
          (List.replicate k (Event.sample .high) ++ [Event.sample r])) .ok)

/-- The fill byte of a clear to the color an operand names (rule R61: `byte_value` of the color; rule
R62: 0 is `White`, 1 is `inverse(White)`, others as the Color parameter maps them). -/
def clearByte (color : Byte) : Byte :=
  if color = 0 then Config.byteValue Config.white
  else if color = 1 then Config.byteValue (Config.inverse Config.white)
  else Config.byteValue (Config.otherColor color)

/-- The clears re-select the full panel, send the plane's command once and stream the fill byte
`(WIDTH * HEIGHT) / 8` times: `byte_value` of the color that the operand names, and `byte_value` of
`inverse(White)` for the red plane (rules R61, R62, R114, R115). The color functions are free values:
nothing is claimed of them. -/
def Obligations.ClearsComplete : Prop :=
  ∀ (s : State) (e' : Env), s.Ready → s.seq = .idle →
    (∀ color : Byte,
      Grants s.cfg (clearEvents s.cfg s.cfg.codes.writeRamBw (clearByte color)) s.env e' →
      exec (.cdClearBwFrame color) s = .next ((s.withEnv e').completed .cdClearBwFrame
        (fullFrameEvents s.cfg ++ cmdEvents s.cfg s.cfg.codes.writeRamBw ++
          fillEvents s.cfg (clearByte color) (s.cfg.width * s.cfg.height / 8)) .ok)) ∧
    (Grants s.cfg (clearEvents s.cfg s.cfg.codes.writeRamRed
        (Config.byteValue (Config.inverse Config.white))) s.env e' →
      exec .cdClearRedFrame s = .next ((s.withEnv e').completed .cdClearRedFrame
        (fullFrameEvents s.cfg ++ cmdEvents s.cfg s.cfg.codes.writeRamRed ++
          fillEvents s.cfg (Config.byteValue (Config.inverse Config.white))
            (s.cfg.width * s.cfg.height / 8)) .ok))

/-- The gate: CD.NEW is refused but in `Uninitialized`, where it answers a next state; the other public
operations are refused but in `Idle`, where they answer a next state; every other operation is accepted
in every state of the sequencer, and neither `seq` nor the mark changes (rule R105). -/
def Obligations.SequencerGate : Prop :=
  ∀ (s : State) (i : Instr), s.Ready → i.wf = true →
    (opName i = .cdNew → s.seq ≠ .uninitialized → exec i s = .refused (.notAccepted s.seq)) ∧
    (opName i = .cdNew → s.seq = .uninitialized → ∃ t, exec i s = .next t) ∧
    (visibility (opName i) = .publicSurface → opName i ≠ .cdNew → s.seq ≠ .idle →
      exec i s = .refused (.notAccepted s.seq)) ∧
    (visibility (opName i) = .publicSurface → opName i ≠ .cdNew → s.seq = .idle →
      ∃ t, exec i s = .next t) ∧
    (visibility (opName i) ≠ .publicSurface →
      ∃ t, exec i s = .next t ∧ t.seq = s.seq ∧ t.ctrlUnspecified = s.ctrlUnspecified)

/-- What a public operation that goes from `s` to `t` leaves of `seq` and the mark (rule R105). -/
def SequencerMoves (i : Instr) (s t : State) : Prop :=
  (t.pc = .idle → t.result = some .ok → t.seq = .idle ∧
    t.ctrlUnspecified = if opName i = .cdNew ∨ opName i = .cdInit then false else s.ctrlUnspecified) ∧
  (∀ e, t.pc = .idle → t.result = some (.err e) →
    t.ctrlUnspecified = true ∧ t.seq = if opName i = .cdNew then .uninitialized else .idle) ∧
  (t.pc ≠ .idle → t.ctrlUnspecified = s.ctrlUnspecified ∧
    (opName i = .cdNew ∨ opName i = .cdInit → t.seq = .initializing) ∧
    (opName i ≠ .cdNew → opName i ≠ .cdInit → t.seq = .busy (opName i)))

/-- The moves of the sequencer for a public operation, when it is issued and when it goes on after the
environment held it (rule R105); the second clause takes the invariant as its premise. -/
def Obligations.PublicOperationMovesSequencer : Prop :=
  (∀ (s t : State) (i : Instr), visibility (opName i) = .publicSurface →
    exec i s = .next t → SequencerMoves i s t) ∧
  (∀ (s t : State) (i : Instr) (pos : Pos) (n : Nat) (r : Option BusError), s.Inv →
    visibility (opName i) = .publicSurface → s.pc = .running i pos n r →
    step s = .next t → SequencerMoves i s t)

/-- A bus error in the software-reset step of CD.NEW prevents every later step and is the error
returned; the sequencer is back in `Uninitialized` with the mark set (rules R105, R109, R116). -/
def Obligations.NewFailsAtSoftwareReset : Prop :=
  ∀ (s : State) (e : BusError) (b : List BusAnswer) (d : List Bool), s.Ready →
    s.seq = .uninitialized → s.cfg.busKind = .external → s.cfg.pinFail = false →
    s.env.bus = .err e :: b → s.env.delay = true :: true :: d →
    exec .cdNew s = .next { (s.withEnv { s.env with bus := b, delay := d }).completed .cdNew
      [.drive .rst .L, .delay 10, .drive .rst .H, .delay 10,
       .drive .dc s.cfg.dcCommand, .bus [s.cfg.codes.swReset] (.err e), .drive .dc s.cfg.dcData]
      (.err e) with ctrlUnspecified := true }

/-- Every instruction is fail-fast (rules R116, R138), over all the steps it takes: once a bus call has
failed, all that can follow is the restore of `DC`, and then the return of that error, or a halt at a
restore that fails. -/
def Obligations.NothingAfterBusError : Prop :=
  ∀ (s t : State) (i : Instr) (start before after : List Event) (ps : Pins) (bytes : List Byte)
    (e : BusError), Advances i s t start ps →
    t.trace = start ++ before ++ .bus bytes (.err e) :: after →
    after = [.ret (opName i) (.err e)] ∨
    after = [.drive .dc s.cfg.dcData, .ret (opName i) (.err e)] ∨
    after = [.halt (.pinFault .dc)]

/-- Every latch has its owner (rules R10, R25, R78): from when it is issued on, only DI.RESET, CD.NEW and
CD.INIT write `RST`; tier SB leaves `DC`; DI.RESET writes `RST` alone; DI.WAIT_IDLE, SB.FLUSH and the
unsupported operations write none; with the external bus only SB.WRITE moves the bus pins. -/
def Obligations.LatchOwners : Prop :=
  ∀ (s t : State) (i : Instr) (start : List Event) (ps : Pins), Advances i s t start ps →
    (opName i ∉ [OpName.diReset, .cdNew, .cdInit] → t.pins.rst = ps.rst) ∧
    (opName i ∈ [OpName.sbWrite, .diReset] → t.pins.dc = ps.dc) ∧
    (opName i = .diReset →
      t.pins.cs = ps.cs ∧ t.pins.sclk = ps.sclk ∧ t.pins.mosi = ps.mosi) ∧
    (opName i ∈ [OpName.diWaitIdle, .sbFlush, .sbRead, .sbTransfer, .sbTransferInPlace] →
      t.pins = ps) ∧
    (s.cfg.busKind = .external → opName i ≠ .sbWrite →
      t.pins.cs = ps.cs ∧ t.pins.sclk = ps.sclk ∧ t.pins.mosi = ps.mosi)

/-- DI.WAIT_IDLE is the only operation that samples `BUSY`, so only it and the three sequences that
contain it put a sample in the trace, on being issued or on going on (rules R43, R87). -/
def Obligations.OnlyWaitsSample : Prop :=
  ∀ (s t : State) (i : Instr) (start evs : List Event) (ps : Pins) (r : Sample),
    opName i ∉ [OpName.diWaitIdle, .cdNew, .cdInit, .cdDisplayFrame] →
    Advances i s t start ps → t.trace = start ++ evs → Event.sample r ∉ evs

/-- With the bit-banged bus, what a receiver has of an initialization that has ended, however often its
waits read high, is the nine command frames of rule R110 with their payloads. -/
def Obligations.InitOnTheWire : Prop :=
  ∀ (s t : State) (i : Instr) (start : List Event) (ps : Pins), i = .cdInit ∨ i = .cdNew →
    s.cfg.busKind = .bitbang → Advances i s t start ps → t.pc = .idle →
    ∃ evs, t.trace = start ++ evs ++ [.ret (opName i) .ok] ∧
      framesOf (wireFrom s.cfg ps evs) =
        [⟨s.cfg.codes.swReset, []⟩,
         ⟨s.cfg.codes.updateControl1, s.cfg.updateControl1⟩,
         ⟨s.cfg.codes.borderWaveform, [s.cfg.flags.borderFollowLut ||| s.cfg.flags.borderLut1]⟩,
         ⟨s.cfg.codes.dataEntryMode, [s.cfg.flags.incY ||| s.cfg.flags.incX]⟩,
         ⟨s.cfg.codes.setRamXWindow, [0, BitVec.ofNat 8 ((s.cfg.width - 1) / 8)]⟩,
         ⟨s.cfg.codes.setRamYWindow, [0, 0, BitVec.ofNat 8 (s.cfg.height - 1),
           BitVec.ofNat 8 ((s.cfg.height - 1) / 256)]⟩,
         ⟨s.cfg.codes.setRamXCounter, [0]⟩,
         ⟨s.cfg.codes.setRamYCounter, [0, 0]⟩,
         ⟨s.cfg.codes.tempSensor, [s.cfg.flags.internalTempSensor]⟩]

/-- With the bit-banged bus, every byte a clear that has ended has written to its plane's command is its
fill byte and there are exactly `(WIDTH * HEIGHT) / 8` of them, after the full window and the counter
(rules R61, R62, R114, R115). -/
def Obligations.ClearOnTheWire : Prop :=
  ∀ (s t : State) (i : Instr) (code value : Byte) (start : List Event) (ps : Pins),
    s.cfg.busKind = .bitbang →
    ((∃ color, i = .cdClearBwFrame color ∧ code = s.cfg.codes.writeRamBw ∧
        value = clearByte color) ∨
      (i = .cdClearRedFrame ∧ code = s.cfg.codes.writeRamRed ∧
        value = Config.byteValue (Config.inverse Config.white))) →
    Advances i s t start ps → t.pc = .idle →
    ∃ evs, t.trace = start ++ evs ++ [.ret (opName i) .ok] ∧
      framesOf (wireFrom s.cfg ps evs) =
        [⟨s.cfg.codes.setRamXWindow, [0, BitVec.ofNat 8 ((s.cfg.width - 1) / 8)]⟩,
         ⟨s.cfg.codes.setRamYWindow, [0, 0, BitVec.ofNat 8 (s.cfg.height - 1),
           BitVec.ofNat 8 ((s.cfg.height - 1) / 256)]⟩,
         ⟨s.cfg.codes.setRamXCounter, [0]⟩,
         ⟨s.cfg.codes.setRamYCounter, [0, 0]⟩,
         ⟨code, List.replicate (s.cfg.width * s.cfg.height / 8) value⟩]

/-! ## Controller commands -/

/-- Each of the thirteen controller commands is sent as its command frame, followed by the payload of
the table as data (rule R55). That the host may ask for one by name is the model's choice (log entry
11). -/
def Obligations.WireCommandsComplete : Prop :=
  ∀ (s : State) (e' : Env), s.Ready →
    (Grants s.cfg (cmdEvents s.cfg s.cfg.codes.swReset) s.env e' → exec .wireSwReset s =
      .next ((s.withEnv e').completed .diCmd (cmdEvents s.cfg s.cfg.codes.swReset) .ok)) ∧
    (Grants s.cfg (cmdEvents s.cfg s.cfg.codes.masterActivate) s.env e' →
      exec .wireMasterActivate s = .next ((s.withEnv e').completed .diCmd
        (cmdEvents s.cfg s.cfg.codes.masterActivate) .ok)) ∧
    (∀ (i : Instr) (code : Byte) (payload : List Byte), i.wf = true →
      ((i = .wireUpdateControl1 ∧ code = s.cfg.codes.updateControl1 ∧
          payload = s.cfg.updateControl1) ∨
        (i = .wireBorderWaveform ∧ code = s.cfg.codes.borderWaveform ∧
          payload = [s.cfg.flags.borderFollowLut ||| s.cfg.flags.borderLut1]) ∨
        (i = .wireDataEntryMode ∧ code = s.cfg.codes.dataEntryMode ∧
          payload = [s.cfg.flags.incY ||| s.cfg.flags.incX]) ∨
        (∃ b0 b1, i = .wireSetRamXWindow b0 b1 ∧ code = s.cfg.codes.setRamXWindow ∧
          payload = [b0, b1]) ∨
        (∃ y0 y1, i = .wireSetRamYWindow y0 y1 ∧ code = s.cfg.codes.setRamYWindow ∧
          payload = yWindowPayload y0 y1) ∨
        (∃ x, i = .wireSetRamXCounter x ∧ code = s.cfg.codes.setRamXCounter ∧ payload = [x]) ∨
        (∃ y, i = .wireSetRamYCounter y ∧ code = s.cfg.codes.setRamYCounter ∧
          payload = yCounterPayload y) ∨
        (i = .wireTempSensor ∧ code = s.cfg.codes.tempSensor ∧
          payload = [s.cfg.flags.internalTempSensor]) ∨
        (∃ bs, i = .wireWriteRamBw bs ∧ code = s.cfg.codes.writeRamBw ∧ payload = bs) ∨
        (∃ bs, i = .wireWriteRamRed bs ∧ code = s.cfg.codes.writeRamRed ∧ payload = bs) ∨
        (i = .wireUpdateControl2 ∧ code = s.cfg.codes.updateControl2 ∧
          payload = [s.cfg.flags.fullRefresh])) →
      Grants s.cfg (cmdDataEvents s.cfg code payload) s.env e' →
      exec i s = .next ((s.withEnv e').completed .diCmdWithData
        (cmdDataEvents s.cfg code payload) .ok))

/-- What is sent is what is received: with the bit-banged bus, the one command frame a receiver takes
from a controller command that has been sent is the frame that names it, and where the codes are
distinct it reads as that command again (rules R53, R55, R68). -/
def Obligations.ReceiverReadsCommandSent : Prop :=
  ∀ (s t : State) (i : Instr) (f : Frame) (start : List Event) (ps : Pins),
    s.cfg.busKind = .bitbang → encode s.cfg i = .frame f → Advances i s t start ps →
    t.pc = .idle →
    ∃ evs, t.trace = start ++ evs ++ [.ret (opName i) .ok] ∧
      framesOf (wireFrom s.cfg ps evs) = [f] ∧
      (s.cfg.codes.Distinct → decodeFrame s.cfg f = some i)
end

