-- ==== Sys2Proof/Laws/Encoding.lean ====
section
/-! SUPPORT. Laws of the byte order of descriptors and of the readers of their formats. -/

namespace Sys2Proof

theorem halfOf_halfBytes (v : BitVec 16) : halfOf (v.extractLsb' 0 8) (v.extractLsb' 8 8) = v := by
  apply BitVec.eq_of_toNat_eq
  have := v.isLt
  simp only [halfOf, BitVec.toNat_ofNat, BitVec.extractLsb'_toNat, Nat.shiftRight_eq_div_pow]
  omega

theorem halfBytes_halfOf (b0 b1 : Byte) : halfBytes (halfOf b0 b1) = [b0, b1] := by
  have h0 := b0.isLt
  have h1 := b1.isLt
  have e0 : (halfOf b0 b1).extractLsb' 0 8 = b0 := by
    apply BitVec.eq_of_toNat_eq
    simp only [halfOf, BitVec.toNat_ofNat, BitVec.extractLsb'_toNat, Nat.shiftRight_eq_div_pow]
    omega
  have e1 : (halfOf b0 b1).extractLsb' 8 8 = b1 := by
    apply BitVec.eq_of_toNat_eq
    simp only [halfOf, BitVec.toNat_ofNat, BitVec.extractLsb'_toNat, Nat.shiftRight_eq_div_pow]
    omega
  rw [halfBytes, e0, e1]

theorem wordOf_wordBytes (v : BitVec 32) :
    wordOf (v.extractLsb' 0 8) (v.extractLsb' 8 8) (v.extractLsb' 16 8) (v.extractLsb' 24 8) = v := by
  apply BitVec.eq_of_toNat_eq
  have := v.isLt
  simp only [wordOf, BitVec.toNat_ofNat, BitVec.extractLsb'_toNat, Nat.shiftRight_eq_div_pow]
  omega

theorem wordBytes_wordOf (b0 b1 b2 b3 : Byte) :
    wordBytes (wordOf b0 b1 b2 b3) = [b0, b1, b2, b3] := by
  have h0 := b0.isLt
  have h1 := b1.isLt
  have h2 := b2.isLt
  have h3 := b3.isLt
  have e : ∀ k (b : Byte), (wordOf b0 b1 b2 b3).toNat / 2 ^ k % 2 ^ 8 = b.toNat →
      (wordOf b0 b1 b2 b3).extractLsb' k 8 = b := by
    intro k b h
    apply BitVec.eq_of_toNat_eq
    rw [BitVec.extractLsb'_toNat, Nat.shiftRight_eq_div_pow, h]
  have hn : (wordOf b0 b1 b2 b3).toNat =
      b0.toNat + 256 * (b1.toNat + 256 * (b2.toNat + 256 * b3.toNat)) := by
    rw [wordOf, BitVec.toNat_ofNat, Nat.mod_eq_of_lt (by omega)]
  rw [wordBytes, e 0 b0 (by rw [hn]; omega), e 8 b1 (by rw [hn]; omega), e 16 b2 (by rw [hn]; omega),
    e 24 b3 (by rw [hn]; omega)]

/-! ### The readers undo the writers -/

theorem readLen_wordBytes (k : Len → Instr) (n : Len) (rest : List Byte) :
    readLen k (wordBytes n ++ rest) = some (k n, rest) := by
  simp [readLen, wordBytes, wordOf_wordBytes]

theorem readList_listBytes (k : List Byte → Instr) (bs rest : List Byte) (h : bs.length < 2 ^ 32) :
    readList k (listBytes bs ++ rest) = some (k bs, rest) := by
  have hn : (BitVec.ofNat 32 bs.length).toNat = bs.length := by
    rw [BitVec.toNat_ofNat, Nat.mod_eq_of_lt h]
  simp only [listBytes, wordBytes, List.cons_append, List.nil_append, readList, wordOf_wordBytes, hn]
  simp

theorem readWindow_halfBytes (k : Coord → Coord → Coord → Coord → Instr) (a b c d : Coord)
    (rest : List Byte) :
    readWindow k (halfBytes a ++ halfBytes b ++ halfBytes c ++ halfBytes d ++ rest) =
      some (k a b c d, rest) := by
  simp [readWindow, halfBytes, halfOf_halfBytes]

theorem readPoint_halfBytes (k : Coord → Coord → Instr) (a b : Coord) (rest : List Byte) :
    readPoint k (halfBytes a ++ halfBytes b ++ rest) = some (k a b, rest) := by
  simp [readPoint, halfBytes, halfOf_halfBytes]

/-! ### What a reader that answers has read -/

theorem readLen_some {k : Len → Instr} {bs rest : List Byte} {i : Instr}
    (h : readLen k bs = some (i, rest)) : ∃ n, i = k n ∧ bs = wordBytes n ++ rest := by
  unfold readLen at h
  split at h
  · cases h; exact ⟨_, rfl, by rw [wordBytes_wordOf]; rfl⟩
  · cases h

theorem readList_some {k : List Byte → Instr} {bs rest : List Byte} {i : Instr}
    (h : readList k bs = some (i, rest)) :
    ∃ l, i = k l ∧ l.length < 2 ^ 32 ∧ bs = listBytes l ++ rest := by
  unfold readList at h
  split at h
  · rename_i b0 b1 b2 b3 tl
    dsimp only at h
    split at h
    · rename_i hle
      cases h
      have hl : (tl.take (wordOf b0 b1 b2 b3).toNat).length = (wordOf b0 b1 b2 b3).toNat := by
        rw [List.length_take]; omega
      refine ⟨_, rfl, by rw [hl]; exact (wordOf b0 b1 b2 b3).isLt, ?_⟩
      rw [listBytes, hl, BitVec.ofNat_toNat, BitVec.setWidth_eq, wordBytes_wordOf]
      simp
    · cases h
  · cases h

theorem readByte_some {k : Byte → Instr} {bs rest : List Byte} {i : Instr}
    (h : readByte k bs = some (i, rest)) : ∃ v, i = k v ∧ bs = v :: rest := by
  unfold readByte at h
  split at h
  · cases h; exact ⟨_, rfl, rfl⟩
  · cases h

theorem readByteList_some {k : Byte → List Byte → Instr} {bs rest : List Byte} {i : Instr}
    (h : readByteList k bs = some (i, rest)) :
    ∃ v l, i = k v l ∧ l.length < 2 ^ 32 ∧ bs = v :: (listBytes l ++ rest) := by
  unfold readByteList at h
  split at h
  · obtain ⟨l, hi, hl, rfl⟩ := readList_some h; exact ⟨_, l, hi, hl, rfl⟩
  · cases h

theorem readByteCount_some {k : Byte → Len → Instr} {bs rest : List Byte} {i : Instr}
    (h : readByteCount k bs = some (i, rest)) :
    ∃ v n, i = k v n ∧ bs = v :: (wordBytes n ++ rest) := by
  unfold readByteCount at h
  split at h
  · obtain ⟨n, hi, rfl⟩ := readLen_some h; exact ⟨_, n, hi, rfl⟩
  · cases h

theorem readWindow_some {k : Coord → Coord → Coord → Coord → Instr} {bs rest : List Byte} {i : Instr}
    (h : readWindow k bs = some (i, rest)) :
    ∃ a b c d, i = k a b c d ∧
      bs = halfBytes a ++ halfBytes b ++ halfBytes c ++ halfBytes d ++ rest := by
  unfold readWindow at h
  split at h
  · cases h; exact ⟨_, _, _, _, rfl, by simp [halfBytes_halfOf]⟩
  · cases h

theorem readPoint_some {k : Coord → Coord → Instr} {bs rest : List Byte} {i : Instr}
    (h : readPoint k bs = some (i, rest)) :
    ∃ a b, i = k a b ∧ bs = halfBytes a ++ halfBytes b ++ rest := by
  unfold readPoint at h
  split at h
  · cases h; exact ⟨_, _, rfl, by simp [halfBytes_halfOf]⟩
  · cases h

/-! ### The encoder's bytes at the head of a list -/

theorem listBytes_length (bs : List Byte) : (listBytes bs).length = 4 + bs.length := by
  rw [listBytes, List.length_append]; rfl

/-- What a decoded descriptor was: the encoding of its well-formed instruction, then the rest. -/
theorem decodeDescriptor_ok {bs rest : List Byte} {i : Instr} (c : Config)
    (h : decodeDescriptor bs = .ok (i, rest)) :
    i.wf = true ∧ ∃ d, encode c i = .descriptor d ∧ bs = d ++ rest := by
  cases bs with
  | nil => cases h
  | cons sel bs =>
    have key : ∀ n : Nat, sel.toNat = n → sel = BitVec.ofNat 8 n := by
      intro n hn; rw [← hn, BitVec.ofNat_toNat, BitVec.setWidth_eq]
    unfold decodeDescriptor at h
    dsimp only at h
    split at h
    · cases h
    · rename_i rd hrd
      split at h
      · cases h
      · rename_i r hr
        cases h
        unfold operandReader at hrd
        split at hrd <;> cases hrd
        all_goals
          rename_i hsel
          have hs := key _ hsel
          subst hs
          first
            | (obtain ⟨rfl, rfl⟩ : _ = i ∧ _ = rest := by simpa [readNone] using hr
               exact ⟨rfl, _, rfl, rfl⟩)
            | (obtain ⟨v, rfl, rfl⟩ := readByte_some hr; exact ⟨rfl, _, rfl, rfl⟩)
            | (obtain ⟨n, rfl, rfl⟩ := readLen_some hr; exact ⟨rfl, _, rfl, rfl⟩)
            | (obtain ⟨l, rfl, hl, rfl⟩ := readList_some hr
               exact ⟨decide_eq_true hl, _, rfl, rfl⟩)
            | (obtain ⟨v, l, rfl, hl, rfl⟩ := readByteList_some hr
               exact ⟨decide_eq_true hl, _, rfl, rfl⟩)
            | (obtain ⟨v, n, rfl, rfl⟩ := readByteCount_some hr; exact ⟨rfl, _, rfl, rfl⟩)
            | (obtain ⟨a, b, c', d, rfl, rfl⟩ := readWindow_some hr; exact ⟨rfl, _, rfl, rfl⟩)
            | (obtain ⟨a, b, rfl, rfl⟩ := readPoint_some hr; exact ⟨rfl, _, rfl, rfl⟩)

end Sys2Proof
end

