-- ==== Sys2Proof/Laws/State.lean ====
section
/-! SUPPORT. One lemma per field per update of the state, each true by rfl, and what reset holds. -/

namespace Sys2Proof.Machine

variable (s : State)

/-! ### log -/

@[simp] theorem State.log_cfg (ev : Event) : (s.log ev).cfg = s.cfg := rfl

@[simp] theorem State.log_pins (ev : Event) : (s.log ev).pins = s.pins := rfl

@[simp] theorem State.log_pc (ev : Event) : (s.log ev).pc = s.pc := rfl

@[simp] theorem State.log_result (ev : Event) : (s.log ev).result = s.result := rfl

@[simp] theorem State.log_fault (ev : Event) : (s.log ev).fault = s.fault := rfl

@[simp] theorem State.log_seq (ev : Event) : (s.log ev).seq = s.seq := rfl

@[simp] theorem State.log_ctrlUnspecified (ev : Event) : (s.log ev).ctrlUnspecified = s.ctrlUnspecified := rfl

@[simp] theorem State.log_trace (ev : Event) : (s.log ev).trace = s.trace ++ [ev] := rfl

@[simp] theorem State.log_port (ev : Event) : (s.log ev).port = s.port := rfl

@[simp] theorem State.log_env (ev : Event) : (s.log ev).env = s.env := rfl

/-! ### withEnv -/

@[simp] theorem State.withEnv_cfg (e : Env) : (s.withEnv e).cfg = s.cfg := rfl

@[simp] theorem State.withEnv_pins (e : Env) : (s.withEnv e).pins = s.pins := rfl

@[simp] theorem State.withEnv_pc (e : Env) : (s.withEnv e).pc = s.pc := rfl

@[simp] theorem State.withEnv_result (e : Env) : (s.withEnv e).result = s.result := rfl

@[simp] theorem State.withEnv_fault (e : Env) : (s.withEnv e).fault = s.fault := rfl

@[simp] theorem State.withEnv_seq (e : Env) : (s.withEnv e).seq = s.seq := rfl

@[simp] theorem State.withEnv_ctrlUnspecified (e : Env) : (s.withEnv e).ctrlUnspecified = s.ctrlUnspecified := rfl

@[simp] theorem State.withEnv_trace (e : Env) : (s.withEnv e).trace = s.trace := rfl

@[simp] theorem State.withEnv_port (e : Env) : (s.withEnv e).port = s.port := rfl

@[simp] theorem State.withEnv_env (e : Env) : (s.withEnv e).env = e := rfl

/-! ### put -/

@[simp] theorem State.put_cfg (p : Pin) (v : Level) : (s.put p v).cfg = s.cfg := rfl

@[simp] theorem State.put_pins (p : Pin) (v : Level) : (s.put p v).pins = setPin s.pins p v := rfl

@[simp] theorem State.put_pc (p : Pin) (v : Level) : (s.put p v).pc = s.pc := rfl

@[simp] theorem State.put_result (p : Pin) (v : Level) : (s.put p v).result = s.result := rfl

@[simp] theorem State.put_fault (p : Pin) (v : Level) : (s.put p v).fault = s.fault := rfl

@[simp] theorem State.put_seq (p : Pin) (v : Level) : (s.put p v).seq = s.seq := rfl

@[simp] theorem State.put_ctrlUnspecified (p : Pin) (v : Level) : (s.put p v).ctrlUnspecified = s.ctrlUnspecified := rfl

@[simp] theorem State.put_trace (p : Pin) (v : Level) : (s.put p v).trace = s.trace ++ [.drive p v] := rfl

@[simp] theorem State.put_port (p : Pin) (v : Level) : (s.put p v).port = s.port := rfl

@[simp] theorem State.put_env (p : Pin) (v : Level) : (s.put p v).env = s.env := rfl

/-! ### halt -/

@[simp] theorem State.halt_cfg (f : Fatal) : (s.halt f).cfg = s.cfg := rfl

@[simp] theorem State.halt_pins (f : Fatal) : (s.halt f).pins = s.pins := rfl

@[simp] theorem State.halt_pc (f : Fatal) : (s.halt f).pc = s.pc := rfl

@[simp] theorem State.halt_result (f : Fatal) : (s.halt f).result = s.result := rfl

@[simp] theorem State.halt_fault (f : Fatal) : (s.halt f).fault = some f := rfl

@[simp] theorem State.halt_seq (f : Fatal) : (s.halt f).seq = s.seq := rfl

@[simp] theorem State.halt_ctrlUnspecified (f : Fatal) : (s.halt f).ctrlUnspecified = s.ctrlUnspecified := rfl

@[simp] theorem State.halt_trace (f : Fatal) : (s.halt f).trace = s.trace ++ [.halt f] := rfl

@[simp] theorem State.halt_port (f : Fatal) : (s.halt f).port = s.port := rfl

@[simp] theorem State.halt_env (f : Fatal) : (s.halt f).env = s.env := rfl

/-! ### finish -/

@[simp] theorem State.finish_cfg (op : OpName) (o : OpOutcome) : (s.finish op o).cfg = s.cfg := rfl

@[simp] theorem State.finish_pins (op : OpName) (o : OpOutcome) : (s.finish op o).pins = s.pins := rfl

@[simp] theorem State.finish_pc (op : OpName) (o : OpOutcome) : (s.finish op o).pc = .idle := rfl

@[simp] theorem State.finish_result (op : OpName) (o : OpOutcome) : (s.finish op o).result = some o := rfl

@[simp] theorem State.finish_fault (op : OpName) (o : OpOutcome) : (s.finish op o).fault = s.fault := rfl

@[simp] theorem State.finish_seq (op : OpName) (o : OpOutcome) : (s.finish op o).seq = seqLeave op o s.seq := rfl

@[simp] theorem State.finish_ctrlUnspecified (op : OpName) (o : OpOutcome) : (s.finish op o).ctrlUnspecified = markLeave op o s.ctrlUnspecified := rfl

@[simp] theorem State.finish_trace (op : OpName) (o : OpOutcome) : (s.finish op o).trace = s.trace ++ [.ret op o] := rfl

@[simp] theorem State.finish_port (op : OpName) (o : OpOutcome) : (s.finish op o).port = s.port := rfl

@[simp] theorem State.finish_env (op : OpName) (o : OpOutcome) : (s.finish op o).env = s.env := rfl

/-! ### leave -/

@[simp] theorem State.leave_cfg (ends : Bool) (o : OpOutcome) : (s.leave ends o).cfg = s.cfg := by cases ends <;> rfl

@[simp] theorem State.leave_pins (ends : Bool) (o : OpOutcome) : (s.leave ends o).pins = s.pins := by cases ends <;> rfl

@[simp] theorem State.leave_pc (ends : Bool) (o : OpOutcome) : (s.leave ends o).pc = s.pc := by cases ends <;> rfl

@[simp] theorem State.leave_fault (ends : Bool) (o : OpOutcome) : (s.leave ends o).fault = s.fault := by cases ends <;> rfl

@[simp] theorem State.leave_seq (ends : Bool) (o : OpOutcome) : (s.leave ends o).seq = s.seq := by cases ends <;> rfl

@[simp] theorem State.leave_ctrlUnspecified (ends : Bool) (o : OpOutcome) : (s.leave ends o).ctrlUnspecified = s.ctrlUnspecified := by cases ends <;> rfl

@[simp] theorem State.leave_trace (ends : Bool) (o : OpOutcome) : (s.leave ends o).trace = s.trace := by cases ends <;> rfl

@[simp] theorem State.leave_port (ends : Bool) (o : OpOutcome) : (s.leave ends o).port = s.port := by cases ends <;> rfl

@[simp] theorem State.leave_env (ends : Bool) (o : OpOutcome) : (s.leave ends o).env = s.env := by cases ends <;> rfl

@[simp] theorem State.leave_result (ends : Bool) (o : OpOutcome) :
    (s.leave ends o).result = if ends then some o else s.result := by cases ends <;> rfl

/-- The end of the whole operation writes `result` again. -/
@[simp] theorem State.leave_finish (ends : Bool) (o p : OpOutcome) (op : OpName) :
    (s.leave ends o).finish op p = s.finish op p := by cases ends <;> rfl

/-! ### enter -/

@[simp] theorem State.enter_cfg (op : OpName) : (s.enter op).cfg = s.cfg := rfl

@[simp] theorem State.enter_pins (op : OpName) : (s.enter op).pins = s.pins := rfl

@[simp] theorem State.enter_pc (op : OpName) : (s.enter op).pc = s.pc := rfl

@[simp] theorem State.enter_result (op : OpName) : (s.enter op).result = s.result := rfl

@[simp] theorem State.enter_fault (op : OpName) : (s.enter op).fault = s.fault := rfl

@[simp] theorem State.enter_seq (op : OpName) : (s.enter op).seq = seqEnter op s.seq := rfl

@[simp] theorem State.enter_ctrlUnspecified (op : OpName) : (s.enter op).ctrlUnspecified = s.ctrlUnspecified := rfl

@[simp] theorem State.enter_trace (op : OpName) : (s.enter op).trace = s.trace := rfl

@[simp] theorem State.enter_port (op : OpName) : (s.enter op).port = s.port := rfl

@[simp] theorem State.enter_env (op : OpName) : (s.enter op).env = s.env := rfl

/-! ### suspend -/

@[simp] theorem State.suspend_cfg (i : Instr) (pos : Pos) (n : Nat) (r : Option BusError) : (s.suspend i pos n r).cfg = s.cfg := rfl

@[simp] theorem State.suspend_pins (i : Instr) (pos : Pos) (n : Nat) (r : Option BusError) : (s.suspend i pos n r).pins = s.pins := rfl

@[simp] theorem State.suspend_pc (i : Instr) (pos : Pos) (n : Nat) (r : Option BusError) : (s.suspend i pos n r).pc = .running i pos n r := rfl

@[simp] theorem State.suspend_result (i : Instr) (pos : Pos) (n : Nat) (r : Option BusError) : (s.suspend i pos n r).result = s.result := rfl

@[simp] theorem State.suspend_fault (i : Instr) (pos : Pos) (n : Nat) (r : Option BusError) : (s.suspend i pos n r).fault = s.fault := rfl

@[simp] theorem State.suspend_seq (i : Instr) (pos : Pos) (n : Nat) (r : Option BusError) : (s.suspend i pos n r).seq = s.seq := rfl

@[simp] theorem State.suspend_ctrlUnspecified (i : Instr) (pos : Pos) (n : Nat) (r : Option BusError) : (s.suspend i pos n r).ctrlUnspecified = s.ctrlUnspecified := rfl

@[simp] theorem State.suspend_trace (i : Instr) (pos : Pos) (n : Nat) (r : Option BusError) : (s.suspend i pos n r).trace = s.trace := rfl

@[simp] theorem State.suspend_port (i : Instr) (pos : Pos) (n : Nat) (r : Option BusError) : (s.suspend i pos n r).port = s.port := rfl

@[simp] theorem State.suspend_env (i : Instr) (pos : Pos) (n : Nat) (r : Option BusError) : (s.suspend i pos n r).env = s.env := rfl

/-! ### emit -/

@[simp] theorem State.emit_cfg (evs : List Event) : (s.emit evs).cfg = s.cfg := rfl

@[simp] theorem State.emit_pins (evs : List Event) : (s.emit evs).pins = replay s.pins evs := rfl

@[simp] theorem State.emit_pc (evs : List Event) : (s.emit evs).pc = s.pc := rfl

@[simp] theorem State.emit_result (evs : List Event) : (s.emit evs).result = s.result := rfl

@[simp] theorem State.emit_fault (evs : List Event) : (s.emit evs).fault = s.fault := rfl

@[simp] theorem State.emit_seq (evs : List Event) : (s.emit evs).seq = s.seq := rfl

@[simp] theorem State.emit_ctrlUnspecified (evs : List Event) : (s.emit evs).ctrlUnspecified = s.ctrlUnspecified := rfl

@[simp] theorem State.emit_trace (evs : List Event) : (s.emit evs).trace = s.trace ++ evs := rfl

@[simp] theorem State.emit_port (evs : List Event) : (s.emit evs).port = s.port := rfl

@[simp] theorem State.emit_env (evs : List Event) : (s.emit evs).env = s.env := rfl

/-! ### completed -/

@[simp] theorem State.completed_cfg (op : OpName) (evs : List Event) (o : OpOutcome) : (s.completed op evs o).cfg = s.cfg := rfl

@[simp] theorem State.completed_pins (op : OpName) (evs : List Event) (o : OpOutcome) : (s.completed op evs o).pins = replay s.pins evs := rfl

@[simp] theorem State.completed_pc (op : OpName) (evs : List Event) (o : OpOutcome) : (s.completed op evs o).pc = .idle := rfl

@[simp] theorem State.completed_result (op : OpName) (evs : List Event) (o : OpOutcome) : (s.completed op evs o).result = some o := rfl

@[simp] theorem State.completed_fault (op : OpName) (evs : List Event) (o : OpOutcome) : (s.completed op evs o).fault = s.fault := rfl

@[simp] theorem State.completed_seq (op : OpName) (evs : List Event) (o : OpOutcome) : (s.completed op evs o).seq = s.seq := rfl

@[simp] theorem State.completed_ctrlUnspecified (op : OpName) (evs : List Event) (o : OpOutcome) : (s.completed op evs o).ctrlUnspecified = s.ctrlUnspecified := rfl

@[simp] theorem State.completed_trace (op : OpName) (evs : List Event) (o : OpOutcome) : (s.completed op evs o).trace = s.trace ++ evs ++ [.ret op o] := rfl

@[simp] theorem State.completed_port (op : OpName) (evs : List Event) (o : OpOutcome) : (s.completed op evs o).port = s.port := rfl

@[simp] theorem State.completed_env (op : OpName) (evs : List Event) (o : OpOutcome) : (s.completed op evs o).env = s.env := rfl

/-! ### reset -/

@[simp] theorem State.resetWith_cfg (c : Config) : (State.resetWith c).cfg = c := rfl

@[simp] theorem State.resetWith_pins (c : Config) : (State.resetWith c).pins = c.init := rfl

@[simp] theorem State.resetWith_pc (c : Config) : (State.resetWith c).pc = .idle := rfl

@[simp] theorem State.resetWith_result (c : Config) : (State.resetWith c).result = none := rfl

@[simp] theorem State.resetWith_fault (c : Config) : (State.resetWith c).fault = none := rfl

@[simp] theorem State.resetWith_seq (c : Config) : (State.resetWith c).seq = .uninitialized := rfl

@[simp] theorem State.resetWith_ctrlUnspecified (c : Config) : (State.resetWith c).ctrlUnspecified = false := rfl

@[simp] theorem State.resetWith_trace (c : Config) : (State.resetWith c).trace = [] := rfl

@[simp] theorem State.resetWith_port (c : Config) : (State.resetWith c).port = [] := rfl

@[simp] theorem State.resetWith_env (c : Config) : (State.resetWith c).env = ⟨[], [], [], [], 0⟩ := rfl

/-! ### The latches -/

@[simp] theorem getPin_setPin_same (ps : Pins) (p : Pin) (v : Level) :
    getPin (setPin ps p v) p = v.latch := by cases p <;> rfl

theorem getPin_setPin_other (ps : Pins) {p q : Pin} (v : Level) (h : q ≠ p) :
    getPin (setPin ps p v) q = getPin ps q := by
  cases p <;> cases q <;> first | rfl | exact absurd rfl h

/-- Two latch files that agree pin by pin are equal. -/
theorem pins_ext {a b : Pins} (h : ∀ p, getPin a p = getPin b p) : a = b := by
  have h1 := h .cs
  have h2 := h .sclk
  have h3 := h .mosi
  have h4 := h .dc
  have h5 := h .rst
  cases a; cases b
  simp_all [getPin]

@[simp] theorem latch_not_ne (v : Level) : v.not.latch ≠ v.latch := by cases v <;> decide

@[simp] theorem latch_ne_not (v : Level) : v.latch ≠ v.not.latch := by cases v <;> decide

@[simp] theorem not_not_level (v : Level) : v.not.not = v := by cases v <;> rfl

theorem latch_inj {a b : Level} : a.latch = b.latch ↔ a = b := by
  cases a <;> cases b <;> simp [Level.latch]

end Sys2Proof.Machine
end

