-- ==== Sys2Proof/Laws/Trace.lean ====
section
/-! SUPPORT. Laws of the trace: replay of drives, drive counts, clock edges, and what a receiver takes
from bit cells, byte frames and write frames. -/

namespace Sys2Proof.Machine

/-! ### Replay -/

@[simp] theorem replay_nil (ps : Pins) : replay ps [] = ps := rfl

@[simp] theorem replay_cons (ps : Pins) (ev : Event) (evs : List Event) :
    replay ps (ev :: evs) = replay (applyEvent ps ev) evs := rfl

theorem replay_append (ps : Pins) (a b : List Event) :
    replay ps (a ++ b) = replay (replay ps a) b := by
  simp [replay, List.foldl_append]

@[simp] theorem applyEvent_drive (ps : Pins) (p : Pin) (v : Level) :
    applyEvent ps (.drive p v) = setPin ps p v := rfl

/-- A pin no event drives keeps its level. -/
theorem getPin_replay_of_not_driven (p : Pin) (evs : List Event) :
    ∀ ps : Pins, (∀ ev ∈ evs, isDriveOf p ev = false) → getPin (replay ps evs) p = getPin ps p := by
  induction evs with
  | nil => intro ps _; rfl
  | cons ev evs ih =>
    intro ps h
    rw [replay_cons, ih _ fun e he => h e (List.mem_cons_of_mem _ he)]
    have hev := h ev List.mem_cons_self
    cases ev with
    | drive q v =>
      have hq : p ≠ q := by simpa [isDriveOf] using hev
      exact getPin_setPin_other ps v hq
    | sample _ => rfl
    | delay _ => rfl
    | bus _ _ => rfl
    | ret _ _ => rfl
    | halt _ => rfl

/-! ### The waveform -/

/-- One more event adds its pin's new level to the waveform, and nothing where the level stays. -/
theorem waveform_concat (p : Pin) (ev : Event) (evs : List Event) :
    ∀ ps : Pins, waveform p ps (evs ++ [ev]) =
      if getPin (applyEvent (replay ps evs) ev) p = getPin (replay ps evs) p then waveform p ps evs
      else waveform p ps evs ++ [getPin (applyEvent (replay ps evs) ev) p] := by
  induction evs with
  | nil =>
    intro ps
    simp only [List.nil_append, waveform, replay_nil]
    split <;> simp_all
  | cons x evs ih =>
    intro ps
    simp only [List.cons_append, waveform, replay_cons, ih]
    split <;> split <;> rfl

/-! ### The events of the operation in progress -/

theorem opStart_append_opEvents (evs : List Event) : opStart evs ++ opEvents evs = evs := by
  rw [opStart, opEvents, ← List.reverse_append, List.takeWhile_append_dropWhile,
    List.reverse_reverse]

/-- Events that are no returns belong to the operation in progress. -/
theorem opEvents_append (a : List Event) {b : List Event} (h : ∀ ev ∈ b, isRet ev = false) :
    opEvents (a ++ b) = opEvents a ++ b := by
  rw [opEvents, List.reverse_append, List.takeWhile_append_of_pos, List.reverse_append,
    List.reverse_reverse, opEvents]
  intro ev hev
  simp [h ev (List.mem_reverse.mp hev)]

/-- After a return no operation is in progress. -/
@[simp] theorem opEvents_ret (a : List Event) (op : OpName) (o : OpOutcome) :
    opEvents (a ++ [.ret op o]) = [] := by simp [opEvents, isRet]

@[simp] theorem opEvents_opStart (evs : List Event) : opEvents (opStart evs) = [] := by
  have h : ∀ l : List Event,
      (l.dropWhile fun ev => !isRet ev).takeWhile (fun ev => !isRet ev) = [] := by
    intro l
    induction l with
    | nil => rfl
    | cons ev l ih =>
      cases hev : isRet ev with
      | true => simp [hev]
      | false => simp [hev, ih]
  rw [opEvents, opStart, List.reverse_reverse, h]
  rfl

/-! ### The byte frame -/

theorem byteOfBits_bitsOf : ∀ v : Byte, byteOfBits ((bitsOf v).map (·.2)) = v := by decide +kernel

/-- The levels a byte frame leaves: clock high, data at bit 0, the rest as before. -/
def afterByte (ps : Pins) (v : Byte) : Pins :=
  { ps with sclk := .H, mosi := (bitLevel (v.getLsbD 0)).latch }

theorem replay_bitEvents (ps : Pins) (b : Bool) :
    replay ps (bitEvents b) = { ps with sclk := .H, mosi := (bitLevel b).latch } := rfl

theorem replay_byteEvents (ps : Pins) (v : Byte) : replay ps (byteEvents v) = afterByte ps v := by
  simp only [byteEvents, bitsOf, List.flatMap_cons, List.flatMap_nil, List.append_nil, replay_append,
    replay_bitEvents, afterByte]

theorem bitsOf_length (v : Byte) : (bitsOf v).length = 8 := rfl

theorem byteEvents_length (v : Byte) : (byteEvents v).length = 24 := rfl

theorem driveCount_append (a b : List Event) : driveCount (a ++ b) = driveCount a + driveCount b := by
  simp [driveCount, List.countP_append]

@[simp] theorem driveCount_nil : driveCount [] = 0 := rfl

@[simp] theorem driveCount_drive (p : Pin) (v : Level) (evs : List Event) :
    driveCount (.drive p v :: evs) = driveCount evs + 1 := by simp [driveCount]

@[simp] theorem driveCount_byteEvents (v : Byte) : driveCount (byteEvents v) = 24 := rfl

theorem driveCount_bytes (bytes : List Byte) :
    driveCount (bytes.flatMap byteEvents) = 24 * bytes.length := by
  induction bytes with
  | nil => rfl
  | cons v vs ih => rw [List.flatMap_cons, driveCount_append, ih, driveCount_byteEvents, List.length_cons]; omega

theorem driveCount_writeEvents (c : Config) (bytes : List Byte) :
    driveCount (writeEvents c bytes) = 2 + 24 * bytes.length := by
  simp [writeEvents, driveCount_append, driveCount_bytes]; omega

/-! ### Clock edges -/

theorem edgeCount_append (p : Pin) (v : Level) (a b : List Event) :
    ∀ ps, edgeCount p v ps (a ++ b) = edgeCount p v ps a + edgeCount p v (replay ps a) b := by
  induction a with
  | nil => intro ps; simp [edgeCount]
  | cons ev a ih => intro ps; simp [edgeCount, ih, Nat.add_assoc]

theorem rising_byteEvents (ps : Pins) (v : Byte) : edgeCount .sclk .H ps (byteEvents v) = 8 := by
  simp [byteEvents, bitsOf, bitEvents, edgeCount, isEdge, applyEvent, setPin, getPin, Level.latch, Level.not]

theorem falling_byteEvents (ps : Pins) (v : Byte) :
    edgeCount .sclk .L ps (byteEvents v) = if ps.sclk = .H then 8 else 7 := by
  simp [byteEvents, bitsOf, bitEvents, edgeCount, isEdge, applyEvent, setPin, getPin, Level.latch, Level.not]
  split <;> simp_all

theorem replay_bytes (bytes : List Byte) : ∀ ps : Pins,
    replay ps (bytes.flatMap byteEvents) =
      match bytes.getLast? with
      | none => ps
      | some v => afterByte ps v := by
  induction bytes with
  | nil => intro ps; rfl
  | cons v vs ih =>
    intro ps
    rw [List.flatMap_cons, replay_append, replay_byteEvents, ih]
    cases vs with
    | nil => rfl
    | cons w ws =>
      rw [List.getLast?_cons_cons]
      cases h : (w :: ws).getLast? with
      | none => simp at h
      | some u => rfl

theorem rising_bytes (bytes : List Byte) : ∀ ps : Pins,
    edgeCount .sclk .H ps (bytes.flatMap byteEvents) = 8 * bytes.length := by
  induction bytes with
  | nil => intro ps; rfl
  | cons v vs ih =>
    intro ps
    rw [List.flatMap_cons, edgeCount_append, rising_byteEvents, ih, List.length_cons]; omega

/-- The levels a write frame leaves (40_serial_bus.md rule R76 (e)). -/
theorem replay_writeEvents (c : Config) (ps : Pins) (bytes : List Byte) :
    replay ps (writeEvents c bytes) =
      match bytes.getLast? with
      | none => { ps with cs := c.csInactive.latch }
      | some v => { afterByte ps v with cs := c.csInactive.latch } := by
  rw [writeEvents, replay_cons, replay_append, replay_bytes]
  cases bytes.getLast? <;> rfl

/-! ### The receiver -/

/-- The bits and bytes a selected receiver has after a bit cell. -/
theorem rx_bit (c : Config) (x : Rx) (b : Bool) (h : x.pins.cs = c.csActive.latch) :
    (bitEvents b).foldl (Rx.event c) x =
      Rx.take c { x with pins := { x.pins with sclk := .H, mosi := (bitLevel b).latch } } := by
  cases x with
  | mk ps bits out => simp_all [bitEvents, Rx.event, isEdge, applyEvent, setPin, getPin, Level.latch, Level.not]

theorem mosi_bit (b : Bool) : decide ((bitLevel b).latch = .H) = b := by cases b <;> rfl

/-- The events of bit cells, one a bit. -/
def cellEvents (bits : List Bool) : List Event := bits.flatMap bitEvents

theorem byteEvents_eq (v : Byte) : byteEvents v = cellEvents ((bitsOf v).map (·.2)) := rfl

/-- Fewer than eight bits are kept, none dropped. -/
theorem rx_bits (c : Config) (bs : List Bool) : ∀ x : Rx, x.pins.cs = c.csActive.latch →
    x.bits.length + bs.length < 8 →
    (cellEvents bs).foldl (Rx.event c) x =
      { x with pins := replay x.pins (cellEvents bs), bits := x.bits ++ bs } := by
  induction bs with
  | nil => intro x _ _; simp [cellEvents]
  | cons b bs ih =>
    intro x h hl
    simp only [List.length_cons] at hl
    have h8 : ¬ (x.bits ++ [b]).length = 8 := by simp; omega
    have hb : cellEvents (b :: bs) = bitEvents b ++ cellEvents bs := rfl
    rw [hb, List.foldl_append, rx_bit c x b h, Rx.take]
    simp only [mosi_bit, if_neg h8]
    rw [ih _ (by exact h) (by simp; omega), replay_append, replay_bitEvents]
    simp

/-- A selected receiver takes a byte frame as its byte, tagged by the select line. -/
theorem rx_byte (c : Config) (ps : Pins) (out : List (Tag × Byte)) (v : Byte)
    (h : ps.cs = c.csActive.latch) :
    (byteEvents v).foldl (Rx.event c) ⟨ps, [], out⟩ =
      ⟨afterByte ps v, [], out ++ [(tagOf c ps.dc, v)]⟩ := by
  have hv := byteOfBits_bitsOf v
  have hr := replay_byteEvents ps v
  have hp : (replay ps (byteEvents v)).dc = ps.dc := by rw [hr]; rfl
  obtain ⟨bs, b, hb, hl⟩ : ∃ bs b, (bitsOf v).map (·.2) = bs ++ [b] ∧ bs.length = 7 :=
    ⟨[v.getLsbD 7, v.getLsbD 6, v.getLsbD 5, v.getLsbD 4, v.getLsbD 3, v.getLsbD 2, v.getLsbD 1],
      v.getLsbD 0, rfl, rfl⟩
  have he : byteEvents v = cellEvents bs ++ bitEvents b := by
    rw [byteEvents_eq, hb]; simp [cellEvents]
  have hcs : (replay ps (cellEvents bs)).cs = c.csActive.latch := by
    rw [← h]
    refine getPin_replay_of_not_driven .cs _ ps fun ev hev => ?_
    obtain ⟨a, -, ha⟩ := List.mem_flatMap.mp hev
    simp only [bitEvents, List.mem_cons, List.not_mem_nil, or_false] at ha
    rcases ha with rfl | rfl | rfl <;> rfl
  rw [he, replay_append, replay_bitEvents] at hr
  rw [he, replay_append, replay_bitEvents] at hp
  rw [he, List.foldl_append, rx_bits c bs ⟨ps, [], out⟩ h (by simp [hl]), rx_bit _ _ _ hcs, Rx.take]
  have h8 : (([] ++ bs) ++ [b]).length = 8 := by simp [hl]
  simp only [mosi_bit, if_pos h8]
  rw [List.nil_append, ← hb, hv, hr, ← hr]
  simp_all

theorem rx_bytes (c : Config) (bytes : List Byte) : ∀ (ps : Pins) (out : List (Tag × Byte)),
    ps.cs = c.csActive.latch →
    (bytes.flatMap byteEvents).foldl (Rx.event c) ⟨ps, [], out⟩ =
      ⟨replay ps (bytes.flatMap byteEvents), [], out ++ bytes.map fun v => (tagOf c ps.dc, v)⟩ := by
  induction bytes with
  | nil => intro ps out _; simp
  | cons v vs ih =>
    intro ps out h
    rw [List.flatMap_cons, List.foldl_append, rx_byte c ps out v h, replay_append, replay_byteEvents,
      ih _ _ (by exact h)]
    simp [afterByte]

/-- A receiver takes a write frame as its bytes, each tagged by the select line (30_encoding.md rule
R68, 40_serial_bus.md rule R76 (b)). -/
theorem rx_write (c : Config) (ps : Pins) (out : List (Tag × Byte)) (bytes : List Byte) :
    (writeEvents c bytes).foldl (Rx.event c) ⟨ps, [], out⟩ =
      ⟨replay ps (writeEvents c bytes), [], out ++ bytes.map fun v => (tagOf c ps.dc, v)⟩ := by
  have h1 : Rx.event c ⟨ps, [], out⟩ (.drive .cs c.csActive) =
      ⟨{ ps with cs := c.csActive.latch }, [], out⟩ := by
    simp [Rx.event, isEdge, applyEvent, setPin]
  have h2 : ∀ x : Rx, Rx.event c x (.drive .cs c.csInactive) =
      { x with pins := { x.pins with cs := c.csInactive.latch }, bits := [] } := by
    intro x; simp [Rx.event, isEdge, applyEvent, setPin]
  rw [writeEvents, List.foldl_cons, h1, List.foldl_append, rx_bytes c bytes _ _ rfl, replay_cons,
    replay_append]
  simp [h2, applyEvent, setPin]

/-- A drive of `DC` shows a receiver nothing. -/
theorem rx_dc (c : Config) (x : Rx) (v : Level) :
    Rx.event c x (.drive .dc v) = { x with pins := setPin x.pins .dc v } := by
  simp [Rx.event, isEdge, applyEvent]

end Sys2Proof.Machine
end

