-- ==== Sys2Proof/Laws/Sequence.lean ====
section
/-! SUPPORT. Laws of the sequences: which are drives only, and the events those drives make. -/

namespace Sys2Proof.Machine

/-- The events a sequence produces when each of its actions is done, one an action. -/
abbrev Follows (es : List Entry) (evs : List Event) : Prop :=
  List.Forall₂ (fun e ev => doneEvent e.act ev) es evs

theorem Follows.append {a b : List Entry} {x y : List Event} (h : Follows a x) (h' : Follows b y) :
    Follows (a ++ b) (x ++ y) := List.rel_append h h'

theorem Follows.flatMap {α : Type} {f : α → List Entry} {g : α → List Event} (l : List α)
    (h : ∀ a, Follows (f a) (g a)) : Follows (l.flatMap f) (l.flatMap g) := by
  induction l with
  | nil => exact .nil
  | cons a l ih => rw [List.flatMap_cons, List.flatMap_cons]; exact (h a).append ih

/-! ### The end of an operation -/

/-- To mark the last action as the end of an operation changes no action. -/
@[simp] theorem closed_acts (es : List Entry) : (closed es).map Entry.act = es.map Entry.act := by
  induction es with
  | nil => rfl
  | cons e es ih =>
    cases es with
    | nil => rfl
    | cons e' es => exact congrArg (e.act :: ·) ih

theorem mem_closed {es : List Entry} {x : Entry} (h : x ∈ closed es) : ∃ y ∈ es, y.act = x.act := by
  have : x.act ∈ (closed es).map Entry.act := List.mem_map_of_mem h
  rw [closed_acts] at this
  exact List.mem_map.mp this

@[simp] theorem closed_concat (es : List Entry) (e : Entry) :
    closed (es ++ [e]) = es ++ [{ e with ends := true }] := by
  induction es with
  | nil => rfl
  | cons x es ih =>
    cases es with
    | nil => rfl
    | cons y es => exact congrArg (x :: ·) ih

/-- Which events a sequence produces is a matter of its actions. -/
theorem Follows.of_acts {a b : List Entry} {evs : List Event} (h : Follows a evs)
    (hab : b.map Entry.act = a.map Entry.act) : Follows b evs := by
  induction h generalizing b with
  | nil => rw [List.map_nil, List.map_eq_nil_iff] at hab; subst hab; exact .nil
  | cons hd _ ih =>
    obtain ⟨y, b, rfl, hy, hb⟩ := List.map_eq_cons_iff.mp hab
    exact .cons (by rw [hy]; exact hd) (ih hb)

/-! ### Sequences whose samples may read high -/

theorem Follows.polled {es : List Entry} {evs : List Event} (h : Follows es evs) : Polled es evs := by
  induction h with
  | nil => exact .nil
  | cons hd _ ih => exact .done hd ih

theorem Polled.append {a b : List Entry} {x y : List Event} (h : Polled a x) (h' : Polled b y) :
    Polled (a ++ b) (x ++ y) := by
  induction h with
  | nil => exact h'
  | done hd _ ih => exact .done hd ih
  | poll ha _ ih => exact .poll ha ih

/-- A sequence that starts with a sample may poll any number of times more. -/
theorem Polled.polls {e : Entry} {es : List Entry} {evs : List Event} (h : Polled (e :: es) evs) :
    ∀ k, (k ≠ 0 → e.act = .sample) →
      Polled (e :: es) (List.replicate k (Event.sample .high) ++ evs)
  | 0, _ => h
  | k + 1, ha => .poll (ha (Nat.succ_ne_zero k)) (h.polls k fun _ => ha (Nat.succ_ne_zero k))

/-- Without samples in it a sequence has no polls. -/
theorem Polled.follows {es : List Entry} {evs : List Event} (h : Polled es evs)
    (hn : ∀ x ∈ es, x.act ≠ .sample) : Follows es evs := by
  induction h with
  | nil => exact .nil
  | done hd _ ih => exact .cons hd (ih fun x hx => hn x (List.mem_cons_of_mem _ hx))
  | poll ha _ _ => exact absurd ha (hn _ List.mem_cons_self)

/-- A done action is no sample that reads high. -/
theorem doneEvent_not_high {a : Act} (h : doneEvent a (.sample .high)) : False := by
  cases a with
  | drive p v => cases h
  | restore v => cases h
  | sample => rcases h with h | h <;> cases h
  | delay ms => cases h
  | bus bytes => cases h
  | raise f => exact h

/-- Without the samples that read high, the events are those of a sequence that was followed. -/
theorem Polled.quiet {es : List Entry} {evs : List Event} (h : Polled es evs) :
    Follows es (evs.filter (· ≠ .sample .high)) := by
  induction h with
  | nil => exact .nil
  | @done e es ev evs hd _ ih =>
    rw [List.filter_cons_of_pos]
    · exact .cons hd ih
    · exact decide_eq_true fun he => doneEvent_not_high (he ▸ hd)
  | poll ha _ ih => rwa [List.filter_cons_of_neg (by simp)]

/-! ### Samples that read high -/

theorem samplesOf_append (a b : List Event) : samplesOf (a ++ b) = samplesOf a ++ samplesOf b := by
  induction a with
  | nil => rfl
  | cons ev a ih => cases ev <;> simp [samplesOf, ih]

theorem highCount_append (a b : List Event) : highCount (a ++ b) = highCount a + highCount b := by
  simp [highCount, samplesOf_append]

@[simp] theorem highCount_nil : highCount [] = 0 := rfl

@[simp] theorem highCount_high (evs : List Event) :
    highCount (.sample .high :: evs) = highCount evs + 1 := by simp [highCount, samplesOf]

theorem highCount_done {a : Act} {ev : Event} (h : doneEvent a ev) (evs : List Event) :
    highCount (ev :: evs) = highCount evs := by
  cases ev with
  | sample r =>
    have : r ≠ .high := fun hr => doneEvent_not_high (hr ▸ h)
    simp [highCount, samplesOf, this]
  | _ => rfl

/-- A sequence that was followed has no sample that reads high. -/
theorem Follows.highCount {es : List Entry} {evs : List Event} (h : Follows es evs) :
    highCount evs = 0 := by
  induction h with
  | nil => rfl
  | cons hd _ ih => rw [highCount_done hd, ih]

theorem highCount_wait (k : Nat) {r : Sample} (hr : r ≠ .high) : highCount (waitEvents k r) = k := by
  induction k with
  | zero => simp [waitEvents, Machine.highCount, samplesOf, hr]
  | succ k ih =>
    have : waitEvents (k + 1) r = .sample .high :: waitEvents k r := rfl
    rw [this, highCount_high, ih]

/-! ### The wire formats -/

theorem bitCell_follows (pos : Pos) (b : Bool) : Follows (bitCell pos b) (bitEvents b) :=
  .cons rfl (.cons rfl (.cons rfl .nil))

theorem byteFrame_follows (pos : Pos) (v : Byte) : Follows (byteFrame pos v) (byteEvents v) :=
  .flatMap _ fun _ => bitCell_follows _ _

theorem byteFrames_follows (pos : Pos) (bytes : List Byte) :
    ∀ i, Follows (byteFrames pos i bytes) (bytes.flatMap byteEvents) := by
  induction bytes with
  | nil => intro i; exact .nil
  | cons v vs ih =>
    intro i
    rw [byteFrames, List.flatMap_cons]
    exact (byteFrame_follows _ v).append (ih (i + 1))

theorem writeFrame_follows (c : Config) (pos : Pos) (bytes : List Byte) :
    Follows (writeFrame c pos bytes) (writeEvents c bytes) :=
  .cons rfl ((byteFrames_follows pos bytes 0).append (.cons rfl .nil))

theorem busWrite_follows (c : Config) (pos : Pos) (bytes : List Byte) :
    Follows (busWrite c pos bytes) (callEvents c bytes) := by
  unfold busWrite callEvents
  cases c.busKind with
  | bitbang => exact writeFrame_follows c pos bytes
  | external => exact .cons rfl .nil

theorem diWrite_follows (c : Config) (pos : Pos) (bytes : List Byte) :
    Follows (diWrite c pos bytes) (chunkEvents c bytes) :=
  .flatMap _ fun _ => busWrite_follows c _ _

/-! ### Chunks (30_encoding.md rule R54, 41_display_interface.md rule R85) -/

theorem maxChunk_pos {c : Config} {m : Nat} (h : c.maxChunk = some m) : 0 < m := by
  unfold Config.maxChunk at h
  cases hp : c.chunkPred with
  | none => simp [hp] at h
  | some p => simp [hp] at h; omega

theorem chunks_nil (c : Config) : chunks c [] = [] := rfl

theorem chunks_single (c : Config) (v : Byte) : chunks c [v] = [(0, [v])] := by
  cases h : c.maxChunk with
  | none => simp [chunks, chunksFrom, h]
  | some m =>
    obtain ⟨k, rfl⟩ : ∃ k, m = k + 1 := ⟨m - 1, by have := maxChunk_pos h; omega⟩
    simp [chunks, chunksFrom, h]

theorem chunkEvents_single (c : Config) (v : Byte) : chunkEvents c [v] = callEvents c [v] := by
  simp [chunkEvents, chunks_single]

@[simp] theorem chunkEvents_nil (c : Config) : chunkEvents c [] = [] := rfl

theorem chunksFrom_flatten (limit : Option Nat) (hl : ∀ m, limit = some m → 0 < m) (fuel : Nat) :
    ∀ (off : Nat) (bytes : List Byte), bytes.length ≤ fuel →
      (chunksFrom limit fuel off bytes).flatMap (·.2) = bytes := by
  induction fuel with
  | zero => intro off bytes h; simp at h; subst h; rfl
  | succ f ih =>
    intro off bytes h
    cases bytes with
    | nil => rfl
    | cons b bs =>
      have hm : 0 < limit.getD (bs.length + 1) := by
        cases limit with
        | none => simp
        | some m => exact hl m rfl
      rw [chunksFrom, List.flatMap_cons, ih]
      · exact List.take_append_drop _ _
      · rw [List.length_drop]; simp only [List.length_cons] at h ⊢; omega

/-- The chunks cover the write exactly, in order. -/
theorem chunks_flatten (c : Config) (bytes : List Byte) : (chunks c bytes).flatMap (·.2) = bytes :=
  chunksFrom_flatten _ (fun _ h => maxChunk_pos h) _ _ _ (Nat.le_refl _)

/-- With a ceiling `m` there are `ceil(n / m)` chunks. -/
theorem chunksFrom_length_some (m : Nat) (hm : 0 < m) (fuel : Nat) :
    ∀ (off : Nat) (bytes : List Byte), bytes.length ≤ fuel →
      (chunksFrom (some m) fuel off bytes).length = (bytes.length + m - 1) / m := by
  induction fuel with
  | zero =>
    intro off bytes h
    simp at h
    subst h
    simp [chunksFrom]
    exact (Nat.div_eq_of_lt (by omega)).symm
  | succ f ih =>
    intro off bytes h
    cases bytes with
    | nil => simp [chunksFrom]; exact (Nat.div_eq_of_lt (by omega)).symm
    | cons b bs =>
      simp only [List.length_cons] at h
      rw [chunksFrom, List.length_cons, Option.getD_some,
        ih _ _ (by rw [List.length_drop, List.length_cons]; omega), List.length_drop, List.length_cons]
      by_cases hc : bs.length + 1 ≤ m
      · have h1 : bs.length + 1 - m + m - 1 = m - 1 := by omega
        rw [h1, Nat.div_eq_of_lt (show m - 1 < m by omega)]
        have h2 : bs.length + 1 + m - 1 = bs.length + m := by omega
        rw [h2, Nat.add_div_right _ hm, Nat.div_eq_of_lt (show bs.length < m by omega)]
      · have h1 : bs.length + 1 - m + m - 1 = bs.length := by omega
        have h2 : bs.length + 1 + m - 1 = bs.length + m := by omega
        rw [h1, h2, Nat.add_div_right _ hm]

/-- With no ceiling there is one chunk, and none for the empty write. -/
theorem chunksFrom_none (fuel : Nat) (off : Nat) (bytes : List Byte) (h : bytes.length ≤ fuel) :
    chunksFrom none fuel off bytes = if bytes = [] then [] else [(off, bytes)] := by
  cases fuel with
  | zero => simp at h; subst h; rfl
  | succ f =>
    cases bytes with
    | nil => rfl
    | cons b bs => 
      rw [chunksFrom, Option.getD_none, List.drop_of_length_le (by simp), List.take_of_length_le (by simp)]
      cases f <;> simp [chunksFrom]

/-- The number of chunks of `n` bytes (`ceil(n / MAX_CHUNK)`, 90_conflicts.md C11). -/
def chunkCount (c : Config) (n : Nat) : Nat :=
  match c.maxChunk with
  | none => if n = 0 then 0 else 1
  | some m => (n + m - 1) / m

theorem chunks_length (c : Config) (bytes : List Byte) :
    (chunks c bytes).length = chunkCount c bytes.length := by
  unfold chunks chunkCount
  cases h : c.maxChunk with
  | none =>
    rw [chunksFrom_none _ _ _ (Nat.le_refl _)]
    cases bytes <;> simp
  | some m => exact chunksFrom_length_some m (maxChunk_pos h) _ _ _ (Nat.le_refl _)

/-! ### Drive counts and what a receiver takes -/

theorem driveCount_flatMap_write (c : Config) (l : List (Nat × List Byte)) :
    driveCount (l.flatMap fun oc => writeEvents c oc.2) =
      2 * l.length + 24 * (l.flatMap (·.2)).length := by
  induction l with
  | nil => rfl
  | cons a l ih =>
    rw [List.flatMap_cons, driveCount_append, ih, driveCount_writeEvents, List.flatMap_cons,
      List.length_append, List.length_cons]
    omega

theorem callEvents_bitbang {c : Config} (hb : c.busKind = .bitbang) (bytes : List Byte) :
    callEvents c bytes = writeEvents c bytes := by rw [callEvents, hb]

theorem chunkEvents_bitbang {c : Config} (hb : c.busKind = .bitbang) (bytes : List Byte) :
    chunkEvents c bytes = (chunks c bytes).flatMap fun oc => writeEvents c oc.2 := by
  rw [chunkEvents]; congr 1; funext oc; exact callEvents_bitbang hb oc.2

theorem driveCount_chunkEvents {c : Config} (hb : c.busKind = .bitbang) (bytes : List Byte) :
    driveCount (chunkEvents c bytes) = 2 * chunkCount c bytes.length + 24 * bytes.length := by
  rw [chunkEvents_bitbang hb, driveCount_flatMap_write, chunks_length, chunks_flatten]

theorem replay_writeEvents_dc (c : Config) (ps : Pins) (bytes : List Byte) :
    (replay ps (writeEvents c bytes)).dc = ps.dc := by
  rw [replay_writeEvents]; cases bytes.getLast? <;> rfl

theorem rx_flatMap_write (c : Config) (l : List (Nat × List Byte)) :
    ∀ (ps : Pins) (out : List (Tag × Byte)),
      (l.flatMap fun oc => writeEvents c oc.2).foldl (Rx.event c) ⟨ps, [], out⟩ =
        ⟨replay ps (l.flatMap fun oc => writeEvents c oc.2), [],
          out ++ (l.flatMap (·.2)).map fun v => (tagOf c ps.dc, v)⟩ := by
  induction l with
  | nil => intro ps out; simp
  | cons a l ih =>
    intro ps out
    rw [List.flatMap_cons, List.foldl_append, rx_write, ih, replay_append, replay_writeEvents_dc,
      List.flatMap_cons]
    simp

@[simp] theorem tagOf_command (c : Config) : tagOf c c.dcCommand.latch = .cmd := by simp [tagOf]

@[simp] theorem tagOf_data (c : Config) : tagOf c c.dcData.latch = .data := by
  simp [tagOf, Config.dcData]

theorem chunkEvents_eq_fill (c : Config) (v : Byte) (n : Nat) :
    (List.replicate n (writeEvents c [v])).flatten =
      ((List.replicate n (0, [v])).flatMap fun oc : Nat × List Byte => writeEvents c oc.2) := by
  induction n with
  | zero => rfl
  | succ n ih => rw [List.replicate_succ, List.replicate_succ, List.flatten_cons, List.flatMap_cons, ih]

theorem fill_bytes (v : Byte) (n : Nat) :
    (List.replicate n ((0 : Nat), [v])).flatMap (·.2) = List.replicate n v := by
  induction n with
  | zero => rfl
  | succ n ih => rw [List.replicate_succ, List.flatMap_cons, ih, List.replicate_succ]; rfl

section bitbang

variable {c : Config} (hb : c.busKind = .bitbang)
include hb

/-- A receiver takes a logical write as its bytes, whatever the chunks are. -/
theorem rx_chunks (ps : Pins) (out : List (Tag × Byte)) (bytes : List Byte) :
    (chunkEvents c bytes).foldl (Rx.event c) ⟨ps, [], out⟩ =
      ⟨replay ps (chunkEvents c bytes), [], out ++ bytes.map fun v => (tagOf c ps.dc, v)⟩ := by
  rw [chunkEvents_bitbang hb, rx_flatMap_write, chunks_flatten]

/-- A receiver takes a command frame as its byte, tagged `cmd`. -/
theorem rx_cmd (ps : Pins) (out : List (Tag × Byte)) (v : Byte) :
    (cmdEvents c v).foldl (Rx.event c) ⟨ps, [], out⟩ =
      ⟨replay ps (cmdEvents c v), [], out ++ [(.cmd, v)]⟩ := by
  rw [cmdEvents, callEvents_bitbang hb, List.foldl_cons, rx_dc, List.foldl_append, rx_write, List.foldl_cons, rx_dc,
    List.foldl_nil, replay_cons, replay_append]
  simp [applyEvent, setPin]

/-- A receiver takes a data write as its bytes, tagged `data`. -/
theorem rx_data (ps : Pins) (out : List (Tag × Byte)) (bytes : List Byte) :
    (dataEvents c bytes).foldl (Rx.event c) ⟨ps, [], out⟩ =
      ⟨replay ps (dataEvents c bytes), [], out ++ bytes.map fun v => (.data, v)⟩ := by
  rw [dataEvents, List.foldl_cons, rx_dc, rx_chunks hb, replay_cons]
  simp [applyEvent, setPin]

theorem rx_cmdData (ps : Pins) (out : List (Tag × Byte)) (v : Byte) (bytes : List Byte) :
    (cmdDataEvents c v bytes).foldl (Rx.event c) ⟨ps, [], out⟩ =
      ⟨replay ps (cmdDataEvents c v bytes), [], out ++ (.cmd, v) :: bytes.map fun v => (.data, v)⟩ := by
  rw [cmdDataEvents, List.foldl_append, rx_cmd hb, rx_data hb, replay_append]
  simp

/-- A receiver takes a fill as so many bytes, tagged `data`. -/
theorem rx_fill (ps : Pins) (out : List (Tag × Byte)) (v : Byte) (n : Nat) :
    (fillEvents c v n).foldl (Rx.event c) ⟨ps, [], out⟩ =
      ⟨replay ps (fillEvents c v n), [], out ++ List.replicate n (.data, v)⟩ := by
  rw [fillEvents, callEvents_bitbang hb, List.foldl_cons, rx_dc, chunkEvents_eq_fill, rx_flatMap_write, replay_cons, fill_bytes]
  simp [applyEvent, setPin]

end bitbang

/-! ### The tier DI sequences -/

theorem resetEntries_follows (pos : Pos) :
    Follows (resetEntries pos) [.drive .rst .L, .delay 10, .drive .rst .H, .delay 10] :=
  .cons rfl (.cons rfl (.cons rfl (.cons rfl .nil)))

theorem waitEntries_follows (pos : Pos) {r : Sample} (hr : r ≠ .high) :
    Follows (waitEntries pos) [.sample r] := by
  refine .cons ?_ .nil
  cases r with
  | high => exact absurd rfl hr
  | low => exact .inl rfl
  | fail => exact .inr rfl

theorem waitEntries_polled (pos : Pos) (k : Nat) {r : Sample} (hr : r ≠ .high) :
    Polled (waitEntries pos) (waitEvents k r) :=
  (waitEntries_follows pos hr).polled.polls k fun _ => rfl

theorem cmdEntries_follows (c : Config) (pos : Pos) (v : Byte) :
    Follows (cmdEntries c pos v) (cmdEvents c v) := by
  rw [cmdEntries, cmdEvents, ← chunkEvents_single]
  exact .cons rfl ((diWrite_follows c pos [v]).append (.cons rfl .nil))

theorem dataEntries_follows (c : Config) (pos : Pos) (bytes : List Byte) :
    Follows (dataEntries c pos bytes) (dataEvents c bytes) :=
  Follows.of_acts (a := ⟨pos, .drive .dc c.dcData, false⟩ :: _)
    (.cons rfl (diWrite_follows c pos bytes)) (closed_acts _)

theorem cmdDataEntries_follows (c : Config) (pos : Pos) (v : Byte) (bytes : List Byte) :
    Follows (cmdDataEntries c pos v bytes) (cmdDataEvents c v bytes) :=
  (cmdEntries_follows c pos v).append (dataEntries_follows c pos bytes)

theorem fillWrites_follows (c : Config) (pos : Pos) (v : Byte) (n : Nat) :
    ∀ j, Follows (fillWrites c pos v j n) (List.replicate n (callEvents c [v])).flatten := by
  induction n with
  | zero => intro j; exact .nil
  | succ n ih =>
    intro j
    rw [fillWrites, List.replicate_succ, List.flatten_cons, ← chunkEvents_single]
    refine (diWrite_follows c _ [v]).append ?_
    rw [chunkEvents_single]
    exact ih (j + 1)

theorem fillEntries_follows (c : Config) (pos : Pos) (v : Byte) (n : Nat) :
    Follows (fillEntries c pos v n) (fillEvents c v n) :=
  Follows.of_acts (a := ⟨pos, .drive .dc c.dcData, false⟩ :: _)
    (.cons rfl (fillWrites_follows c pos v n 0)) (closed_acts _)

/-- An expansion produces what its operations produce, one after the other. -/
theorem expand_follows (c : Config) (os : List DiOp) (g : List (List Event))
    (h : List.Forall₂ (fun o evs => ∀ pos, Follows (diOpEntries c pos o) evs) os g) :
    ∀ k, Follows (expand c k os) g.flatten := by
  induction h with
  | nil => intro k; exact .nil
  | cons ho _ ih => intro k; rw [expand, List.flatten_cons]; exact (ho _).append (ih (k + 1))

/-- The same where samples may read high. -/
theorem expand_polled (c : Config) (os : List DiOp) (g : List (List Event))
    (h : List.Forall₂ (fun o evs => ∀ pos, Polled (diOpEntries c pos o) evs) os g) :
    ∀ k, Polled (expand c k os) g.flatten := by
  induction h with
  | nil => intro k; exact .nil
  | cons ho _ ih => intro k; rw [expand, List.flatten_cons]; exact (ho _).append (ih (k + 1))

end Sys2Proof.Machine
end

