-- ==== Sys2Proof/Laws/Run.lean ====
section
/-! SUPPORT. Laws of performing a sequence: what one action can do, what a run can end in, the run of a
sequence of drives that cannot fail, and issuing an operation. -/

namespace Sys2Proof.Machine

/-! ### One action -/

@[simp] theorem skipped_none (a : Act) : skipped none a = false := rfl

theorem performDrive_sure {s : State} (h : s.cfg.pinFail = false) (p : Pin) (v : Level) :
    performDrive p v s = .done (s.put p v) := by simp [performDrive, h]

theorem performDelay_returned {s : State} {d : List Bool} (h : s.env.delay = true :: d) (ms : Nat) :
    performDelay ms s = .done ((s.withEnv { s.env with delay := d }).log (.delay ms)) := by
  simp [performDelay, Env.nextDelay, h]

theorem performDelay_held {s : State} {d : List Bool} (h : s.env.delay = false :: d) (ms : Nat) :
    performDelay ms s = .wait (s.withEnv { s.env with delay := d }) := by
  simp [performDelay, Env.nextDelay, h]

theorem performSample_idle {s : State} {r : Sample} {b : List Sample} (h : s.env.busy = r :: b)
    (hr : r ≠ .high) :
    performSample s = .done ((s.withEnv { s.env with busy := b }).log (.sample r)) := by
  cases r with
  | high => exact absurd rfl hr
  | low => simp [performSample, Env.nextBusy, h]
  | fail => simp [performSample, Env.nextBusy, h]

theorem performSample_busy {s : State} {b : List Sample} (h : s.env.busy = .high :: b) :
    performSample s = .wait ((s.withEnv { s.env with busy := b }).log (.sample .high)) := by
  simp [performSample, Env.nextBusy, h]

theorem performBus_ok {s : State} {b : List BusAnswer} (h : s.env.bus = .ok :: b)
    (bytes : List Byte) :
    performBus bytes s = .done ((s.withEnv { s.env with bus := b }).log (.bus bytes .ok)) := by
  simp [performBus, Env.nextBus, h]

theorem performBus_err {s : State} {b : List BusAnswer} {e : BusError} (h : s.env.bus = .err e :: b)
    (bytes : List Byte) :
    performBus bytes s =
      .failed e ((s.withEnv { s.env with bus := b }).log (.bus bytes (.err e))) := by
  simp [performBus, Env.nextBus, h]

/-- Whether an action drives a pin. -/
def isDriveAct : Act → Bool
  | .drive _ _ => true
  | .restore _ => true
  | .sample => false
  | .delay _ => false
  | .bus _ => false
  | .raise _ => false

/-- What one action can do. -/
def Performed (a : Act) (s : State) : Progress → Prop
  | .done t => ∃ e ev, doneEvent a ev ∧ t = (s.withEnv e).emit [ev]
  | .failed x t => ∃ e bytes, a = .bus bytes ∧ t = (s.withEnv e).emit [.bus bytes (.err x)]
  | .wait t =>
    ∃ e, (a = .sample ∧ t = (s.withEnv e).emit [.sample .high]) ∨
      ((∃ ms, a = .delay ms) ∨ ∃ bytes, a = .bus bytes) ∧ t = s.withEnv e
  | .halted t =>
    ∃ e f, t = (s.withEnv e).halt f ∧
      (a = .raise f ∨ isDriveAct a = true ∧ ∃ p, f = .pinFault p)

theorem put_eq_emit (s : State) (p : Pin) (v : Level) : s.put p v = s.emit [.drive p v] := rfl

theorem performed_drive (p : Pin) (v : Level) (s : State) (a : Act)
    (ha : ∀ ev, ev = .drive p v → doneEvent a ev) (hd : isDriveAct a = true) :
    Performed a s (performDrive p v s) := by
  unfold performDrive
  split
  · split
    · exact ⟨_, _, rfl, .inr ⟨hd, p, rfl⟩⟩
    · exact ⟨_, _, ha _ rfl, rfl⟩
  · exact ⟨s.env, _, ha _ rfl, rfl⟩

theorem performed (a : Act) (s : State) : Performed a s (perform a s) := by
  cases a with
  | drive p v => exact performed_drive p v s _ (fun _ h => h) rfl
  | restore v => exact performed_drive .dc v s _ (fun _ h => h) rfl
  | sample =>
    show Performed _ s (performSample s)
    unfold performSample
    split
    · exact ⟨_, .inl ⟨rfl, rfl⟩⟩
    · exact ⟨_, _, .inl rfl, rfl⟩
    · exact ⟨_, _, .inr rfl, rfl⟩
  | delay ms =>
    show Performed _ s (performDelay ms s)
    unfold performDelay
    split
    · exact ⟨_, _, rfl, rfl⟩
    · exact ⟨_, .inr ⟨.inl ⟨ms, rfl⟩, rfl⟩⟩
  | bus bytes =>
    show Performed _ s (performBus bytes s)
    unfold performBus
    split
    · exact ⟨_, _, rfl, rfl⟩
    · exact ⟨_, _, rfl, rfl⟩
    · exact ⟨_, .inr ⟨.inr ⟨bytes, rfl⟩, rfl⟩⟩
  | raise f => exact ⟨s.env, f, rfl, .inl rfl⟩

/-! ### The end of an operation inside another -/

@[simp] theorem errorOf_outcomeOf (r : Option BusError) : errorOf (some (outcomeOf r)) = r := by
  cases r <;> rfl

@[simp] theorem passOn_fst (e : Entry) (r : Option BusError) (s : State) :
    (passOn e r s).1 = s.leave e.ends (outcomeOf r) := rfl

/-- The fail-fast test finds in `result` the error the operation that has just ended had. -/
@[simp] theorem passOn_snd (e : Entry) (r : Option BusError) (s : State) : (passOn e r s).2 = r := by
  unfold passOn State.failFast
  cases e.ends with
  | false => rfl
  | true => exact errorOf_outcomeOf r

/-- The state after the actions `es` were done: `result` is `ok` where an operation ended with one. -/
def State.did (es : List Entry) (s : State) : State := s.leave (es.any Entry.ends) .ok

@[simp] theorem State.did_nil (s : State) : s.did [] = s := rfl

theorem State.did_cons (e : Entry) (es : List Entry) (s : State) :
    (s.leave e.ends .ok).did es = s.did (e :: es) := by
  unfold State.did
  rw [List.any_cons]
  cases e.ends <;> cases es.any Entry.ends <;> rfl

theorem State.did_emit (es : List Entry) (s : State) (evs : List Event) :
    (s.did es).emit evs = (s.emit evs).did es := by
  unfold State.did; cases es.any Entry.ends <;> rfl

theorem State.did_withEnv (es : List Entry) (s : State) (e : Env) :
    (s.did es).withEnv e = (s.withEnv e).did es := by
  unfold State.did; cases es.any Entry.ends <;> rfl

@[simp] theorem State.did_finish (es : List Entry) (s : State) (op : OpName) (o : OpOutcome) :
    (s.did es).finish op o = s.finish op o := State.leave_finish ..

theorem State.did_did (a b : List Entry) (s : State) : (s.did a).did b = s.did (a ++ b) := by
  unfold State.did
  rw [List.any_append]
  cases a.any Entry.ends <;> cases b.any Entry.ends <;> rfl

@[simp] theorem State.did_result (es : List Entry) (s : State) :
    (s.did es).result = if es.any Entry.ends then some .ok else s.result := State.leave_result ..

@[simp] theorem State.did_cfg (es : List Entry) (s : State) : (s.did es).cfg = s.cfg := State.leave_cfg ..

@[simp] theorem State.did_pins (es : List Entry) (s : State) : (s.did es).pins = s.pins :=
  State.leave_pins ..

@[simp] theorem State.did_fault (es : List Entry) (s : State) : (s.did es).fault = s.fault :=
  State.leave_fault ..

@[simp] theorem State.did_seq (es : List Entry) (s : State) : (s.did es).seq = s.seq :=
  State.leave_seq ..

@[simp] theorem State.did_ctrlUnspecified (es : List Entry) (s : State) :
    (s.did es).ctrlUnspecified = s.ctrlUnspecified := State.leave_ctrlUnspecified ..

@[simp] theorem State.did_trace (es : List Entry) (s : State) : (s.did es).trace = s.trace :=
  State.leave_trace ..

@[simp] theorem State.did_port (es : List Entry) (s : State) : (s.did es).port = s.port :=
  State.leave_port ..

@[simp] theorem State.did_env (es : List Entry) (s : State) : (s.did es).env = s.env :=
  State.leave_env ..

/-! ### A run -/

@[simp] theorem run_nil (i : Instr) (n : Nat) (r : Option BusError) (s : State) :
    run i [] n r s = s.finish (opName i) (outcomeOf r) := rfl

theorem run_done {i : Instr} {e : Entry} {es : List Entry} {n : Nat} {r : Option BusError}
    {s s' : State} (hs : skipped r e.act = false) (h : perform e.act s = .done s') :
    run i (e :: es) n r s = run i es (n + 1) r (s'.leave e.ends (outcomeOf r)) := by
  simp [run, hs, h]

theorem run_failed {i : Instr} {e : Entry} {es : List Entry} {n : Nat} {r : Option BusError}
    {s s' : State} {x : BusError} (hs : skipped r e.act = false)
    (h : perform e.act s = .failed x s') :
    run i (e :: es) n r s = run i es (n + 1) (some x) s' := by simp [run, hs, h]

theorem run_wait {i : Instr} {e : Entry} {es : List Entry} {n : Nat} {r : Option BusError}
    {s s' : State} (hs : skipped r e.act = false) (h : perform e.act s = .wait s') :
    run i (e :: es) n r s = s'.suspend i e.pos n r := by simp [run, hs, h]

theorem run_halted {i : Instr} {e : Entry} {es : List Entry} {n : Nat} {r : Option BusError}
    {s s' : State} (hs : skipped r e.act = false) (h : perform e.act s = .halted s') :
    run i (e :: es) n r s = s'.suspend i e.pos n r := by simp [run, hs, h]

theorem run_skipped {i : Instr} {e : Entry} {es : List Entry} {n : Nat} {r : Option BusError}
    {s : State} (hs : skipped r e.act = true) :
    run i (e :: es) n r s = s.finish (opName i) (outcomeOf r) := by simp [run, hs]

theorem emit_emit (s : State) (a b : List Event) : (s.emit a).emit b = s.emit (a ++ b) := by
  simp [State.emit, replay_append]

@[simp] theorem emit_nil (s : State) : s.emit [] = s := by simp [State.emit]

@[simp] theorem withEnv_self (s : State) : s.withEnv s.env = s := rfl

@[simp] theorem withEnv_withEnv (s : State) (a b : Env) : (s.withEnv a).withEnv b = s.withEnv b := rfl

theorem emit_withEnv (s : State) (e : Env) (evs : List Event) :
    (s.emit evs).withEnv e = (s.withEnv e).emit evs := rfl

theorem leave_withEnv_emit (s : State) (ends : Bool) (o : OpOutcome) (e : Env) (evs : List Event) :
    ((s.leave ends o).withEnv e).emit evs = ((s.withEnv e).emit evs).leave ends o := by
  cases ends <;> rfl

/-! ### An environment that grants -/

theorem Grants.nil {c : Config} {e e' : Env} (h : Grants c [] e e') : e' = e := by
  obtain ⟨h1, h2, h3, h4, h5⟩ := h
  cases e; cases e'
  simp_all [driveCount, busCount, delayCount, samplesOf]

/-- Nothing is asked for drives that cannot fail. -/
theorem Grants.drives {c : Config} (hp : c.pinFail = false) (e : Env) {evs : List Event}
    (h : ∀ ev ∈ evs, ∃ p v, ev = .drive p v) : Grants c evs e e := by
  have hb : busCount evs = 0 := by
    rw [busCount, List.countP_eq_zero]; intro ev hev; obtain ⟨p, v, rfl⟩ := h ev hev; simp
  have hd : delayCount evs = 0 := by
    rw [delayCount, List.countP_eq_zero]; intro ev hev; obtain ⟨p, v, rfl⟩ := h ev hev; simp
  have hs : samplesOf evs = [] := by
    clear hb hd
    induction evs with
    | nil => rfl
    | cons ev evs ih =>
      obtain ⟨p, v, rfl⟩ := h ev List.mem_cons_self
      exact ih fun x hx => h x (List.mem_cons_of_mem _ hx)
  exact ⟨by simp [hp], by simp [hb], by simp [hd], by simp [hs], rfl⟩

/-- One action an environment grants: it is done. -/
theorem perform_granted {a : Act} {ev : Event} (hd : doneEvent a ev) {evs : List Event} {s : State}
    {e' : Env} (h : Grants s.cfg (ev :: evs) s.env e') :
    ∃ e, perform a s = .done ((s.withEnv e).emit [ev]) ∧ Grants s.cfg evs e e' := by
  obtain ⟨h1, h2, h3, h4, h5⟩ := h
  have hdrive : ∀ p v, ev = .drive p v →
      ∃ e, performDrive p v s = .done ((s.withEnv e).emit [ev]) ∧ Grants s.cfg evs e e' := by
    rintro p v rfl
    cases hp : s.cfg.pinFail with
    | false => 
      refine ⟨s.env, performDrive_sure hp p v, ?_, h2, h3, h4, h5⟩
      simpa [hp] using h1
    | true =>
      have h1' : s.env.pin =
          false :: (List.replicate (driveCount evs) false ++ e'.pin) := by
        simpa [hp, List.replicate_succ] using h1
      refine ⟨{ s.env with pin := List.replicate (driveCount evs) false ++ e'.pin }, ?_, ?_⟩
      · simp only [performDrive, hp, if_true, Env.nextPin, h1', Bool.false_eq_true, if_false]; rfl
      · exact ⟨by simp [hp], h2, h3, h4, h5⟩
  cases a with
  | drive p v => exact hdrive p v hd
  | restore v => exact hdrive .dc v hd
  | sample =>
    have hs : ∃ r, ev = .sample r ∧ r ≠ .high := by
      rcases hd with rfl | rfl
      · exact ⟨_, rfl, by decide⟩
      · exact ⟨_, rfl, by decide⟩
    obtain ⟨r, rfl, hr⟩ := hs
    exact ⟨_, performSample_idle h4 hr, by simpa [driveCount] using h1, h2, h3, rfl, h5⟩
  | delay ms =>
    cases hd
    have h3' : s.env.delay = true :: (List.replicate (delayCount evs) true ++ e'.delay) := by
      simpa [delayCount, List.replicate_succ] using h3
    exact ⟨_, performDelay_returned h3' ms, by simpa [driveCount] using h1, h2, rfl, h4, h5⟩
  | bus bytes =>
    cases hd
    have h2' : s.env.bus = .ok :: (List.replicate (busCount evs) .ok ++ e'.bus) := by
      simpa [busCount, List.replicate_succ] using h2
    exact ⟨_, performBus_ok h2' bytes, by simpa [driveCount] using h1, rfl, h3, h4, h5⟩
  | raise f => exact hd.elim

/-- Actions an environment grants are done, each with its event. -/
theorem run_granted (i : Instr) {es : List Entry} {evs : List Event} (hf : Follows es evs)
    (rest : List Entry) : ∀ (n : Nat) (s : State) (e' : Env), Grants s.cfg evs s.env e' →
      run i (es ++ rest) n none s =
        run i rest (n + es.length) none (((s.withEnv e').emit evs).did es) := by
  induction hf with
  | nil => intro n s e' h; rw [h.nil]; simp
  | cons hd _ ih =>
    intro n s e' h
    obtain ⟨e, hperf, hg⟩ := perform_granted hd h
    rw [List.cons_append, run_done (skipped_none _) hperf, ih _ _ e' (by simpa using hg),
      leave_withEnv_emit, outcomeOf, State.did_cons, emit_withEnv, withEnv_withEnv, emit_emit,
      List.length_cons]
    congr 1
    omega

/-- An operation whose every action is granted ends with `ok`. -/
theorem run_granted_all (i : Instr) {es : List Entry} {evs : List Event} (hf : Follows es evs)
    (n : Nat) (s : State) (e' : Env) (h : Grants s.cfg evs s.env e') :
    run i es n none s = ((s.withEnv e').emit evs).finish (opName i) .ok := by
  have := run_granted i hf [] n s e' h
  rw [List.append_nil] at this
  rw [this, run_nil, State.did_finish]; rfl

/-- A delay that returns. -/
theorem run_delay {i : Instr} {pos : Pos} {ms : Nat} {ends : Bool} {es : List Entry} {n : Nat}
    {s : State} {d : List Bool} (h : s.env.delay = true :: d) :
    run i (⟨pos, .delay ms, ends⟩ :: es) n none s =
      run i es (n + 1) none
        (((s.withEnv { s.env with delay := d }).emit [.delay ms]).leave ends .ok) :=
  run_done rfl (performDelay_returned h ms)

/-- A sample that is not high. -/
theorem run_sample {i : Instr} {pos : Pos} {ends : Bool} {es : List Entry} {n : Nat} {s : State}
    {r : Sample} {b : List Sample} (h : s.env.busy = r :: b) (hr : r ≠ .high) :
    run i (⟨pos, .sample, ends⟩ :: es) n none s =
      run i es (n + 1) none
        (((s.withEnv { s.env with busy := b }).emit [.sample r]).leave ends .ok) :=
  run_done rfl (performSample_idle h hr)

/-- A call of the external bus that is answered `ok`. -/
theorem run_bus_ok {i : Instr} {pos : Pos} {bytes : List Byte} {ends : Bool} {es : List Entry}
    {n : Nat} {s : State} {b : List BusAnswer} (h : s.env.bus = .ok :: b) :
    run i (⟨pos, .bus bytes, ends⟩ :: es) n none s =
      run i es (n + 1) none
        (((s.withEnv { s.env with bus := b }).emit [.bus bytes .ok]).leave ends .ok) :=
  run_done rfl (performBus_ok h bytes)

/-- A call of the external bus that is answered `err(e)`. -/
theorem run_bus_err {i : Instr} {pos : Pos} {bytes : List Byte} {ends : Bool} {es : List Entry}
    {n : Nat} {s : State} {b : List BusAnswer} {e : BusError} (h : s.env.bus = .err e :: b) :
    run i (⟨pos, .bus bytes, ends⟩ :: es) n none s =
      run i es (n + 1) (some e) ((s.withEnv { s.env with bus := b }).emit [.bus bytes (.err e)]) :=
  run_failed rfl (performBus_err h bytes)

/-- After a bus error the restore of `DC` is performed, with drives that cannot fail. -/
theorem run_restore {i : Instr} {pos : Pos} {v : Level} {ends : Bool} {es : List Entry} {n : Nat}
    {r : Option BusError} {s : State} (hp : s.cfg.pinFail = false) :
    run i (⟨pos, .restore v, ends⟩ :: es) n r s =
      run i es (n + 1) r ((s.emit [.drive .dc v]).leave ends (outcomeOf r)) :=
  run_done (by cases r <;> rfl) (performDrive_sure hp .dc v)

/-! ### Going on -/

/-- The result of an action with the sequencing position set afterwards. -/
def Progress.suspend (i : Instr) (pos : Pos) (n : Nat) (r : Option BusError) : Progress → Progress
  | .done s => .done (s.suspend i pos n r)
  | .failed e s => .failed e (s.suspend i pos n r)
  | .wait s => .wait (s.suspend i pos n r)
  | .halted s => .halted (s.suspend i pos n r)

theorem performDrive_suspend (p : Pin) (v : Level) (i : Instr) (pos : Pos) (n : Nat)
    (r : Option BusError) (s : State) :
    performDrive p v (s.suspend i pos n r) = (performDrive p v s).suspend i pos n r := by
  simp only [performDrive]
  show (if s.cfg.pinFail then if s.env.nextPin.1 then _ else _ else _) = _
  split
  · split <;> rfl
  · rfl

/-- An action does not look at the sequencing position. -/
theorem perform_suspend (a : Act) (i : Instr) (pos : Pos) (n : Nat) (r : Option BusError)
    (s : State) : perform a (s.suspend i pos n r) = (perform a s).suspend i pos n r := by
  cases a with
  | drive p v => exact performDrive_suspend ..
  | restore v => exact performDrive_suspend ..
  | sample =>
    simp only [perform, performSample, State.suspend_env]
    cases s.env.nextBusy.1 <;> rfl
  | delay ms =>
    simp only [perform, performDelay]
    show (if s.env.nextDelay.1 then _ else _) = _
    split <;> rfl
  | bus bytes =>
    simp only [perform, performBus, State.suspend_env]
    cases s.env.nextBus.1 <;> rfl
  | raise f => rfl

/-- A run does not look at the sequencing position it starts from. -/
theorem run_suspend (i : Instr) (es : List Entry) (pos : Pos) (m : Nat) (q : Option BusError) :
    ∀ (n : Nat) (r : Option BusError) (s : State),
      run i es n r (s.suspend i pos m q) = run i es n r s := by
  induction es with
  | nil => intro n r s; rfl
  | cons x es ih =>
    intro n r s
    simp only [run, perform_suspend]
    split
    · rfl
    · cases perform x.act s with
      | done t =>
        show run i es (n + 1) (passOn x r (t.suspend i pos m q)).2
          (passOn x r (t.suspend i pos m q)).1 = run i es (n + 1) (passOn x r t).2 (passOn x r t).1
        rw [passOn_snd, passOn_snd, passOn_fst, passOn_fst]
        cases x.ends with
        | false => exact ih _ _ t
        | true => exact ih _ _ (t.leave true (outcomeOf r))
      | failed e t => exact ih _ _ t
      | wait t => rfl
      | halted t => rfl

/-- An event of an action: no `Ret` and no `Halt`. -/
def isPlain : Event → Bool
  | .ret _ _ => false
  | .halt _ => false
  | .drive _ _ => true
  | .sample _ => true
  | .delay _ => true
  | .bus _ _ => true

theorem doneEvent_plain {a : Act} {ev : Event} (h : doneEvent a ev) : isPlain ev = true := by
  cases a with
  | drive p v => cases h; rfl
  | restore v => cases h; rfl
  | sample => rcases h with rfl | rfl <;> rfl
  | delay ms => cases h; rfl
  | bus bytes => cases h; rfl
  | raise f => exact h.elim

/-- The state with another `result`. -/
def State.withResult (s : State) (o : Option OpOutcome) : State := { s with result := o }

theorem State.leave_withResult (s : State) (ends : Bool) (o : OpOutcome) :
    s.leave ends o = s.withResult (if ends then some o else s.result) := by cases ends <;> rfl

@[simp] theorem State.withResult_finish (s : State) (q : Option OpOutcome) (op : OpName)
    (o : OpOutcome) : (s.withResult q).finish op o = s.finish op o := rfl

/-- What a run can end in: it has produced events of its actions, and then the operation has ended, or
is held at an action of the sequence, or the block has halted at one, with some `result` (`run_case` says
which). -/
inductive RunEnd (i : Instr) (es : List Entry) (n : Nat) (s : State) : State → Prop where
  | finished (e : Env) (evs : List Event) (r : Option BusError)
      (hp : ∀ ev ∈ evs, isPlain ev = true) :
      RunEnd i es n s (((s.withEnv e).emit evs).finish (opName i) (outcomeOf r))
  | held (e : Env) (evs : List Event) (m : Nat) (x : Entry) (r : Option BusError)
      (o : Option OpOutcome) (hp : ∀ ev ∈ evs, isPlain ev = true) (hm : es[m]? = some x)
      (hs : skipped r x.act = false)
      (ha : x.act = .sample ∨ (∃ ms, x.act = .delay ms) ∨ ∃ bytes, x.act = .bus bytes) :
      RunEnd i es n s ((((s.withEnv e).emit evs).withResult o).suspend i x.pos (n + m) r)
  | halted (e : Env) (evs : List Event) (f : Fatal) (m : Nat) (x : Entry) (r : Option BusError)
      (o : Option OpOutcome) (hp : ∀ ev ∈ evs, isPlain ev = true) (hm : es[m]? = some x)
      (hs : skipped r x.act = false) :
      RunEnd i es n s
        (((((s.withEnv e).emit evs).withResult o).halt f).suspend i x.pos (n + m) r)

theorem RunEnd.cons {i : Instr} {x : Entry} {es : List Entry} {n : Nat} {s t : State} {e : Env}
    {ev : Event} {q : Option OpOutcome} (hev : isPlain ev = true)
    (h : RunEnd i es (n + 1) (((s.withEnv e).emit [ev]).withResult q) t) :
    RunEnd i (x :: es) n s t := by
  have happ : ∀ (e' : Env) (evs : List Event),
      ((((s.withEnv e).emit [ev]).withResult q).withEnv e').emit evs =
        ((s.withEnv e').emit (ev :: evs)).withResult q := by
    intro e' evs
    show ((((s.withEnv e).emit [ev]).withEnv e').emit evs).withResult q = _
    rw [emit_withEnv, withEnv_withEnv, emit_emit]; rfl
  have hall : ∀ evs : List Event, (∀ ev ∈ evs, isPlain ev = true) →
      ∀ y ∈ ev :: evs, isPlain y = true := by
    intro evs h y hy
    rcases List.mem_cons.mp hy with rfl | hy
    · exact hev
    · exact h y hy
  cases h with
  | finished e' evs r hp =>
    rw [happ, State.withResult_finish]; exact .finished e' _ r (hall _ hp)
  | held e' evs m y r o hp hm hs ha =>
    rw [happ, Nat.add_assoc, Nat.add_comm 1 m]
    exact .held e' _ (m + 1) y r o (hall _ hp) (by simpa using hm) hs ha
  | halted e' evs f m y r o hp hm hs =>
    rw [happ, Nat.add_assoc, Nat.add_comm 1 m]
    exact .halted e' _ f (m + 1) y r o (hall _ hp) (by simpa using hm) hs

/-- Every run ends in one of the three ways. -/
theorem run_end (i : Instr) (es : List Entry) :
    ∀ (n : Nat) (r : Option BusError) (s : State), RunEnd i es n s (run i es n r s) := by
  induction es with
  | nil =>
    intro n r s
    have := RunEnd.finished (i := i) (es := []) (n := n) (s := s) s.env [] r (by simp)
    simpa using this
  | cons x es ih =>
    intro n r s
    cases hs : skipped r x.act with
    | true =>
      rw [run_skipped hs]
      have := RunEnd.finished (i := i) (es := x :: es) (n := n) (s := s) s.env [] r (by simp)
      simpa using this
    | false =>
      have hp := performed x.act s
      cases h : perform x.act s with
      | done s' =>
        rw [h] at hp
        obtain ⟨e, ev, hev, rfl⟩ := hp
        rw [run_done hs h, State.leave_withResult]
        exact .cons (doneEvent_plain hev) (ih _ _ _)
      | failed y s' =>
        rw [h] at hp
        obtain ⟨e, bytes, -, rfl⟩ := hp
        rw [run_failed hs h]
        exact RunEnd.cons (e := e) (ev := .bus bytes (.err y)) (q := s.result) rfl
          (ih (n + 1) (some y) ((s.withEnv e).emit [.bus bytes (.err y)]))
      | wait s' =>
        rw [h] at hp
        obtain ⟨e, ⟨ha, rfl⟩ | ⟨ha, rfl⟩⟩ := hp
        · rw [run_wait hs h]
          exact RunEnd.held e [.sample .high] 0 x r s.result (by simp [isPlain]) (by simp) hs (.inl ha)
        · rw [run_wait hs h]
          have := RunEnd.held (i := i) (es := x :: es) (n := n) (s := s) e [] 0 x r
            s.result (by simp) (by simp) hs (.inr ha)
          rw [emit_nil] at this
          exact this
      | halted s' =>
        rw [h] at hp
        obtain ⟨e, f, rfl, -⟩ := hp
        rw [run_halted hs h]
        have := RunEnd.halted (i := i) (es := x :: es) (n := n) (s := s) e [] f 0 x r
          s.result (by simp) (by simp) hs
        rw [emit_nil] at this
        exact this

/-! ### Issuing an operation -/

/-- When an operation is accepted: the block is ready, the byte list fits, the sequencer accepts it. -/
theorem issue_ready {i : Instr} {s : State} (h : s.Ready) (hw : i.wf = true)
    (ha : accepts s.seq (opName i) = true) :
    issue i s = .next (run i (planOf s.cfg i) 0 none (s.enter (opName i))) := by
  simp [issue, h.notHalted, h.idle, hw, ha]

/-- An operation that answers a next state was accepted, and ran. -/
theorem issue_next {i : Instr} {s t : State} (h : issue i s = .next t) :
    s.Ready ∧ i.wf = true ∧ accepts s.seq (opName i) = true ∧
      t = run i (planOf s.cfg i) 0 none (s.enter (opName i)) := by
  unfold issue at h
  split at h
  · cases h
  · rename_i hf
    split at h
    · cases h
    · rename_i hpc
      split at h
      · cases h
      · rename_i hw
        split at h
        · cases h
        · rename_i ha
          cases h
          exact ⟨⟨hf, by simpa using hpc⟩, by simpa using hw, by simpa using ha, rfl⟩

/-- In a halted block every operation is a fault. -/
theorem issue_halted {i : Instr} {s : State} {f : Fatal} (h : s.fault = some f) :
    issue i s = .fault (.halted f) := by simp [issue, h]

/-- The gate of the sequencer (42_controller_sequences.md rule R105). -/
theorem issue_notAccepted {i : Instr} {s : State} (h : s.Ready) (hw : i.wf = true)
    (ha : accepts s.seq (opName i) = false) : issue i s = .refused (.notAccepted s.seq) := by
  simp [issue, h.notHalted, h.idle, hw, ha]

end Sys2Proof.Machine
end

