-- ==== Sys2Proof/Laws/Exec.lean ====
section
/-! SUPPORT. Every meaning issues its instruction, and one step is a run: what the provers cite instead
of unfolding the dispatch. -/

namespace Sys2Proof.Machine

/-- Every arm of the dispatch issues its instruction. -/
theorem exec_eq_issue (i : Instr) (s : State) : exec i s = issue i s := by cases i <;> rfl

/-- What an instruction that answers a next state did. -/
theorem exec_next {i : Instr} {s t : State} (h : exec i s = .next t) :
    s.Ready ∧ i.wf = true ∧ accepts s.seq (opName i) = true ∧
      t = run i (planOf s.cfg i) 0 none (s.enter (opName i)) :=
  issue_next (exec_eq_issue i s ▸ h)

/-- An accepted instruction runs its sequence. -/
theorem exec_ready {i : Instr} {s : State} (h : s.Ready) (hw : i.wf = true)
    (ha : accepts s.seq (opName i) = true) :
    exec i s = .next (run i (planOf s.cfg i) 0 none (s.enter (opName i))) :=
  exec_eq_issue i s ▸ issue_ready h hw ha

/-- An accepted instruction whose every action the environment grants ends with `ok`. -/
theorem exec_granted {i : Instr} {s : State} {evs : List Event} {e' : Env} (h : s.Ready)
    (hw : i.wf = true) (ha : accepts s.seq (opName i) = true) (hf : Follows (planOf s.cfg i) evs)
    (hg : Grants s.cfg evs s.env e') :
    exec i s =
      .next ((((s.enter (opName i)).withEnv e').emit evs).finish (opName i) .ok) := by
  rw [exec_ready h hw ha, run_granted_all i hf 0 (s.enter (opName i)) e' hg]

/-- For an operation the gate does not apply to, that is the completed state. -/
theorem exec_granted_ungated {i : Instr} {s : State} {evs : List Event} {e' : Env} (h : s.Ready)
    (hw : i.wf = true) (hu : seqClass (opName i) = .ungated) (hf : Follows (planOf s.cfg i) evs)
    (hg : Grants s.cfg evs s.env e') :
    exec i s = .next ((s.withEnv e').completed (opName i) evs .ok) := by
  rw [exec_granted h hw (by simp [accepts, hu]) hf hg]
  simp [State.finish, State.emit, State.completed, State.enter, State.withEnv, seqEnter, seqLeave,
    markLeave, hu]

/-- What a step that answers a next state did. -/
inductive StepCase (s : State) : State → Prop where
  | waited (hi : s.pc = .idle) (hq : s.port = []) : StepCase s s
  | stopped (l : Line) (rest : List Line) (hi : s.pc = .idle) (hq : s.port = l :: rest)
      (hl : lineStops s.result l = true) : StepCase s { s with port := [] }
  | resumed (i : Instr) (pos : Pos) (n : Nat) (r : Option BusError)
      (hp : s.pc = .running i pos n r) : StepCase s (resume i n r s)
  | performed (l : Line) (rest : List Line) (i : Instr) (t : State) (hi : s.pc = .idle)
      (hq : s.port = l :: rest) (hl : lineStops s.result l = false)
      (hd : decodeRequest s.cfg l.request = .ok i)
      (he : exec i { s with port := rest } = .next t) : StepCase s t

theorem step_next {s t : State} (h : step s = .next t) : s.fault = none ∧ StepCase s t := by
  unfold step at h
  split at h
  · cases h
  · cases h; exact ⟨‹_›, .resumed _ _ _ _ ‹_›⟩
  · cases h; exact ⟨‹_›, .waited ‹_› ‹_›⟩
  · split at h
    · cases h; exact ⟨‹_›, .stopped _ _ ‹_› ‹_› ‹_›⟩
    · split at h
      · cases h
      · exact ⟨‹_›, .performed _ _ _ _ ‹_› ‹_› (by simpa using ‹¬ lineStops _ _ = true›) ‹_› h⟩

/-- A step of an operation in progress goes on with it. -/
theorem step_running {s : State} {i : Instr} {pos : Pos} {n : Nat} {r : Option BusError}
    (hf : s.fault = none) (hp : s.pc = .running i pos n r) : step s = .next (resume i n r s) := by
  simp [step, hf, hp]

/-- A run of the machine whose first step answers a next state. -/
theorem core_run_succ {s t : State} (h : step s = .next t) (k : Nat) :
    core.run (k + 1) s = core.run k t := by
  have hM : ∀ (M : Host.Core) (s t : M.State), M.step s = .next t → M.run (k + 1) s = M.run k t := by
    intro M s t h; simp [Host.Core.run, h]
  exact hM core s t h

theorem core_run_zero (s : State) : core.run 0 s = .next s := rfl

/-! ### Waits that read high -/

/-- Actions an environment grants are done; each sample that reads high takes one step more. -/
theorem run_polled (i : Instr) {es : List Entry} {evs : List Event} (hp : Polled es evs)
    (rest : List Entry) : ∀ (n k : Nat) (s : State) (e' : Env), s.fault = none →
      (planOf s.cfg i).drop n = es ++ rest → Grants s.cfg evs s.env e' →
      core.run (highCount evs + k) (run i (es ++ rest) n none s) =
        core.run k (run i rest (n + es.length) none (((s.withEnv e').emit evs).did es)) := by
  induction hp with
  | nil =>
    intro n k s e' hf hd h
    rw [h.nil]
    simp [highCount, samplesOf]
  | @done x es ev evs hd hp ih =>
    intro n k s e' hf hpl h
    obtain ⟨e, hperf, hg⟩ := perform_granted hd h
    have hpl' : (planOf s.cfg i).drop (n + 1) = es ++ rest := by
      have := congrArg List.tail hpl
      rwa [List.tail_drop, List.cons_append, List.tail_cons] at this
    rw [List.cons_append, run_done (skipped_none _) hperf, highCount_done hd,
      ih (n + 1) k _ e' (by simpa using hf) (by simpa using hpl') (by simpa using hg),
      leave_withEnv_emit, outcomeOf, State.did_cons, emit_withEnv, withEnv_withEnv, emit_emit,
      List.length_cons]
    congr 2
    omega
  | @poll x es evs ha hp ih =>
    intro n k s e' hf hpl h
    obtain ⟨h1, h2, h3, h4, h5⟩ := h
    have hperf : perform x.act s = .wait
        ((s.withEnv { s.env with busy := samplesOf evs ++ e'.busy }).emit [.sample .high]) := by
      rw [ha]; exact performSample_busy h4
    have hh : highCount (.sample .high :: evs) + k = highCount evs + k + 1 := by
      rw [highCount_high]; omega
    have hg : Grants s.cfg evs { s.env with busy := samplesOf evs ++ e'.busy } e' :=
      ⟨by simpa [driveCount] using h1, by simpa [busCount] using h2,
        by simpa [delayCount] using h3, rfl, h5⟩
    rw [List.cons_append, run_wait (skipped_none _) hperf, hh,
      core_run_succ (step_running (by exact hf) rfl), resume, run_suspend]
    show core.run _ (run i ((planOf s.cfg i).drop n) n none _) = _
    rw [hpl, ih n k _ e' (by exact hf) (by exact hpl) hg, emit_withEnv, withEnv_withEnv, emit_emit]
    rfl

/-- An accepted instruction whose every action the environment grants ends with `ok`, after as many steps
more as samples read high. -/
theorem exec_polled {i : Instr} {s : State} {evs : List Event} {e' : Env} (h : s.Ready)
    (hw : i.wf = true) (ha : accepts s.seq (opName i) = true) (hp : Polled (planOf s.cfg i) evs)
    (hg : Grants s.cfg evs s.env e') :
    ∃ t, exec i s = .next t ∧ core.run (highCount evs) t =
      .next ((((s.enter (opName i)).withEnv e').emit evs).finish (opName i) .ok) := by
  refine ⟨_, exec_ready h hw ha, ?_⟩
  have := run_polled i hp [] 0 0 (s.enter (opName i)) e' (by exact h.notHalted)
    (by rw [List.append_nil]; rfl) hg
  rw [List.append_nil, run_nil, State.did_finish] at this
  exact this

/-- An instruction whose actions up to one the environment grants runs up to that action. -/
theorem exec_polled_to {i : Instr} {s : State} {es rest : List Entry} {evs : List Event} {e' : Env}
    (h : s.Ready) (hw : i.wf = true) (ha : accepts s.seq (opName i) = true)
    (hes : planOf s.cfg i = es ++ rest) (hp : Polled es evs) (hg : Grants s.cfg evs s.env e') :
    ∃ t, exec i s = .next t ∧ core.run (highCount evs) t =
      .next (run i rest es.length none ((((s.enter (opName i)).withEnv e').emit evs).did es)) := by
  refine ⟨_, exec_ready h hw ha, ?_⟩
  have := run_polled i hp rest 0 0 (s.enter (opName i)) e' (by exact h.notHalted) hes hg
  rw [Nat.zero_add] at this
  rw [hes]
  exact this

end Sys2Proof.Machine
end

