-- ==== Sys2Proof/Laws/Inversion.lean ====
section
/-! SUPPORT. Everything a run can do, said once: it followed its sequence to the end, or up to an
action that holds it, halts it, or fails on the bus; and what a run does after a bus error. -/

namespace Sys2Proof.Machine

/-- The pin an action drives. -/
def drivenPin : Act → Option Pin
  | .drive p _ => some p
  | .restore _ => some .dc
  | .sample => none
  | .delay _ => none
  | .bus _ => none
  | .raise _ => none

/-- An action at which the environment can hold an operation, and what it adds to the trace there. -/
def HeldAt (a : Act) (extra : List Event) : Prop :=
  (a = .sample ∧ extra = [.sample .high]) ∨
    (((∃ ms, a = .delay ms) ∨ ∃ bytes, a = .bus bytes) ∧ extra = [])

/-- What a run that has met no bus error yet can do. -/
inductive RunCase (i : Instr) (es : List Entry) (n : Nat) (s : State) : State → Prop where
  | ended (e : Env) (evs : List Event) (h : Follows es evs) :
      RunCase i es n s (((s.withEnv e).emit evs).finish (opName i) .ok)
  | held (e : Env) (evs extra : List Event) (a b : List Entry) (x : Entry)
      (hes : es = a ++ x :: b) (h : Follows a evs) (hx : HeldAt x.act extra) :
      RunCase i es n s
        ((((s.withEnv e).emit (evs ++ extra)).did a).suspend i x.pos (n + a.length) none)
  | halted (e : Env) (evs : List Event) (f : Fatal) (a b : List Entry) (x : Entry)
      (hes : es = a ++ x :: b) (h : Follows a evs)
      (hx : x.act = .raise f ∨ ∃ p, drivenPin x.act = some p ∧ f = .pinFault p) :
      RunCase i es n s
        (((((s.withEnv e).emit evs).did a).halt f).suspend i x.pos (n + a.length) none)
  | failed (e : Env) (evs : List Event) (err : BusError) (bytes : List Byte) (a b : List Entry)
      (x : Entry) (hes : es = a ++ x :: b) (h : Follows a evs) (hx : x.act = .bus bytes) :
      RunCase i es n s (run i b (n + a.length + 1) (some err)
        (((s.withEnv e).emit (evs ++ [.bus bytes (.err err)])).did a))

theorem RunCase.cons {i : Instr} {x : Entry} {es : List Entry} {n : Nat} {s t : State} {e : Env}
    {ev : Event} (hev : doneEvent x.act ev)
    (h : RunCase i es (n + 1) (((s.withEnv e).emit [ev]).leave x.ends .ok) t) :
    RunCase i (x :: es) n s t := by
  have happ : ∀ (e' : Env) (evs : List Event),
      ((((s.withEnv e).emit [ev]).leave x.ends .ok).withEnv e').emit evs =
        ((s.withEnv e').emit (ev :: evs)).leave x.ends .ok := by
    intro e' evs
    rw [leave_withEnv_emit, emit_withEnv, withEnv_withEnv, emit_emit]; rfl
  have hn : ∀ a : List Entry, n + 1 + a.length = n + (x :: a).length := by
    intro a; rw [List.length_cons]; omega
  cases h with
  | ended e' evs h => rw [happ, State.leave_finish]; exact .ended e' _ (.cons hev h)
  | held e' evs extra a b y hes h hx =>
    rw [happ, hn, State.did_cons]; subst hes
    exact .held e' (ev :: evs) extra (x :: a) b y rfl (.cons hev h) hx
  | halted e' evs f a b y hes h hx =>
    rw [happ, hn, State.did_cons]; subst hes
    exact .halted e' (ev :: evs) f (x :: a) b y rfl (.cons hev h) hx
  | failed e' evs err bytes a b y hes h hx =>
    rw [happ, hn, State.did_cons]; subst hes
    exact .failed e' (ev :: evs) err bytes (x :: a) b y rfl (.cons hev h) hx

/-- A failed drive names its own pin. -/
theorem perform_halted {a : Act} {s t : State} (h : perform a s = .halted t) :
    ∃ e f, t = (s.withEnv e).halt f ∧
      (a = .raise f ∨ ∃ p, drivenPin a = some p ∧ f = .pinFault p) := by
  have hd : ∀ p v, performDrive p v s = .halted t →
      ∃ e, t = (s.withEnv e).halt (.pinFault p) := by
    intro p v hp
    unfold performDrive at hp
    split at hp
    · split at hp
      · cases hp; exact ⟨_, rfl⟩
      · cases hp
    · cases hp
  cases a with
  | drive p v => obtain ⟨e, he⟩ := hd p v h; exact ⟨e, _, he, .inr ⟨p, rfl, rfl⟩⟩
  | restore v => obtain ⟨e, he⟩ := hd .dc v h; exact ⟨e, _, he, .inr ⟨.dc, rfl, rfl⟩⟩
  | sample =>
    change performSample s = _ at h
    unfold performSample at h
    split at h <;> cases h
  | delay ms =>
    change performDelay ms s = _ at h
    unfold performDelay at h
    split at h <;> cases h
  | bus bytes =>
    change performBus bytes s = _ at h
    unfold performBus at h
    split at h <;> cases h
  | raise f => cases h; exact ⟨s.env, f, rfl, .inl rfl⟩

/-- Every run that has met no bus error yet does one of the four things. -/
theorem run_case (i : Instr) (es : List Entry) :
    ∀ (n : Nat) (s : State), RunCase i es n s (run i es n none s) := by
  induction es with
  | nil => intro n s; simpa [outcomeOf] using RunCase.ended (i := i) (n := n) (s := s) s.env [] .nil
  | cons x es ih =>
    intro n s
    have hp := performed x.act s
    cases h : perform x.act s with
    | done s' =>
      rw [h] at hp
      obtain ⟨e, ev, hev, rfl⟩ := hp
      rw [run_done (skipped_none _) h]
      exact .cons hev (ih _ _)
    | failed y s' =>
      rw [h] at hp
      obtain ⟨e, bytes, ha, rfl⟩ := hp
      rw [run_failed (skipped_none _) h]
      exact .failed e [] y bytes [] es x rfl .nil ha
    | wait s' =>
      rw [h] at hp
      obtain ⟨e, ⟨ha, rfl⟩ | ⟨ha, rfl⟩⟩ := hp
      · rw [run_wait (skipped_none _) h]
        exact .held e [] _ [] es x rfl .nil (.inl ⟨ha, rfl⟩)
      · rw [run_wait (skipped_none _) h]
        simpa using RunCase.held (i := i) (n := n) (s := s) e [] [] [] es x rfl .nil (.inr ⟨ha, rfl⟩)
    | halted s' =>
      rw [run_halted (skipped_none _) h]
      obtain ⟨e, f, rfl, hf⟩ := perform_halted h
      simpa using RunCase.halted (i := i) (n := n) (s := s) e [] f [] es x rfl .nil hf

/-! ### After a bus error -/

/-- Whether an action is the restore of `DC`. -/
def isRestore : Act → Bool
  | .restore _ => true
  | .drive _ _ => false
  | .sample => false
  | .delay _ => false
  | .bus _ => false
  | .raise _ => false

theorem skipped_some (x : BusError) (a : Act) : skipped (some x) a = !isRestore a := by
  cases a <;> rfl

/-- A sequence does not start with a restore. -/
def PlainStart : List Entry → Prop
  | [] => True
  | e :: _ => isRestore e.act = false

/-- Every restore in a sequence drives `DC` to the data state, and no two follow each other. -/
def RestoresOk (c : Config) : List Entry → Prop
  | [] => True
  | e :: es => (isRestore e.act = true → e.act = .restore c.dcData ∧ PlainStart es) ∧ RestoresOk c es

theorem PlainStart.append {a b : List Entry} (ha : PlainStart a) (hb : PlainStart b) :
    PlainStart (a ++ b) := by
  cases a with
  | nil => exact hb
  | cons e a => exact ha

theorem RestoresOk.append {c : Config} {a b : List Entry} (ha : RestoresOk c a)
    (hb : RestoresOk c b) (hp : PlainStart b) : RestoresOk c (a ++ b) := by
  induction a with
  | nil => exact hb
  | cons e a ih =>
    refine ⟨fun he => ⟨(ha.1 he).1, ?_⟩, ih ha.2⟩
    exact (ha.1 he).2.append hp

theorem RestoresOk.right {c : Config} {b : List Entry} :
    ∀ a : List Entry, RestoresOk c (a ++ b) → RestoresOk c b
  | [], h => h
  | _ :: a, h => RestoresOk.right a h.2

/-- A sequence with no restore in it. -/
theorem RestoresOk.of_plain {c : Config} {es : List Entry}
    (h : ∀ e ∈ es, isRestore e.act = false) : RestoresOk c es := by
  induction es with
  | nil => trivial
  | cons e es ih =>
    have he := h e List.mem_cons_self
    exact ⟨fun ht => by simp [he] at ht, ih fun x hx => h x (List.mem_cons_of_mem _ hx)⟩

theorem PlainStart.of_plain {es : List Entry} (h : ∀ e ∈ es, isRestore e.act = false) :
    PlainStart es := by
  cases es with
  | nil => trivial
  | cons e es => exact h e List.mem_cons_self

/-- What a run does after a bus error: it ends with that error at once; or it restores `DC` and ends
with that error; or the block halts at the restore. -/
inductive ErrorCase (i : Instr) (c : Config) (es : List Entry) (n : Nat) (err : BusError) (s : State) :
    State → Prop where
  | ended (h : PlainStart es) : ErrorCase i c es n err s (s.finish (opName i) (.err err))
  | restored (e : Env) (x : Entry) (es' : List Entry) (hes : es = x :: es')
      (hx : x.act = .restore c.dcData) : ErrorCase i c es n err s
        (((s.withEnv e).emit [.drive .dc c.dcData]).finish (opName i) (.err err))
  | halted (e : Env) (x : Entry) (es' : List Entry) (hes : es = x :: es')
      (hx : x.act = .restore c.dcData) : ErrorCase i c es n err s
        (((s.withEnv e).halt (.pinFault .dc)).suspend i x.pos n (some err))

theorem run_plainStart {i : Instr} {es : List Entry} (h : PlainStart es) (n : Nat) (err : BusError)
    (s : State) : run i es n (some err) s = s.finish (opName i) (.err err) := by
  cases es with
  | nil => rfl
  | cons e es =>
    rw [run_skipped]
    · rfl
    · rw [skipped_some]; simp [show isRestore e.act = false from h]

/-- What a run does after a bus error. -/
theorem error_case (i : Instr) {c : Config} {es : List Entry} (h : RestoresOk c es) (n : Nat)
    (err : BusError) (s : State) : ErrorCase i c es n err s (run i es n (some err) s) := by
  cases es with
  | nil => exact .ended trivial
  | cons x es =>
    cases hr : isRestore x.act with
    | false =>
      rw [run_plainStart (show PlainStart (x :: es) from hr)]; exact .ended hr
    | true =>
      obtain ⟨hx, hp⟩ := h.1 hr
      have hs : skipped (some err) x.act = false := by rw [skipped_some, hr]; rfl
      have hpf := performed x.act s
      cases hh : perform x.act s with
      | done s' =>
        rw [hh] at hpf
        obtain ⟨e, ev, hev, rfl⟩ := hpf
        rw [hx] at hev
        cases hev
        rw [run_done hs hh, run_plainStart hp, State.leave_finish]
        exact .restored e x es rfl hx
      | failed y s' =>
        rw [hh, hx] at hpf
        obtain ⟨e, bytes, ha, -⟩ := hpf
        cases ha
      | wait s' =>
        rw [hh, hx] at hpf
        obtain ⟨e, ⟨ha, -⟩ | ⟨⟨ms, ha⟩ | ⟨bytes, ha⟩, -⟩⟩ := hpf <;> cases ha
      | halted s' =>
        obtain ⟨e, f, rfl, hf⟩ := perform_halted hh
        rw [hx] at hf
        rcases hf with hf | ⟨p, hp', rfl⟩
        · cases hf
        · cases hp'
          rw [run_halted hs hh]
          exact .halted e x es rfl hx

end Sys2Proof.Machine
end

