-- ==== Sys2Proof/Laws/Plans.lean ====
section
/-! SUPPORT. The events each instruction's sequence produces when every action is done. -/

namespace Sys2Proof.Machine

variable (c : Config)

/-- The full-panel window is well ordered in every configuration (42_controller_sequences.md rule
R108, 00_scope.md rule R6). -/
theorem fullFrame_ordered :
    (0 : Coord).toNat < (lastX c).toNat ∧ (0 : Coord).toNat < (lastY c).toNat := by
  have hw : c.width ≤ 2048 ∧ 8 ≤ c.width := by
    unfold Config.width; have := c.panel.widthBytes.isLt; omega
  have hh : c.height ≤ 512 ∧ 2 ≤ c.height := by
    unfold Config.height; have := c.panel.heightLess2.isLt; omega
  constructor
  · show 0 < (BitVec.ofNat 16 (c.width - 1)).toNat
    rw [BitVec.toNat_ofNat, Nat.mod_eq_of_lt (by omega)]; omega
  · show 0 < (BitVec.ofNat 16 (c.height - 1)).toNat
    rw [BitVec.toNat_ofNat, Nat.mod_eq_of_lt (by omega)]; omega

/-- The operations of an expansion and the events of each. -/
abbrev OpsFollow (os : List DiOp) (g : List (List Event)) : Prop :=
  List.Forall₂ (fun o evs => ∀ pos, Follows (diOpEntries c pos o) evs) os g

/-- The same where samples may read high. -/
abbrev OpsPolled (os : List DiOp) (g : List (List Event)) : Prop :=
  List.Forall₂ (fun o evs => ∀ pos, Polled (diOpEntries c pos o) evs) os g

theorem OpsFollow.polled {os : List DiOp} {g : List (List Event)} (h : OpsFollow c os g) :
    OpsPolled c os g := h.imp fun _ _ h pos => (h pos).polled

theorem OpsPolled.append {a b : List DiOp} {x y : List (List Event)} (h : OpsPolled c a x)
    (h' : OpsPolled c b y) : OpsPolled c (a ++ b) (x ++ y) := List.rel_append h h'

theorem expand_ops {os : List DiOp} {g : List (List Event)} (h : OpsFollow c os g) :
    Follows (expand c 0 os) g.flatten := expand_follows c os g h 0

theorem OpsFollow.append {a b : List DiOp} {x y : List (List Event)} (h : OpsFollow c a x)
    (h' : OpsFollow c b y) : OpsFollow c (a ++ b) (x ++ y) := List.rel_append h h'

theorem setRamArea_ops {sx sy ex ey : Coord} (h : sx.toNat < ex.toNat ∧ sy.toNat < ey.toNat) :
    OpsFollow c (opsSetRamArea c sx sy ex ey)
      [cmdDataEvents c c.codes.setRamXWindow (xWindowPayload sx ex),
       cmdDataEvents c c.codes.setRamYWindow (yWindowPayload sy ey)] := by
  rw [opsSetRamArea, if_pos h]
  exact .cons (fun _ => cmdDataEntries_follows ..) (.cons (fun _ => cmdDataEntries_follows ..) .nil)

theorem setRamCounter_ops (x y : Coord) :
    OpsFollow c (opsSetRamCounter c x y)
      [cmdDataEvents c c.codes.setRamXCounter (xCounterPayload x),
       cmdDataEvents c c.codes.setRamYCounter (yCounterPayload y)] :=
  .cons (fun _ => cmdDataEntries_follows ..) (.cons (fun _ => cmdDataEntries_follows ..) .nil)

theorem useFullFrame_ops :
    OpsFollow c (opsUseFullFrame c)
      ([cmdDataEvents c c.codes.setRamXWindow (xWindowPayload 0 (lastX c)),
        cmdDataEvents c c.codes.setRamYWindow (yWindowPayload 0 (lastY c))] ++
       [cmdDataEvents c c.codes.setRamXCounter (xCounterPayload 0),
        cmdDataEvents c c.codes.setRamYCounter (yCounterPayload 0)]) :=
  (setRamArea_ops c (fullFrame_ordered c)).append c (setRamCounter_ops c 0 0)

theorem planCdSetRamArea_follows {sx sy ex ey : Coord}
    (h : sx.toNat < ex.toNat ∧ sy.toNat < ey.toNat) :
    Follows (planCdSetRamArea c sx sy ex ey) (areaEvents c sx sy ex ey) := by
  have := expand_ops c (setRamArea_ops c h)
  simpa [areaEvents, planCdSetRamArea, xWindowPayload, yWindowPayload] using this

theorem planCdSetRamCounter_follows (x y : Coord) :
    Follows (planCdSetRamCounter c x y) (counterEvents c x y) := by
  have := expand_ops c (setRamCounter_ops c x y)
  simpa [counterEvents, planCdSetRamCounter, xCounterPayload, yCounterPayload] using this

theorem planCdUseFullFrame_follows : Follows (planCdUseFullFrame c) (fullFrameEvents c) := by
  have := expand_ops c (useFullFrame_ops c)
  simpa [fullFrameEvents, areaEvents, counterEvents, planCdUseFullFrame, xWindowPayload,
    yWindowPayload, xCounterPayload, yCounterPayload, lastX, lastY] using this

theorem expandInit_polled (k1 k2 : Nat) {r1 r2 : Sample} (h1 : r1 ≠ .high) (h2 : r2 ≠ .high) :
    Polled (expand c 0 (opsInit c)) (initEvents c k1 r1 k2 r2) := by
  have h : OpsPolled c (opsInit c)
      ([resetEvents, cmdEvents c c.codes.swReset, waitEvents k1 r1, [.delay 10],
        cmdDataEvents c c.codes.updateControl1 c.updateControl1,
        cmdDataEvents c c.codes.borderWaveform [borderPayload c],
        cmdDataEvents c c.codes.dataEntryMode [dataEntryPayload c]] ++
       ([cmdDataEvents c c.codes.setRamXWindow (xWindowPayload 0 (lastX c)),
         cmdDataEvents c c.codes.setRamYWindow (yWindowPayload 0 (lastY c))] ++
        [cmdDataEvents c c.codes.setRamXCounter (xCounterPayload 0),
         cmdDataEvents c c.codes.setRamYCounter (yCounterPayload 0)]) ++
       [cmdDataEvents c c.codes.tempSensor [c.flags.internalTempSensor], waitEvents k2 r2]) := by
    refine OpsPolled.append c (OpsPolled.append c ?_ ((useFullFrame_ops c).polled c)) ?_
    · exact .cons (fun _ => (resetEntries_follows _).polled) <|
        .cons (fun _ => (cmdEntries_follows ..).polled) <|
        .cons (fun _ => waitEntries_polled _ k1 h1) <| .cons (fun _ => .done rfl .nil) <|
        .cons (fun _ => (cmdDataEntries_follows ..).polled) <|
        .cons (fun _ => (cmdDataEntries_follows ..).polled) <|
        .cons (fun _ => (cmdDataEntries_follows ..).polled) .nil
    · exact .cons (fun _ => (cmdDataEntries_follows ..).polled)
        (.cons (fun _ => waitEntries_polled _ k2 h2) .nil)
  have := expand_polled c _ _ h 0
  simpa [initEvents, resetEvents, fullFrameEvents, areaEvents, counterEvents, borderPayload,
    dataEntryPayload, xWindowPayload, yWindowPayload, xCounterPayload, yCounterPayload, lastX,
    lastY] using this

theorem planCdInit_polled (k1 k2 : Nat) {r1 r2 : Sample} (h1 : r1 ≠ .high) (h2 : r2 ≠ .high) :
    Polled (planCdInit c) (initEvents c k1 r1 k2 r2) := expandInit_polled c k1 k2 h1 h2

theorem planCdNew_polled (k1 k2 : Nat) {r1 r2 : Sample} (h1 : r1 ≠ .high) (h2 : r2 ≠ .high) :
    Polled (planCdNew c) (initEvents c k1 r1 k2 r2) := expandInit_polled c k1 k2 h1 h2

theorem upload_follows (code : Byte) (buffer : List Byte) :
    Follows (expand c 0 (opsUseFullFrame c ++ [.cmdWithData code buffer]))
      (uploadEvents c code buffer) := by
  have h : OpsFollow c [.cmdWithData code buffer] [cmdDataEvents c code buffer] :=
    .cons (fun pos => cmdDataEntries_follows c pos code buffer) .nil
  have := expand_ops c ((useFullFrame_ops c).append c h)
  simpa [uploadEvents, fullFrameEvents, areaEvents, counterEvents, xWindowPayload,
    yWindowPayload, xCounterPayload, yCounterPayload, lastX, lastY] using this

theorem planCdUpdateBwFrame_follows (buffer : List Byte) :
    Follows (planCdUpdateBwFrame c buffer) (uploadEvents c c.codes.writeRamBw buffer) :=
  upload_follows c _ buffer

theorem planCdUpdateRedFrame_follows (buffer : List Byte) :
    Follows (planCdUpdateRedFrame c buffer) (uploadEvents c c.codes.writeRamRed buffer) :=
  upload_follows c _ buffer

theorem planCdDisplayFrame_polled (k : Nat) {r : Sample} (hr : r ≠ .high) :
    Polled (planCdDisplayFrame c) (displayEvents c k r) := by
  have h : OpsPolled c (opsDisplayFrame c)
      [cmdDataEvents c c.codes.updateControl2 [c.flags.fullRefresh],
       cmdEvents c c.codes.masterActivate, waitEvents k r] :=
    .cons (fun _ => (cmdDataEntries_follows ..).polled) <|
      .cons (fun _ => (cmdEntries_follows ..).polled) <|
      .cons (fun _ => waitEntries_polled _ k hr) .nil
  have := expand_polled c _ _ h 0
  simpa [displayEvents, planCdDisplayFrame] using this

theorem clear_follows (code value : Byte) :
    Follows (expand c 0 (opsUseFullFrame c ++ [.cmd code, .dataXTimes value (fillCount c)]))
      (clearEvents c code value) := by
  have h : OpsFollow c [.cmd code, .dataXTimes value (fillCount c)]
      [cmdEvents c code, fillEvents c value (fillCount c)] :=
    .cons (fun pos => cmdEntries_follows c pos code)
      (.cons (fun pos => fillEntries_follows c pos value (fillCount c)) .nil)
  have := expand_ops c ((useFullFrame_ops c).append c h)
  simpa [clearEvents, fillCount, fullFrameEvents, areaEvents, counterEvents, xWindowPayload,
    yWindowPayload, xCounterPayload, yCounterPayload, lastX, lastY] using this

theorem planCdClearBwFrame_follows (color : Byte) :
    Follows (planCdClearBwFrame c color) (clearEvents c c.codes.writeRamBw (fillByte color)) :=
  clear_follows c _ _

theorem planCdClearRedFrame_follows :
    Follows (planCdClearRedFrame c) (clearEvents c c.codes.writeRamRed redFillByte) :=
  clear_follows c _ _

/-- A badly ordered window is a raise and nothing else (rule R106). -/
theorem planCdSetRamArea_bad {sx sy ex ey : Coord}
    (h : ¬ (sx.toNat < ex.toNat ∧ sy.toNat < ey.toNat)) :
    ∃ pos, planCdSetRamArea c sx sy ex ey = [⟨pos, .raise (.invalidWindow sx sy ex ey), false⟩] := by
  rw [planCdSetRamArea, opsSetRamArea, if_neg h]; exact ⟨_, rfl⟩

/-- Every instruction that does not halt the block produces the events of `wholeEvents`. -/
theorem planOf_whole {w : (Nat × Sample) × (Nat × Sample)} (h1 : w.1.2 ≠ .high) (h2 : w.2.2 ≠ .high)
    {i : Instr} (hi : wholeEvents c w i ≠ []) : Polled (planOf c i) (wholeEvents c w i) := by
  cases i with
  | sbWrite bytes => exact (writeFrame_follows ..).polled
  | sbFlush => exact .nil
  | sbRead len => exact absurd rfl hi
  | sbTransfer bytes => exact absurd rfl hi
  | sbTransferInPlace bytes => exact absurd rfl hi
  | diReset => exact (resetEntries_follows _).polled
  | diWaitIdle => exact waitEntries_polled _ w.1.1 h1
  | diCmd opcode => exact (cmdEntries_follows ..).polled
  | diData bytes => exact (dataEntries_follows ..).polled
  | diCmdWithData opcode bytes => exact (cmdDataEntries_follows ..).polled
  | diDataXTimes value count => exact (fillEntries_follows ..).polled
  | cdNew => exact planCdNew_polled c w.1.1 w.2.1 h1 h2
  | cdInit => exact planCdInit_polled c w.1.1 w.2.1 h1 h2
  | cdUpdateBwFrame buffer => exact (planCdUpdateBwFrame_follows c buffer).polled
  | cdUpdateRedFrame buffer => exact (planCdUpdateRedFrame_follows c buffer).polled
  | cdDisplayFrame => exact planCdDisplayFrame_polled c w.1.1 h1
  | cdClearBwFrame color => exact (planCdClearBwFrame_follows c color).polled
  | cdClearRedFrame => exact (planCdClearRedFrame_follows c).polled
  | cdSetRamArea sx sy ex ey =>
    simp only [wholeEvents] at hi ⊢
    split
    · exact (planCdSetRamArea_follows c ‹_›).polled
    · rename_i h; rw [if_neg h] at hi; exact absurd rfl hi
  | cdSetRamCounter x y => exact (planCdSetRamCounter_follows c x y).polled
  | cdUseFullFrame => exact (planCdUseFullFrame_follows c).polled
  | wireSwReset => exact (cmdEntries_follows ..).polled
  | wireMasterActivate => exact (cmdEntries_follows ..).polled
  | wireUpdateControl1 => exact (cmdDataEntries_follows ..).polled
  | wireBorderWaveform => exact (cmdDataEntries_follows ..).polled
  | wireDataEntryMode => exact (cmdDataEntries_follows ..).polled
  | wireSetRamXWindow s e => exact (cmdDataEntries_follows ..).polled
  | wireSetRamYWindow s e => exact (cmdDataEntries_follows ..).polled
  | wireSetRamXCounter x => exact (cmdDataEntries_follows ..).polled
  | wireSetRamYCounter y => exact (cmdDataEntries_follows ..).polled
  | wireTempSensor => exact (cmdDataEntries_follows ..).polled
  | wireWriteRamBw bytes => exact (cmdDataEntries_follows ..).polled
  | wireWriteRamRed bytes => exact (cmdDataEntries_follows ..).polled
  | wireUpdateControl2 => exact (cmdDataEntries_follows ..).polled

end Sys2Proof.Machine
end

