-- ==== Sys2Proof/Laws/Shape.lean ====
section
/-! SUPPORT. Which actions stand in the sequences: what each tier drives, where a bus call can stand,
and that every restore of `DC` stands where the error path needs it. -/

namespace Sys2Proof.Machine

/-- The actions of one bus call: drives of the three bus pins with the bit-banged bus, one external
call with the external one. -/
def BusAct (c : Config) (a : Act) : Prop :=
  (c.busKind = .bitbang ∧ ∃ p v, a = .drive p v ∧ (p = .cs ∨ p = .sclk ∨ p = .mosi)) ∨
    (c.busKind = .external ∧ ∃ bytes, a = .bus bytes)

/-- The actions of the writing operations of tier DI. -/
def WriteAct (c : Config) (a : Act) : Prop :=
  BusAct c a ∨ (∃ v, a = .drive .dc v) ∨ a = .restore c.dcData

theorem mem_writeFrame {c : Config} {pos : Pos} {bytes : List Byte} {x : Entry}
    (h : x ∈ writeFrame c pos bytes) :
    ∃ p v, x.act = .drive p v ∧ (p = .cs ∨ p = .sclk ∨ p = .mosi) := by
  have hbytes : ∀ (bytes : List Byte) (i : Nat), x ∈ byteFrames pos i bytes →
      ∃ p v, x.act = .drive p v ∧ (p = .cs ∨ p = .sclk ∨ p = .mosi) := by
    intro bytes
    induction bytes with
    | nil => intro i h; cases h
    | cons v vs ih =>
      intro i h
      rw [byteFrames, List.mem_append] at h
      rcases h with h | h
      · obtain ⟨kb, -, h⟩ := List.mem_flatMap.mp h
        simp only [bitCell, List.mem_cons, List.not_mem_nil, or_false] at h
        rcases h with rfl | rfl | rfl
        · exact ⟨_, _, rfl, .inr (.inl rfl)⟩
        · exact ⟨_, _, rfl, .inr (.inr rfl)⟩
        · exact ⟨_, _, rfl, .inr (.inl rfl)⟩
      · exact ih _ h
  rw [writeFrame, List.mem_cons, List.mem_append, List.mem_singleton] at h
  rcases h with rfl | h | rfl
  · exact ⟨_, _, rfl, .inl rfl⟩
  · exact hbytes bytes 0 h
  · exact ⟨_, _, rfl, .inl rfl⟩

theorem mem_busWrite {c : Config} {pos : Pos} {bytes : List Byte} {x : Entry}
    (h : x ∈ busWrite c pos bytes) : BusAct c x.act := by
  unfold busWrite at h
  split at h
  · exact .inl ⟨‹_›, mem_writeFrame h⟩
  · rw [List.mem_singleton] at h; subst h; exact .inr ⟨‹_›, _, rfl⟩

theorem mem_diWrite {c : Config} {pos : Pos} {bytes : List Byte} {x : Entry}
    (h : x ∈ diWrite c pos bytes) : BusAct c x.act := by
  obtain ⟨oc, -, h⟩ := List.mem_flatMap.mp h; exact mem_busWrite h

theorem mem_cmdEntries {c : Config} {pos : Pos} {v : Byte} {x : Entry}
    (h : x ∈ cmdEntries c pos v) : WriteAct c x.act := by
  rw [cmdEntries, List.mem_cons, List.mem_append, List.mem_singleton] at h
  rcases h with rfl | h | rfl
  · exact .inr (.inl ⟨_, rfl⟩)
  · exact .inl (mem_diWrite h)
  · exact .inr (.inr rfl)

theorem mem_dataEntries {c : Config} {pos : Pos} {bytes : List Byte} {x : Entry}
    (h : x ∈ dataEntries c pos bytes) : WriteAct c x.act := by
  obtain ⟨y, h, hy⟩ := mem_closed h
  rw [← hy]
  rcases List.mem_cons.mp h with rfl | h
  · exact .inr (.inl ⟨_, rfl⟩)
  · exact .inl (mem_diWrite h)

theorem mem_cmdDataEntries {c : Config} {pos : Pos} {v : Byte} {bytes : List Byte} {x : Entry}
    (h : x ∈ cmdDataEntries c pos v bytes) : WriteAct c x.act := by
  rcases List.mem_append.mp h with h | h
  · exact mem_cmdEntries h
  · exact mem_dataEntries h

theorem mem_fillWrites {c : Config} {pos : Pos} {v : Byte} {x : Entry} (n : Nat) :
    ∀ j, x ∈ fillWrites c pos v j n → BusAct c x.act := by
  induction n with
  | zero => intro j h; cases h
  | succ n ih =>
    intro j h
    rcases List.mem_append.mp h with h | h
    · exact mem_diWrite h
    · exact ih _ h

theorem mem_fillEntries {c : Config} {pos : Pos} {v : Byte} {n : Nat} {x : Entry}
    (h : x ∈ fillEntries c pos v n) : WriteAct c x.act := by
  obtain ⟨y, h, hy⟩ := mem_closed h
  rw [← hy]
  rcases List.mem_cons.mp h with rfl | h
  · exact .inr (.inl ⟨_, rfl⟩)
  · exact .inl (mem_fillWrites n 0 h)

/-- The actions of the operations of an expansion. -/
def DiOpAct (c : Config) : DiOp → Act → Prop
  | .reset, a => (∃ v, a = .drive .rst v) ∨ ∃ ms, a = .delay ms
  | .waitIdle, a => a = .sample
  | .settle, a => ∃ ms, a = .delay ms
  | .cmd _, a => WriteAct c a
  | .cmdWithData _ _, a => WriteAct c a
  | .dataXTimes _ _, a => WriteAct c a
  | .raise f, a => a = .raise f

theorem mem_diOpEntries {c : Config} {pos : Pos} {o : DiOp} {x : Entry}
    (h : x ∈ diOpEntries c pos o) : DiOpAct c o x.act := by
  cases o with
  | reset =>
    simp only [diOpEntries, resetEntries, List.mem_cons, List.not_mem_nil, or_false] at h
    rcases h with rfl | rfl | rfl | rfl
    · exact .inl ⟨_, rfl⟩
    · exact .inr ⟨_, rfl⟩
    · exact .inl ⟨_, rfl⟩
    · exact .inr ⟨_, rfl⟩
  | waitIdle => rw [diOpEntries, waitEntries, List.mem_singleton] at h; subst h; exact rfl
  | settle => rw [diOpEntries, List.mem_singleton] at h; subst h; exact ⟨_, rfl⟩
  | cmd v => exact mem_cmdEntries h
  | cmdWithData v bytes => exact mem_cmdDataEntries h
  | dataXTimes v n => exact mem_fillEntries h
  | raise f => rw [diOpEntries, List.mem_singleton] at h; subst h; exact rfl

/-- Every action of an expansion is one of an operation of it. -/
theorem mem_expand {c : Config} {x : Entry} (os : List DiOp) :
    ∀ k, x ∈ expand c k os → ∃ o ∈ os, DiOpAct c o x.act := by
  induction os with
  | nil => intro k h; cases h
  | cons o os ih =>
    intro k h
    rcases List.mem_append.mp h with h | h
    · exact ⟨o, List.mem_cons_self, mem_diOpEntries h⟩
    · obtain ⟨o', ho, ha⟩ := ih _ h; exact ⟨o', List.mem_cons_of_mem _ ho, ha⟩

/-! ### The operations of the expansions -/

/-- Whether an operation of an expansion sends a command or data. -/
def isWriteOp : DiOp → Bool
  | .cmd _ => true
  | .cmdWithData _ _ => true
  | .dataXTimes _ _ => true
  | .reset => false
  | .waitIdle => false
  | .settle => false
  | .raise _ => false

theorem opsUseFullFrame_eq (c : Config) :
    opsUseFullFrame c =
      [.cmdWithData c.codes.setRamXWindow (xWindowPayload 0 (lastX c)),
       .cmdWithData c.codes.setRamYWindow (yWindowPayload 0 (lastY c)),
       .cmdWithData c.codes.setRamXCounter (xCounterPayload 0),
       .cmdWithData c.codes.setRamYCounter (yCounterPayload 0)] := by
  rw [opsUseFullFrame, opsSetRamArea, if_pos (fullFrame_ordered c)]; rfl

/-- The actions of an instruction: what its plan can hold. -/
inductive InstrAct (c : Config) (i : Instr) (a : Act) : Prop where
  | bitbang (h : opName i = .sbWrite) (p : Pin) (v : Level) (ha : a = .drive p v)
      (hp : p = .cs ∨ p = .sclk ∨ p = .mosi)
  | write (h : opName i ∉ [OpName.sbWrite, .sbFlush, .sbRead, .sbTransfer, .sbTransferInPlace,
      .diReset, .diWaitIdle]) (ha : WriteAct c a)
  | reset (h : opName i ∈ [OpName.diReset, .cdNew, .cdInit])
      (ha : (∃ v, a = .drive .rst v) ∨ ∃ ms, a = .delay ms)
  | sample (h : opName i ∈ [OpName.diWaitIdle, .cdNew, .cdInit, .cdDisplayFrame]) (ha : a = .sample)
  | unsupported (h : opName i ∈ [OpName.sbRead, .sbTransfer, .sbTransferInPlace])
      (ha : a = .raise (.unsupported (opName i)))
  | window (sx sy ex ey : Coord) (h : i = .cdSetRamArea sx sy ex ey)
      (ha : a = .raise (.invalidWindow sx sy ex ey))

/-- Every action of a plan of tier CD, from the operations of its expansion. -/
theorem InstrAct.of_expand {c : Config} {i : Instr} {os : List DiOp} {x : Entry} {k : Nat}
    (h : x ∈ expand c k os)
    (hw : opName i ∉ [OpName.sbWrite, .sbFlush, .sbRead, .sbTransfer, .sbTransferInPlace, .diReset,
      .diWaitIdle])
    (hr : ∀ o ∈ os, isWriteOp o = true ∨
      ((o = .reset ∨ o = .settle) ∧ opName i ∈ [OpName.diReset, .cdNew, .cdInit]) ∨
      (o = .waitIdle ∧ opName i ∈ [OpName.diWaitIdle, .cdNew, .cdInit, .cdDisplayFrame])) :
    InstrAct c i x.act := by
  obtain ⟨o, ho, ha⟩ := mem_expand os k h
  rcases hr o ho with hwo | ⟨rfl | rfl, hn⟩ | ⟨rfl, hn⟩
  · cases o with
    | cmd v => exact .write hw ha
    | cmdWithData v bytes => exact .write hw ha
    | dataXTimes v n => exact .write hw ha
    | reset => cases hwo
    | waitIdle => cases hwo
    | settle => cases hwo
    | raise f => cases hwo
  · exact .reset hn ha
  · exact .reset hn (.inr ha)
  · exact .sample hn ha

/-- Every action of a plan. -/
theorem mem_planOf {c : Config} {i : Instr} {x : Entry} (h : x ∈ planOf c i) :
    InstrAct c i x.act := by
  cases i with
  | sbWrite bytes => obtain ⟨p, v, ha, hp⟩ := mem_writeFrame h; exact .bitbang rfl p v ha hp
  | sbFlush => cases h
  | sbRead len =>
    rw [planOf, planSbRead, List.mem_singleton] at h; subst h; exact .unsupported (by simp [opName]) rfl
  | sbTransfer bytes =>
    rw [planOf, planSbTransfer, List.mem_singleton] at h; subst h; exact .unsupported (by simp [opName]) rfl
  | sbTransferInPlace bytes =>
    rw [planOf, planSbTransferInPlace, List.mem_singleton] at h; subst h
    exact .unsupported (by simp [opName]) rfl
  | diReset => exact .reset (by simp [opName]) (mem_diOpEntries (c := c) (o := .reset) h)
  | diWaitIdle => exact .sample (by simp [opName]) (mem_diOpEntries (c := c) (o := .waitIdle) h)
  | diCmd opcode => exact .write (by simp [opName]) (mem_cmdEntries h)
  | diData bytes => exact .write (by simp [opName]) (mem_dataEntries h)
  | diCmdWithData opcode bytes => exact .write (by simp [opName]) (mem_cmdDataEntries h)
  | diDataXTimes value count => exact .write (by simp [opName]) (mem_fillEntries h)
  | cdNew =>
    refine .of_expand h (by simp [opName]) ?_
    rw [opsNew, opsInit, opsUseFullFrame_eq]; simp [isWriteOp, opName]
  | cdInit =>
    refine .of_expand h (by simp [opName]) ?_
    rw [opsInit, opsUseFullFrame_eq]; simp [isWriteOp, opName]
  | cdUpdateBwFrame buffer =>
    refine .of_expand h (by simp [opName]) ?_
    rw [opsUpdateBwFrame, opsUseFullFrame_eq]; simp [isWriteOp]
  | cdUpdateRedFrame buffer =>
    refine .of_expand h (by simp [opName]) ?_
    rw [opsUpdateRedFrame, opsUseFullFrame_eq]; simp [isWriteOp]
  | cdDisplayFrame =>
    refine .of_expand h (by simp [opName]) ?_
    rw [opsDisplayFrame]; simp [isWriteOp, opName]
  | cdClearBwFrame color =>
    refine .of_expand h (by simp [opName]) ?_
    rw [opsClearBwFrame, opsUseFullFrame_eq]; simp [isWriteOp]
  | cdClearRedFrame =>
    refine .of_expand h (by simp [opName]) ?_
    rw [opsClearRedFrame, opsUseFullFrame_eq]; simp [isWriteOp]
  | cdSetRamArea sx sy ex ey =>
    by_cases hw : sx.toNat < ex.toNat ∧ sy.toNat < ey.toNat
    · refine .of_expand (os := opsSetRamArea c sx sy ex ey) h (by simp [opName]) ?_
      rw [opsSetRamArea, if_pos hw]; simp [isWriteOp]
    · obtain ⟨pos, hp⟩ := planCdSetRamArea_bad c hw
      rw [planOf, hp, List.mem_singleton] at h
      subst h
      exact .window _ _ _ _ rfl rfl
  | cdSetRamCounter x y =>
    refine .of_expand h (by simp [opName]) ?_
    rw [opsSetRamCounter]; simp [isWriteOp]
  | cdUseFullFrame =>
    refine .of_expand h (by simp [opName]) ?_
    rw [opsUseFullFrame_eq]; simp [isWriteOp]
  | wireSwReset => exact .write (by simp [opName]) (mem_cmdEntries h)
  | wireMasterActivate => exact .write (by simp [opName]) (mem_cmdEntries h)
  | wireUpdateControl1 => exact .write (by simp [opName]) (mem_cmdDataEntries h)
  | wireBorderWaveform => exact .write (by simp [opName]) (mem_cmdDataEntries h)
  | wireDataEntryMode => exact .write (by simp [opName]) (mem_cmdDataEntries h)
  | wireSetRamXWindow s e => exact .write (by simp [opName]) (mem_cmdDataEntries h)
  | wireSetRamYWindow s e => exact .write (by simp [opName]) (mem_cmdDataEntries h)
  | wireSetRamXCounter x => exact .write (by simp [opName]) (mem_cmdDataEntries h)
  | wireSetRamYCounter y => exact .write (by simp [opName]) (mem_cmdDataEntries h)
  | wireTempSensor => exact .write (by simp [opName]) (mem_cmdDataEntries h)
  | wireWriteRamBw bytes => exact .write (by simp [opName]) (mem_cmdDataEntries h)
  | wireWriteRamRed bytes => exact .write (by simp [opName]) (mem_cmdDataEntries h)
  | wireUpdateControl2 => exact .write (by simp [opName]) (mem_cmdDataEntries h)

/-- With the bit-banged bus no plan calls the external one. -/
theorem planOf_no_bus {c : Config} (hb : c.busKind = .bitbang) {i : Instr} {x : Entry}
    (h : x ∈ planOf c i) (bytes : List Byte) : x.act ≠ .bus bytes := by
  intro hx
  have ha := mem_planOf h
  rw [hx] at ha
  cases ha with
  | bitbang h p v ha hp => cases ha
  | write h ha =>
    rcases ha with (⟨-, p, v, ha, -⟩ | ⟨he, -⟩) | ⟨v, ha⟩ | ha
    · cases ha
    · rw [hb] at he; cases he
    · cases ha
    · cases ha
  | reset h ha => rcases ha with ⟨v, ha⟩ | ⟨ms, ha⟩ <;> cases ha
  | sample h ha => cases ha
  | unsupported h ha => cases ha
  | window sx sy ex ey h ha => cases ha

/-- With the bit-banged bus a run that comes to its end followed the whole sequence. -/
theorem run_ended {c : Config} (hb : c.busKind = .bitbang) {i : Instr} {m n : Nat} {s t : State}
    (h : t = run i ((planOf c i).drop m) n none s) (ht : t.pc = .idle) :
    ∃ e evs, Follows ((planOf c i).drop m) evs ∧
      t = ((s.withEnv e).emit evs).finish (opName i) .ok := by
  have hc := run_case i ((planOf c i).drop m) n s
  rw [← h] at hc
  cases hc with
  | ended e evs hf => exact ⟨e, evs, hf, rfl⟩
  | held e evs extra a b x hes hf hx => cases ht
  | halted e evs f a b x hes hf hx => cases ht
  | failed e evs err bytes a b x hes hf hx =>
    have hm : x ∈ (planOf c i).drop m := by rw [hes]; simp
    exact absurd hx (planOf_no_bus hb (List.mem_of_mem_drop hm) bytes)

/-! ### Restores -/

theorem BusAct.not_restore {c : Config} {a : Act} (h : BusAct c a) : isRestore a = false := by
  rcases h with ⟨-, p, v, rfl, -⟩ | ⟨-, bytes, rfl⟩ <;> rfl

theorem diWrite_plain (c : Config) (pos : Pos) (bytes : List Byte) :
    ∀ x ∈ diWrite c pos bytes, isRestore x.act = false :=
  fun _ hx => (mem_diWrite hx).not_restore

theorem RestoresOk.append_plain {c : Config} {a b : List Entry}
    (ha : ∀ x ∈ a, isRestore x.act = false) (hb : RestoresOk c b) : RestoresOk c (a ++ b) := by
  induction a with
  | nil => exact hb
  | cons e a ih =>
    have he := ha e List.mem_cons_self
    exact ⟨fun h => by simp [he] at h, ih fun x hx => ha x (List.mem_cons_of_mem _ hx)⟩

theorem cmdEntries_restores (c : Config) (pos : Pos) (v : Byte) :
    RestoresOk c (cmdEntries c pos v) :=
  ⟨nofun,
    .append_plain (diWrite_plain c pos [v]) ⟨fun _ => ⟨rfl, trivial⟩, trivial⟩⟩

theorem dataEntries_plain (c : Config) (pos : Pos) (bytes : List Byte) :
    ∀ x ∈ dataEntries c pos bytes, isRestore x.act = false := by
  intro x hx
  obtain ⟨y, hx, hy⟩ := mem_closed hx
  rw [← hy]
  rcases List.mem_cons.mp hx with rfl | hx
  · rfl
  · exact diWrite_plain c pos bytes y hx

theorem fillEntries_plain (c : Config) (pos : Pos) (v : Byte) (n : Nat) :
    ∀ x ∈ fillEntries c pos v n, isRestore x.act = false := by
  intro x hx
  obtain ⟨y, hx, hy⟩ := mem_closed hx
  rw [← hy]
  rcases List.mem_cons.mp hx with rfl | hx
  · rfl
  · exact (mem_fillWrites n 0 hx).not_restore

theorem cmdDataEntries_restores (c : Config) (pos : Pos) (v : Byte) (bytes : List Byte) :
    RestoresOk c (cmdDataEntries c pos v bytes) :=
  (cmdEntries_restores c pos v).append (.of_plain (dataEntries_plain c pos bytes))
    (.of_plain (dataEntries_plain c pos bytes))

theorem diOpEntries_restores (c : Config) (pos : Pos) (o : DiOp) :
    RestoresOk c (diOpEntries c pos o) ∧ PlainStart (diOpEntries c pos o) := by
  cases o with
  | reset =>
    refine ⟨.of_plain fun x hx => ?_, rfl⟩
    rcases mem_diOpEntries (c := c) (o := .reset) hx with ⟨v, h⟩ | ⟨ms, h⟩ <;> rw [h] <;> rfl
  | waitIdle =>
    refine ⟨.of_plain fun x hx => ?_, rfl⟩
    rw [show x.act = .sample from mem_diOpEntries (c := c) (o := .waitIdle) hx]; rfl
  | settle =>
    refine ⟨.of_plain fun x hx => ?_, rfl⟩
    obtain ⟨ms, h⟩ := mem_diOpEntries (c := c) (o := .settle) hx
    rw [h]; rfl
  | cmd v => exact ⟨cmdEntries_restores c pos v, rfl⟩
  | cmdWithData v bytes => exact ⟨cmdDataEntries_restores c pos v bytes, rfl⟩
  | dataXTimes v n =>
    exact ⟨.of_plain (fillEntries_plain c pos v n), .of_plain (fillEntries_plain c pos v n)⟩
  | raise f =>
    refine ⟨.of_plain fun x hx => ?_, rfl⟩
    rw [show x.act = .raise f from mem_diOpEntries (c := c) (o := .raise f) hx]; rfl

theorem expand_restores (c : Config) (os : List DiOp) :
    ∀ k, RestoresOk c (expand c k os) ∧ PlainStart (expand c k os) := by
  induction os with
  | nil => intro k; exact ⟨trivial, trivial⟩
  | cons o os ih =>
    intro k
    have ho := diOpEntries_restores c { Pos.dead with step := some k } o
    exact ⟨ho.1.append (ih _).1 (ih _).2, ho.2.append (ih _).2⟩

/-- Every restore of a plan drives `DC` to the data state, and no two follow each other. -/
theorem planOf_restores (c : Config) (i : Instr) : RestoresOk c (planOf c i) := by
  cases i with
  | sbWrite bytes =>
    refine .of_plain fun x hx => ?_
    obtain ⟨p, v, ha, -⟩ := mem_writeFrame hx
    rw [ha]; rfl
  | sbFlush => trivial
  | sbRead len => exact ⟨nofun, trivial⟩
  | sbTransfer bytes => exact ⟨nofun, trivial⟩
  | sbTransferInPlace bytes => exact ⟨nofun, trivial⟩
  | diReset => exact (diOpEntries_restores c Pos.dead .reset).1
  | diWaitIdle => exact (diOpEntries_restores c Pos.dead .waitIdle).1
  | diCmd opcode => exact cmdEntries_restores c _ _
  | diData bytes => exact .of_plain (dataEntries_plain c _ _)
  | diCmdWithData opcode bytes => exact cmdDataEntries_restores c _ _ _
  | diDataXTimes value count => exact .of_plain (fillEntries_plain c _ _ _)
  | cdNew => exact (expand_restores c _ 0).1
  | cdInit => exact (expand_restores c _ 0).1
  | cdUpdateBwFrame buffer => exact (expand_restores c _ 0).1
  | cdUpdateRedFrame buffer => exact (expand_restores c _ 0).1
  | cdDisplayFrame => exact (expand_restores c _ 0).1
  | cdClearBwFrame color => exact (expand_restores c _ 0).1
  | cdClearRedFrame => exact (expand_restores c _ 0).1
  | cdSetRamArea sx sy ex ey => exact (expand_restores c _ 0).1
  | cdSetRamCounter x y => exact (expand_restores c _ 0).1
  | cdUseFullFrame => exact (expand_restores c _ 0).1
  | wireSwReset => exact cmdEntries_restores c _ _
  | wireMasterActivate => exact cmdEntries_restores c _ _
  | wireUpdateControl1 => exact cmdDataEntries_restores c _ _ _
  | wireBorderWaveform => exact cmdDataEntries_restores c _ _ _
  | wireDataEntryMode => exact cmdDataEntries_restores c _ _ _
  | wireSetRamXWindow s e => exact cmdDataEntries_restores c _ _ _
  | wireSetRamYWindow s e => exact cmdDataEntries_restores c _ _ _
  | wireSetRamXCounter x => exact cmdDataEntries_restores c _ _ _
  | wireSetRamYCounter y => exact cmdDataEntries_restores c _ _ _
  | wireTempSensor => exact cmdDataEntries_restores c _ _ _
  | wireWriteRamBw bytes => exact cmdDataEntries_restores c _ _ _
  | wireWriteRamRed bytes => exact cmdDataEntries_restores c _ _ _
  | wireUpdateControl2 => exact cmdDataEntries_restores c _ _ _

/-! ### The first operation that ends -/

/-- The first action of a sequence with which an operation ends is number `f`: no sample stands before it,
and where it is a bus call no restore of `DC` follows it. -/
def FirstEnd (es : List Entry) (f : Nat) : Prop :=
  ∃ pre x post, es = pre ++ x :: post ∧ pre.length = f ∧
    (∀ y ∈ pre, y.ends = false ∧ y.act ≠ .sample) ∧ x.ends = true ∧
    ∀ bytes, x.act = .bus bytes → PlainStart post

/-- An operation that ends with the first action. -/
theorem FirstEnd.head {x : Entry} (hx : x.ends = true) (hb : ∀ bytes, x.act ≠ .bus bytes)
    (post : List Entry) : FirstEnd (x :: post) 0 :=
  ⟨[], x, post, rfl, rfl, fun _ h => absurd h List.not_mem_nil, hx, fun bytes h => absurd h (hb bytes)⟩

theorem FirstEnd.cons {e : Entry} {es : List Entry} {f : Nat} (h : FirstEnd es f)
    (he : e.ends = false) (ha : e.act ≠ .sample) : FirstEnd (e :: es) (f + 1) := by
  obtain ⟨pre, x, post, rfl, rfl, hp, hx, hb⟩ := h
  refine ⟨e :: pre, x, post, rfl, rfl, ?_, hx, hb⟩
  intro y hy
  rcases List.mem_cons.mp hy with rfl | hy
  · exact ⟨he, ha⟩
  · exact hp y hy

theorem FirstEnd.append {es : List Entry} {f : Nat} (h : FirstEnd es f) {rest : List Entry}
    (hr : PlainStart rest ∨ ∀ x ∈ es, ∀ bytes, x.act ≠ .bus bytes) : FirstEnd (es ++ rest) f := by
  obtain ⟨pre, x, post, rfl, rfl, hp, hx, hb⟩ := h
  refine ⟨pre, x, post ++ rest, by simp, rfl, hp, hx, fun bytes hbx => ?_⟩
  rcases hr with hr | hr
  · exact (hb bytes hbx).append hr
  · exact absurd hbx (hr x (by simp) bytes)

theorem closed_append_cons (a : List Entry) (x : Entry) (b : List Entry) :
    closed (a ++ x :: b) = a ++ closed (x :: b) := by
  induction a with
  | nil => rfl
  | cons e a ih =>
    cases a with
    | nil => rfl
    | cons e' a => exact congrArg (e :: ·) ih

theorem closed_cons (x : Entry) (b : List Entry) :
    closed (x :: b) = { x with ends := x.ends || b.isEmpty } :: closed b := by
  cases b with
  | nil => simp [closed]
  | cons y b => simp [closed]

theorem PlainStart.of_acts {a b : List Entry} (h : PlainStart a)
    (hab : b.map Entry.act = a.map Entry.act) : PlainStart b := by
  cases a with
  | nil => rw [List.map_nil, List.map_eq_nil_iff] at hab; subst hab; trivial
  | cons x a =>
    obtain ⟨y, b, rfl, hy, -⟩ := List.map_eq_cons_iff.mp hab
    show isRestore y.act = false
    rw [hy]; exact h

theorem FirstEnd.closed {es : List Entry} {f : Nat} (h : FirstEnd es f) :
    FirstEnd (Machine.closed es) f := by
  obtain ⟨pre, x, post, rfl, rfl, hp, hx, hb⟩ := h
  rw [closed_append_cons, closed_cons]
  exact ⟨pre, _, _, rfl, rfl, hp, by simp [hx], fun bytes hbx =>
    (hb bytes hbx).of_acts (closed_acts post)⟩

/-- Where no operation ends before the last action of a sequence, it ends there. -/
theorem FirstEnd.closed_last (e : Entry) (es : List Entry)
    (h : ∀ y ∈ e :: es, y.ends = false ∧ y.act ≠ .sample) :
    FirstEnd (Machine.closed (e :: es)) es.length := by
  rcases List.eq_nil_or_concat (e :: es) with h0 | ⟨l, x, h0⟩
  · cases h0
  · rw [List.concat_eq_append] at h0
    have hl : l.length = es.length := by
      have := congrArg List.length h0
      simp at this
      exact this.symm
    rw [h0, closed_concat]
    exact ⟨l, _, [], rfl, hl, fun y hy => h y (by rw [h0]; exact List.mem_append_left _ hy), rfl,
      fun _ _ => trivial⟩

theorem byteFrames_inner (pos : Pos) (bytes : List Byte) :
    ∀ i, (byteFrames pos i bytes).length = 24 * bytes.length ∧
      ∀ y ∈ byteFrames pos i bytes, y.ends = false ∧ y.act ≠ .sample := by
  induction bytes with
  | nil => intro i; exact ⟨rfl, fun _ h => absurd h List.not_mem_nil⟩
  | cons v vs ih =>
    intro i
    obtain ⟨hl, hm⟩ := ih (i + 1)
    refine ⟨?_, ?_⟩
    · have : ∀ p : Pos, (byteFrame p v).length = 24 := fun _ => rfl
      rw [byteFrames, List.length_append, hl, this, List.length_cons]; omega
    · intro y hy
      rcases List.mem_append.mp hy with hy | hy
      · obtain ⟨kb, -, h⟩ := List.mem_flatMap.mp hy
        simp only [bitCell, List.mem_cons, List.not_mem_nil, or_false] at h
        rcases h with rfl | rfl | rfl <;> exact ⟨rfl, nofun⟩
      · exact hm y hy

theorem writeFrame_firstEnd (c : Config) (pos : Pos) (bytes : List Byte) :
    FirstEnd (writeFrame c pos bytes) (24 * bytes.length + 1) := by
  obtain ⟨hl, hm⟩ := byteFrames_inner pos bytes 0
  refine FirstEnd.cons ⟨byteFrames pos 0 bytes, _, [], rfl, hl, hm, rfl, nofun⟩ rfl nofun

theorem writeFrame_no_bus (c : Config) (pos : Pos) (bytes : List Byte) :
    ∀ x ∈ writeFrame c pos bytes, ∀ bs, x.act ≠ .bus bs := by
  intro x hx bs hb
  obtain ⟨p, v, ha, -⟩ := mem_writeFrame hx
  rw [hb] at ha; cases ha

theorem diWrite_single (c : Config) (pos : Pos) (v : Byte) :
    diWrite c pos [v] = busWrite c { pos with off := some 0 } [v] := by
  simp [diWrite, chunks_single]

/-- The calls of the external bus end no operation. -/
theorem diWrite_external {c : Config} (hb : c.busKind = .external) (pos : Pos) (bytes : List Byte) :
    (diWrite c pos bytes).length = (chunks c bytes).length ∧
      ∀ y ∈ diWrite c pos bytes, y.ends = false ∧ y.act ≠ .sample := by
  have : ∀ l : List (Nat × List Byte), (l.flatMap fun oc => busWrite c
      ({ pos with off := some (BitVec.ofNat 32 oc.1) } : Pos) oc.2).length = l.length ∧
      ∀ y ∈ (l.flatMap fun oc => busWrite c
        ({ pos with off := some (BitVec.ofNat 32 oc.1) } : Pos) oc.2),
        y.ends = false ∧ y.act ≠ .sample := by
    intro l
    induction l with
    | nil => exact ⟨rfl, fun _ h => absurd h List.not_mem_nil⟩
    | cons a l ih =>
      rw [List.flatMap_cons, busWrite, hb]
      refine ⟨by simp only [List.length_append, ih.1, List.length_cons, List.length_nil]; omega, ?_⟩
      intro y hy
      rcases List.mem_append.mp hy with hy | hy
      · rw [List.mem_singleton] at hy; subst hy; exact ⟨rfl, nofun⟩
      · exact ih.2 y hy
  exact this _

theorem fillWrites_external {c : Config} (hb : c.busKind = .external) (pos : Pos) (v : Byte)
    (n : Nat) : ∀ j, (fillWrites c pos v j n).length = n ∧
      ∀ y ∈ fillWrites c pos v j n, y.ends = false ∧ y.act ≠ .sample := by
  induction n with
  | zero => intro j; exact ⟨rfl, fun _ h => absurd h List.not_mem_nil⟩
  | succ n ih =>
    intro j
    obtain ⟨hl, hm⟩ := diWrite_external hb { pos with j := some (BitVec.ofNat 32 j) } [v]
    obtain ⟨hl', hm'⟩ := ih (j + 1)
    rw [fillWrites]
    refine ⟨by rw [List.length_append, hl, hl', chunks_single, List.length_singleton]; omega, ?_⟩
    intro y hy
    rcases List.mem_append.mp hy with hy | hy
    · exact hm y hy
    · exact hm' y hy

theorem cmdEntries_firstEnd (c : Config) (pos : Pos) (v : Byte) :
    FirstEnd (cmdEntries c pos v) (firstEndCmd c) := by
  unfold cmdEntries firstEndCmd
  rw [diWrite_single, busWrite]
  cases c.busKind with
  | bitbang =>
    exact ((writeFrame_firstEnd c _ [v]).append (.inr (writeFrame_no_bus c _ _))).cons rfl nofun
  | external =>
    exact FirstEnd.cons (.cons (.head rfl (by nofun) []) rfl nofun) rfl nofun

theorem firstEnd_single (pos : Pos) (v : Level) : FirstEnd [⟨pos, .drive .dc v, true⟩] 0 :=
  .head rfl (by nofun) []

theorem dataEntries_firstEnd (c : Config) (pos : Pos) (bytes : List Byte) :
    FirstEnd (dataEntries c pos bytes) (firstEndData c bytes) := by
  unfold dataEntries firstEndData
  cases hb : c.busKind with
  | bitbang =>
    cases hc : chunks c bytes with
    | nil =>
      rw [diWrite, hc]
      exact firstEnd_single pos c.dcData
    | cons oc ocs =>
      rw [diWrite, hc, List.flatMap_cons, busWrite, hb]
      exact (((writeFrame_firstEnd c _ oc.2).append (.inr (writeFrame_no_bus c _ _))).cons rfl
        (fun h => by cases h)).closed
  | external =>
    obtain ⟨hl, hm⟩ := diWrite_external hb pos bytes
    show FirstEnd _ (chunks c bytes).length
    rw [← hl]
    refine FirstEnd.closed_last _ _ fun y hy => ?_
    rcases List.mem_cons.mp hy with rfl | hy
    · exact ⟨rfl, nofun⟩
    · exact hm y hy

theorem fillEntries_firstEnd (c : Config) (pos : Pos) (v : Byte) (n : Nat) :
    FirstEnd (fillEntries c pos v n) (firstEndFill c n) := by
  unfold fillEntries firstEndFill
  cases hb : c.busKind with
  | bitbang =>
    cases n with
    | zero => exact firstEnd_single pos c.dcData
    | succ n =>
      rw [fillWrites, diWrite_single, busWrite, hb]
      exact (((writeFrame_firstEnd c _ [v]).append (.inr (writeFrame_no_bus c _ _))).cons rfl
        (fun h => by cases h)).closed
  | external =>
    obtain ⟨hl, hm⟩ := fillWrites_external hb pos v n 0
    have := FirstEnd.closed_last ⟨pos, .drive .dc c.dcData, false⟩ (fillWrites c pos v 0 n) (by
      intro y hy
      rcases List.mem_cons.mp hy with rfl | hy
      · exact ⟨rfl, nofun⟩
      · exact hm y hy)
    rwa [hl] at this

theorem cmdDataEntries_firstEnd (c : Config) (pos : Pos) (v : Byte) (bytes : List Byte) :
    FirstEnd (cmdDataEntries c pos v bytes) (firstEndCmd c) :=
  (cmdEntries_firstEnd c pos v).append (.inl (.of_plain (dataEntries_plain c pos bytes)))

theorem resetEntries_firstEnd (pos : Pos) : FirstEnd (resetEntries pos) 3 :=
  .cons (.cons (.cons (.head rfl (by nofun) []) rfl nofun) rfl nofun) rfl nofun

theorem waitEntries_firstEnd (pos : Pos) : FirstEnd (waitEntries pos) 0 :=
  .head rfl (by nofun) []

/-- The first operation that ends in an expansion is that of its first operation. -/
theorem expand_firstEnd {c : Config} {o : DiOp} {f : Nat} (os : List DiOp)
    (h : ∀ pos, FirstEnd (diOpEntries c pos o) f) (k : Nat) : FirstEnd (expand c k (o :: os)) f :=
  (h _).append (.inl (expand_restores c os _).2)

theorem expand_cmdData_firstEnd (c : Config) (v : Byte) (bytes : List Byte) (os : List DiOp) :
    FirstEnd (expand c 0 (.cmdWithData v bytes :: os)) (firstEndCmd c) :=
  expand_firstEnd (o := .cmdWithData v bytes) os (fun pos => cmdDataEntries_firstEnd c pos v bytes) 0

theorem expand_init_firstEnd (c : Config) : FirstEnd (expand c 0 (opsInit c)) 3 := by
  rw [opsInit, List.cons_append, List.cons_append]
  exact expand_firstEnd (o := .reset) _ resetEntries_firstEnd 0

/-- Where the first operation that ends in an instruction does so, for every instruction that is not over
or halted at once. -/
theorem planOf_firstEnd (c : Config) (i : Instr) :
    FirstEnd (planOf c i) (firstEnd c i) ∨
      ((planOf c i).length ≤ 1 ∧ ∀ y ∈ planOf c i, y.act ≠ .sample) := by
  have hfull : ∀ os : List DiOp,
      FirstEnd (expand c 0 (opsUseFullFrame c ++ os)) (firstEndCmd c) := by
    intro os
    rw [opsUseFullFrame_eq]
    exact expand_cmdData_firstEnd c _ _ _
  cases i with
  | sbWrite bytes => exact .inl (writeFrame_firstEnd c _ _)
  | sbFlush => exact .inr ⟨Nat.zero_le _, fun _ h => absurd h List.not_mem_nil⟩
  | sbRead len => exact .inr ⟨Nat.le_refl _, by simp [planOf, planSbRead]⟩
  | sbTransfer bytes => exact .inr ⟨Nat.le_refl _, by simp [planOf, planSbTransfer]⟩
  | sbTransferInPlace bytes => exact .inr ⟨Nat.le_refl _, by simp [planOf, planSbTransferInPlace]⟩
  | diReset => exact .inl (resetEntries_firstEnd _)
  | diWaitIdle => exact .inl (waitEntries_firstEnd _)
  | diCmd opcode => exact .inl (cmdEntries_firstEnd c _ _)
  | diData bytes => exact .inl (dataEntries_firstEnd c _ _)
  | diCmdWithData opcode bytes => exact .inl (cmdDataEntries_firstEnd c _ _ _)
  | diDataXTimes value count => exact .inl (fillEntries_firstEnd c _ _ _)
  | cdNew => exact .inl (expand_init_firstEnd c)
  | cdInit => exact .inl (expand_init_firstEnd c)
  | cdUpdateBwFrame buffer => rw [planOf, planCdUpdateBwFrame, opsUpdateBwFrame]; exact .inl (hfull _)
  | cdUpdateRedFrame buffer => rw [planOf, planCdUpdateRedFrame, opsUpdateRedFrame]; exact .inl (hfull _)
  | cdDisplayFrame =>
    rw [planOf, planCdDisplayFrame, opsDisplayFrame]
    exact .inl (expand_cmdData_firstEnd c _ _ _)
  | cdClearBwFrame color => rw [planOf, planCdClearBwFrame, opsClearBwFrame]; exact .inl (hfull _)
  | cdClearRedFrame => rw [planOf, planCdClearRedFrame, opsClearRedFrame]; exact .inl (hfull _)
  | cdSetRamArea sx sy ex ey =>
    by_cases h : sx.toNat < ex.toNat ∧ sy.toNat < ey.toNat
    · refine .inl ?_
      rw [planOf, planCdSetRamArea, opsSetRamArea, if_pos h]
      exact expand_cmdData_firstEnd c _ _ _
    · obtain ⟨pos, hp⟩ := planCdSetRamArea_bad c h
      refine .inr ?_
      rw [planOf, hp]
      exact ⟨Nat.le_refl _, by simp⟩
  | cdSetRamCounter x y =>
    rw [planOf, planCdSetRamCounter, opsSetRamCounter]
    exact .inl (expand_cmdData_firstEnd c _ _ _)
  | cdUseFullFrame =>
    have := hfull []
    rw [List.append_nil] at this
    exact .inl this
  | wireSwReset => exact .inl (cmdEntries_firstEnd c _ _)
  | wireMasterActivate => exact .inl (cmdEntries_firstEnd c _ _)
  | wireUpdateControl1 => exact .inl (cmdDataEntries_firstEnd c _ _ _)
  | wireBorderWaveform => exact .inl (cmdDataEntries_firstEnd c _ _ _)
  | wireDataEntryMode => exact .inl (cmdDataEntries_firstEnd c _ _ _)
  | wireSetRamXWindow s e => exact .inl (cmdDataEntries_firstEnd c _ _ _)
  | wireSetRamYWindow s e => exact .inl (cmdDataEntries_firstEnd c _ _ _)
  | wireSetRamXCounter x => exact .inl (cmdDataEntries_firstEnd c _ _ _)
  | wireSetRamYCounter y => exact .inl (cmdDataEntries_firstEnd c _ _ _)
  | wireTempSensor => exact .inl (cmdDataEntries_firstEnd c _ _ _)
  | wireWriteRamBw bytes => exact .inl (cmdDataEntries_firstEnd c _ _ _)
  | wireWriteRamRed bytes => exact .inl (cmdDataEntries_firstEnd c _ _ _)
  | wireUpdateControl2 => exact .inl (cmdDataEntries_firstEnd c _ _ _)

/-- Among the actions before one of a plan, an operation has ended exactly past `firstEnd`. -/
theorem any_ends {c : Config} {i : Instr} {a b : List Entry} {z : Entry}
    (h : planOf c i = a ++ z :: b) : a.any Entry.ends = decide (firstEnd c i < a.length) := by
  rcases planOf_firstEnd c i with ⟨pre, x, post, hes, hl, hp, hx, -⟩ | ⟨hl, -⟩
  · rw [h] at hes
    rw [← hl]
    rcases List.append_eq_append_iff.mp hes with ⟨w, h1, h2⟩ | ⟨w, h1, h2⟩
    · subst h1
      rw [decide_eq_false (by simp), List.any_eq_false]
      intro y hy
      simp [(hp y (List.mem_append_left _ hy)).1]
    · cases w with
      | nil =>
        rw [List.append_nil] at h1
        subst h1
        rw [decide_eq_false (by omega), List.any_eq_false]
        intro y hy
        simp [(hp y hy).1]
      | cons y w =>
        rw [List.cons_append, List.cons.injEq] at h2
        obtain ⟨rfl, -⟩ := h2
        subst h1
        rw [decide_eq_true (by simp), List.any_eq_true]
        exact ⟨x, by simp, hx⟩
  · rw [h] at hl
    have : a = [] := by
      cases a with
      | nil => rfl
      | cons y a => simp at hl
    subst this
    simp

/-- The bus call before a restore of `DC` is not where the first operation ends. -/
theorem firstEnd_ne_bus {c : Config} {i : Instr} {a b : List Entry} {x y : Entry} {bytes : List Byte}
    (h : planOf c i = a ++ x :: y :: b) (hx : x.act = .bus bytes) (hy : isRestore y.act = true) :
    firstEnd c i ≠ a.length := by
  intro hf
  rcases planOf_firstEnd c i with ⟨pre, z, post, hes, hl, -, -, hb⟩ | ⟨hl, -⟩
  · rw [h] at hes
    obtain ⟨rfl, h2⟩ := List.append_inj hes (by omega)
    cases h2
    have : isRestore y.act = false := hb bytes hx
    rw [hy] at this; cases this
  · rw [h] at hl; simp at hl; omega

/-- No sample stands before the place where the first operation ends. -/
theorem firstEnd_le_sample {c : Config} {i : Instr} {a b : List Entry} {x : Entry}
    (h : planOf c i = a ++ x :: b) (hx : x.act = .sample) : firstEnd c i ≤ a.length := by
  rcases planOf_firstEnd c i with ⟨pre, z, post, hes, hl, hp, -, -⟩ | ⟨-, hn⟩
  · by_contra hlt
    rw [h] at hes
    rcases List.append_eq_append_iff.mp hes with ⟨w, h1, h2⟩ | ⟨w, h1, h2⟩
    · cases w with
      | nil => rw [h1] at hl; simp at hl; omega
      | cons y w =>
        rw [List.cons_append, List.cons.injEq] at h2
        obtain ⟨rfl, -⟩ := h2
        exact (hp x (by rw [h1]; simp)).2 hx
    · rw [h1] at hlt; simp at hlt; omega
  · exact absurd hx (hn x (by rw [h]; simp))

end Sys2Proof.Machine
end

