-- ==== Sys2Proof/Laws/Events.lean ====
section
/-! SUPPORT. Everything an operation can do from the moment it is issued, over all the steps it takes
(`OpCase`): what it adds to the trace, where its events come from, which latches it can move; and what a
run does to the sequencer's state. -/

namespace Sys2Proof.Machine

/-! ### Events and actions -/

/-- Every event of a part of a sequence comes from one of its actions. -/
theorem Polled.mem {es : List Entry} {evs : List Event} (h : Polled es evs) :
    ∀ ev ∈ evs, ∃ x ∈ es, doneEvent x.act ev ∨ (ev = .sample .high ∧ x.act = .sample) := by
  induction h with
  | nil => intro ev h; cases h
  | done hd _ ih =>
    intro ev hev
    rcases List.mem_cons.mp hev with rfl | hev
    · exact ⟨_, List.mem_cons_self, .inl hd⟩
    · obtain ⟨x, hx, hh⟩ := ih ev hev; exact ⟨x, List.mem_cons_of_mem _ hx, hh⟩
  | poll ha _ ih =>
    intro ev hev
    rcases List.mem_cons.mp hev with rfl | hev
    · exact ⟨_, List.mem_cons_self, .inr ⟨rfl, ha⟩⟩
    · exact ih ev hev

/-- Events of actions are no returns and no halts. -/
theorem Polled.plain {es : List Entry} {evs : List Event} (h : Polled es evs) :
    ∀ ev ∈ evs, isPlain ev = true := by
  intro ev hev
  obtain ⟨x, -, hd | ⟨rfl, -⟩⟩ := h.mem ev hev
  · exact doneEvent_plain hd
  · rfl

theorem isRet_of_plain {ev : Event} (h : isPlain ev = true) : isRet ev = false := by
  cases ev with
  | ret op o => cases h
  | _ => rfl

/-- Every action but a sample has one event when it is done. -/
theorem doneEvent_unique {a : Act} {x y : Event} (hx : doneEvent a x) (hy : doneEvent a y)
    (ha : a ≠ .sample) : x = y := by
  cases a with
  | drive p v => exact hx.trans hy.symm
  | restore v => exact hx.trans hy.symm
  | sample => exact absurd rfl ha
  | delay ms => exact hx.trans hy.symm
  | bus bytes => exact hx.trans hy.symm
  | raise f => exact hx.elim

/-- Without samples a sequence is followed by one list of events only. -/
theorem Follows.unique {es : List Entry} {evs evs' : List Event} (h : Follows es evs)
    (h' : Follows es evs') (hn : ∀ x ∈ es, x.act ≠ .sample) : evs = evs' := by
  induction h generalizing evs' with
  | nil => cases h'; rfl
  | cons hd _ ih =>
    cases h' with
    | cons hd' h' =>
      rw [ih h' fun x hx => hn x (List.mem_cons_of_mem _ hx),
        doneEvent_unique hd hd' (hn _ List.mem_cons_self)]

/-- No event of a done action is an error of the external bus. -/
theorem Polled.no_error {es : List Entry} {evs : List Event} (h : Polled es evs)
    (bytes : List Byte) (err : BusError) : Event.bus bytes (.err err) ∉ evs := by
  intro hm
  obtain ⟨x, -, hd | ⟨hd, -⟩⟩ := h.mem _ hm
  · cases hc : x.act <;> rw [hc] at hd <;> simp [doneEvent] at hd
  · cases hd

/-- A drive among the events of a sequence is that of an action, and the events before it are those of
the actions before that one. -/
theorem Polled.split {es : List Entry} {evs : List Event} (h : Polled es evs) :
    ∀ (m : Nat) (p : Pin) (v : Level), evs[m]? = some (.drive p v) →
      ∃ a x b, es = a ++ x :: b ∧ Polled a (evs.take m) ∧ doneEvent x.act (.drive p v) := by
  induction h with
  | nil => intro m p v h; simp at h
  | @done e es ev evs hd _ ih =>
    intro m p v h
    cases m with
    | zero =>
      rw [List.getElem?_cons_zero] at h
      cases h
      exact ⟨[], e, es, rfl, .nil, hd⟩
    | succ m =>
      obtain ⟨a, x, b, rfl, hp, hx⟩ := ih m p v (by simpa using h)
      exact ⟨e :: a, x, b, rfl, .done hd hp, hx⟩
  | @poll e es evs ha hp ih =>
    intro m p v h
    cases m with
    | zero => simp at h
    | succ m =>
      obtain ⟨a, x, b, hes, ht, hx⟩ := ih m p v (by simpa using h)
      cases a with
      | nil =>
        simp only [List.nil_append, List.cons.injEq] at hes
        rw [← hes.1, ha] at hx
        simp [doneEvent] at hx
      | cons y a =>
        simp only [List.cons_append, List.cons.injEq] at hes
        obtain ⟨rfl, rfl⟩ := hes
        exact ⟨e :: a, x, b, rfl, .poll ha ht, hx⟩

/-! ### Everything an operation can do -/

/-- What comes after the events of the actions that are done, and where the operation is then: it has
ended; it is held at the next action, a sample having read high any number of times; the block has
halted there; or that action was a bus call that failed, after which the operation has ended, at once
or with `DC` restored, or the block has halted at the restore. The list is the rest of the sequence. -/
inductive OpTail (c : Config) (i : Instr) (n : Nat) :
    List Entry → List Event → Pc → Option Fatal → Prop where
  | ended : OpTail c i n [] [.ret (opName i) .ok] .idle none
  | held (x : Entry) (b : List Entry) (k : Nat) (hk : k ≠ 0 → x.act = .sample) :
      OpTail c i n (x :: b) (List.replicate k (Event.sample .high)) (.running i x.pos n none) none
  | halted (x : Entry) (b : List Entry) (f : Fatal)
      (hx : x.act = .raise f ∨ ∃ p, drivenPin x.act = some p ∧ f = .pinFault p) :
      OpTail c i n (x :: b) [.halt f] (.running i x.pos n none) (some f)
  | failed (x : Entry) (b : List Entry) (bytes : List Byte) (err : BusError)
      (hx : x.act = .bus bytes) (hb : PlainStart b) :
      OpTail c i n (x :: b) [.bus bytes (.err err), .ret (opName i) (.err err)] .idle none
  | restored (x y : Entry) (b : List Entry) (bytes : List Byte) (err : BusError)
      (hx : x.act = .bus bytes) (hy : y.act = .restore c.dcData) :
      OpTail c i n (x :: y :: b)
        [.bus bytes (.err err), .drive .dc c.dcData, .ret (opName i) (.err err)] .idle none
  | restoreHalted (x y : Entry) (b : List Entry) (bytes : List Byte) (err : BusError)
      (hx : x.act = .bus bytes) (hy : y.act = .restore c.dcData) :
      OpTail c i n (x :: y :: b) [.bus bytes (.err err), .halt (.pinFault .dc)]
        (.running i y.pos (n + 1) (some err)) (some (.pinFault .dc))

/-- The state `t` an operation has come to that was issued with the trace `start` and the latches `ps`:
it has done the actions `a` of its sequence, and then one of the things of `OpTail`. -/
structure OpCase (c : Config) (i : Instr) (start : List Event) (ps : Pins) (t : State)
    (done tail : List Event) (a b : List Entry) : Prop where
  plan   : planOf c i = a ++ b
  polled : Polled a done
  rest   : OpTail c i a.length b tail t.pc t.fault
  trace  : t.trace = start ++ (done ++ tail)
  pins   : t.pins = replay ps (done ++ tail)

/-- After an action of a plan the restores are still where the error path needs them. -/
theorem restores_after {c : Config} {i : Instr} {a b : List Entry} {x : Entry}
    (h : planOf c i = a ++ x :: b) : RestoresOk c b := by
  have hr := planOf_restores c i
  rw [h] at hr
  exact (RestoresOk.right a hr).2

/-- What an operation does after a bus call that failed. -/
theorem op_failed {c : Config} {i : Instr} {start : List Event} {ps : Pins} {before : List Event}
    {a b : List Entry} {x : Entry} {bytes : List Byte} {err : BusError} {s : State}
    (hes : planOf c i = a ++ x :: b) (hp : Polled a before) (hx : x.act = .bus bytes)
    (hf : s.fault = none) (ht : s.trace = start ++ (before ++ [.bus bytes (.err err)]))
    (hq : s.pins = replay ps (before ++ [.bus bytes (.err err)])) :
    ∃ tail, OpCase c i start ps (run i b (a.length + 1) (some err) s) before tail a (x :: b) := by
  have hec := error_case i (restores_after hes) (a.length + 1) err s
  generalize run i b (a.length + 1) (some err) s = t at hec ⊢
  have hpb : ∀ evs : List Event, replay ps (before ++ .bus bytes (.err err) :: evs) =
      replay s.pins evs := by
    intro evs
    rw [hq, ← replay_append, List.append_assoc, List.singleton_append]
  cases hec with
  | ended hb =>
    refine ⟨[.bus bytes (.err err), .ret (opName i) (.err err)], hes, hp, ?_, ?_, ?_⟩
    · rw [State.finish_fault, hf]
      exact .failed x b bytes err hx hb
    · simp [ht]
    · rw [hpb]; rfl
  | restored e y b' hb hy =>
    subst hb
    refine ⟨[.bus bytes (.err err), .drive .dc c.dcData, .ret (opName i) (.err err)], hes, hp, ?_,
      ?_, ?_⟩
    · rw [State.finish_fault, State.emit_fault, State.withEnv_fault, hf]
      exact .restored x y b' bytes err hx hy
    · simp [ht]
    · rw [hpb]; rfl
  | halted e y b' hb hy =>
    subst hb
    refine ⟨[.bus bytes (.err err), .halt (.pinFault .dc)], hes, hp, .restoreHalted x y b' bytes err hx hy, ?_, ?_⟩
    · simp [ht]
    · rw [hpb]; rfl

/-- What an operation does from a place its events fit. -/
theorem op_run {c : Config} {i : Instr} {start : List Event} {ps : Pins} {evs : List Event}
    {pos : Pos} {n : Nat} {r : Option BusError} {s : State} (hf : s.fault = none)
    (ht : s.trace = start ++ evs) (hq : s.pins = replay ps evs)
    (hfit : progressFits c evs (.running i pos n r)) :
    ∃ done tail a b,
      OpCase c i start ps (run i ((planOf c i).drop n) n r s) done tail a b := by
  have hplan : planOf c i = (planOf c i).take n ++ (planOf c i).drop n :=
    (List.take_append_drop n _).symm
  cases r with
  | some err =>
    obtain ⟨before, m, x, bytes, rfl, hm, hx, rfl, hp⟩ := hfit
    obtain ⟨hlt, hget⟩ := List.getElem?_eq_some_iff.mp hm
    have hes : planOf c i = (planOf c i).take m ++ x :: (planOf c i).drop (m + 1) := by
      rw [← hget, List.getElem_cons_drop, List.take_append_drop]
    have hl : ((planOf c i).take m).length = m := by rw [List.length_take]; omega
    obtain ⟨tail, h⟩ := op_failed (start := start) (ps := ps) hes hp hx hf ht hq
    rw [hl] at h
    exact ⟨_, _, _, _, h⟩
  | none =>
    obtain ⟨before, k, rfl, hp, hk⟩ := hfit
    have hk' : k ≠ 0 → ∃ x es, (planOf c i).drop n = x :: es ∧ x.act = .sample := by
      intro h0
      obtain ⟨x, hx, ha⟩ := hk h0
      obtain ⟨hlt, hget⟩ := List.getElem?_eq_some_iff.mp hx
      exact ⟨x, _, by rw [← hget, List.getElem_cons_drop], ha⟩
    have hlen : ∀ a x b, (planOf c i).drop n = a ++ x :: b →
        ((planOf c i).take n ++ a).length = n + a.length := by
      intro a x b h
      have := congrArg List.length h
      rw [List.length_drop, List.length_append, List.length_cons] at this
      rw [List.length_append, List.length_take]
      omega
    generalize hD : (planOf c i).drop n = D at hplan hk' hlen
    have hsplit : ∀ a x b, D = a ++ x :: b →
        planOf c i = ((planOf c i).take n ++ a) ++ x :: b := by
      intro a x b h
      rw [List.append_assoc, ← h]
      exact hplan
    -- the polls before the run belong to its first action
    have hpoll : ∀ (y : Entry) (a' : List Entry) (b : List Entry) (evs : List Event),
        D = y :: a' ++ b → Polled (y :: a') evs →
        Polled (y :: a') (List.replicate k (Event.sample .high) ++ evs) := by
      intro y a' b evs hd h
      refine h.polls k fun h0 => ?_
      obtain ⟨x, es, he, ha⟩ := hk' h0
      rw [hd] at he
      cases he
      exact ha
    have hc := run_case i D n s
    generalize run i D n none s = t at hc ⊢
    cases hc with
    | ended e evs h =>
      refine ⟨before ++ (List.replicate k (Event.sample .high) ++ evs), [.ret (opName i) .ok],
        planOf c i, [], (List.append_nil _).symm, ?_, ?_, ?_, ?_⟩
      · rw [hplan]
        refine hp.append ?_
        cases D with
        | nil =>
          have h0 : k = 0 := by
            by_contra h0
            obtain ⟨x, es, he, -⟩ := hk' h0
            cases he
          subst h0
          exact h.polled
        | cons y a' => exact hpoll y a' [] evs (by simp) h.polled
      · rw [State.finish_fault, State.emit_fault, State.withEnv_fault, hf]
        exact .ended
      · simp [ht]
      · simp [hq, replay_append, applyEvent]
    | held e evs extra a b x hes h hx =>
      have hfa : (((((s.withEnv e).emit (evs ++ extra)).did a).suspend i x.pos (n + a.length)
          none)).fault = none := by simpa using hf
      cases a with
      | nil =>
        cases h
        obtain ⟨k', hk1, rfl⟩ : ∃ k', (k' ≠ 0 → x.act = .sample) ∧
            extra = List.replicate k' (Event.sample .high) := by
          rcases hx with ⟨ha, rfl⟩ | ⟨-, rfl⟩
          · exact ⟨1, fun _ => ha, rfl⟩
          · exact ⟨0, fun h => absurd rfl h, rfl⟩
        have hl := hlen [] x b (by rw [hes])
        rw [List.append_nil] at hl
        refine ⟨before, List.replicate (k + k') (Event.sample .high), (planOf c i).take n, x :: b,
          by simpa using hsplit [] x b hes, hp, ?_, ?_, ?_⟩
        · rw [hl, hfa]
          refine .held x b (k + k') fun h0 => ?_
          by_cases hk0 : k = 0
          · exact hk1 (by omega)
          · obtain ⟨y, es, he, ha⟩ := hk' hk0
            rw [hes] at he
            cases he
            exact ha
        · simp [ht]
        · simp [hq, ← replay_append]
      | cons y a' =>
        obtain ⟨k', hk1, rfl⟩ : ∃ k', (k' ≠ 0 → x.act = .sample) ∧
            extra = List.replicate k' (Event.sample .high) := by
          rcases hx with ⟨ha, rfl⟩ | ⟨-, rfl⟩
          · exact ⟨1, fun _ => ha, rfl⟩
          · exact ⟨0, fun h => absurd rfl h, rfl⟩
        refine ⟨before ++ (List.replicate k (Event.sample .high) ++ evs),
          List.replicate k' (Event.sample .high), (planOf c i).take n ++ y :: a', x :: b,
          hsplit _ _ _ hes, hp.append (hpoll y a' _ evs hes h.polled), ?_, ?_, ?_⟩
        · rw [hlen _ _ _ hes, hfa]
          exact .held x b k' hk1
        · simp [ht]
        · simp [hq, replay_append]
    | halted e evs f a b x hes h hx =>
      cases a with
      | nil =>
        cases h
        have h0 : k = 0 := by
          by_contra h0
          obtain ⟨y, es, he, ha⟩ := hk' h0
          rw [hes] at he
          cases he
          rw [ha] at hx
          rcases hx with hx | ⟨p, hx, -⟩ <;> cases hx
        subst h0
        have hl := hlen [] x b (by rw [hes])
        rw [List.append_nil] at hl
        refine ⟨before, [.halt f], (planOf c i).take n, x :: b, by simpa using hsplit [] x b hes, hp, ?_, ?_, ?_⟩
        · rw [hl]; exact .halted x b f hx
        · simp [ht]
        · simp [hq, replay_append, applyEvent]
      | cons y a' =>
        refine ⟨before ++ (List.replicate k (Event.sample .high) ++ evs), [.halt f],
          (planOf c i).take n ++ y :: a', x :: b,
          hsplit _ _ _ hes, hp.append (hpoll y a' _ evs hes h.polled), ?_, ?_, ?_⟩
        · rw [hlen _ _ _ hes]; exact .halted x b f hx
        · simp [ht]
        · simp [hq, replay_append, applyEvent]
    | failed e evs err bytes a b x hes h hx =>
      have hfa : (((s.withEnv e).emit (evs ++ [.bus bytes (.err err)])).did a).fault = none := by
        simpa using hf
      cases a with
      | nil =>
        cases h
        have h0 : k = 0 := by
          by_contra h0
          obtain ⟨y, es, he, ha⟩ := hk' h0
          rw [hes] at he
          cases he
          rw [ha] at hx
          cases hx
        subst h0
        have hl := hlen [] x b (by rw [hes])
        rw [List.append_nil] at hl
        obtain ⟨tail, ho⟩ := op_failed (start := start) (ps := ps) (err := err) (before := before)
          (a := (planOf c i).take n) (b := b)
          (s := ((s.withEnv e).emit ([] ++ [.bus bytes (.err err)])).did [])
          (by simpa using hsplit [] x b hes) hp hx hfa (by simp [ht]) (by simp [hq, replay_append])
        rw [hl] at ho
        exact ⟨_, _, _, _, ho⟩
      | cons y a' =>
        obtain ⟨tail, ho⟩ := op_failed (start := start) (ps := ps) (err := err)
          (before := before ++ (List.replicate k (Event.sample .high) ++ evs))
          (a := (planOf c i).take n ++ y :: a') (b := b)
          (s := ((s.withEnv e).emit (evs ++ [.bus bytes (.err err)])).did (y :: a'))
          (hsplit _ _ _ hes)
          (hp.append (hpoll y a' _ evs hes h.polled)) hx hfa (by simp [ht])
          (by simp [hq, replay_append])
        rw [hlen _ _ _ hes] at ho
        exact ⟨_, _, _, _, ho⟩

theorem Polled.length_le {es : List Entry} {evs : List Event} (h : Polled es evs) :
    es.length ≤ evs.length := by
  induction h with
  | nil => exact Nat.le_refl _
  | done h t ih => exact Nat.succ_le_succ ih
  | poll h t ih => exact Nat.le_succ_of_le ih

theorem Follows.length {es : List Entry} {evs : List Event} (h : Follows es evs) :
    evs.length = es.length := by
  induction h with
  | nil => rfl
  | cons h t ih => exact congrArg Nat.succ ih

/-- Whether an operation has ended among actions that were done shows in the number of their events too:
no poll stands before the first end. -/
theorem Polled.firstEnd_lt {c : Config} {i : Instr} {a b : List Entry} {x : Entry} {evs : List Event}
    (h : planOf c i = a ++ x :: b) (hp : Polled a evs) :
    firstEnd c i < a.length ↔ firstEnd c i < evs.length := by
  refine ⟨fun hl => Nat.lt_of_lt_of_le hl hp.length_le, fun hl => ?_⟩
  by_contra hn
  have hs : ∀ y ∈ a, y.act ≠ .sample := by
    intro y hy ha
    obtain ⟨a1, a2, rfl⟩ := List.append_of_mem hy
    have := firstEnd_le_sample (h.trans (by rw [List.append_assoc, List.cons_append])) ha
    simp only [List.length_append, List.length_cons] at hn
    omega
  rw [(hp.follows hs).length] at hl
  exact hn hl

/-- `result` after actions that were done (10_state.md rule R15). -/
theorem did_resultAfter {c : Config} {i : Instr} {n : Nat} {a b : List Entry} {x : Entry} {s : State}
    {o : Option OpOutcome} (h : (planOf c i).drop n = a ++ x :: b)
    (hs : s.result = resultAfter c i n o) :
    (s.did a).result = resultAfter c i (n + a.length) o := by
  have hlt : n < (planOf c i).length := by
    have := congrArg List.length h
    rw [List.length_drop, List.length_append, List.length_cons] at this
    omega
  have hl : ((planOf c i).take n).length = n := by rw [List.length_take]; omega
  have hes : planOf c i = ((planOf c i).take n ++ a) ++ x :: b := by
    rw [List.append_assoc, ← h, List.take_append_drop]
  have h1 := any_ends hes
  rw [List.any_append, List.length_append, hl] at h1
  rw [State.did_result, hs]
  unfold resultAfter
  by_cases hf : firstEnd c i < n
  · rw [if_pos hf, ite_self, if_pos (show firstEnd c i < n + a.length by omega)]
  · have h0 : ((planOf c i).take n).any Entry.ends = false := by
      have h2 : planOf c i = (planOf c i).take n ++ (planOf c i).drop n :=
        (List.take_append_drop n _).symm
      cases a with
      | nil => rw [h, List.nil_append] at h2; rw [any_ends h2, hl, decide_eq_false hf]
      | cons y a => rw [h, List.cons_append] at h2; rw [any_ends h2, hl, decide_eq_false hf]
    rw [h0, Bool.false_or] at h1
    rw [h1, if_neg hf]
    by_cases hg : firstEnd c i < n + a.length
    · rw [decide_eq_true hg, if_pos hg]; rfl
    · rw [decide_eq_false hg, if_neg hg]; rfl

/-- `result` where an operation stands after a run, when it was `o` before the operation (10_state.md
rule R15). -/
theorem run_result {c : Config} {i : Instr} {n : Nat} {r : Option BusError} {s : State}
    {o : Option OpOutcome} (hs : s.result = resultAfter c i n o) {j : Instr} {pos : Pos} {m : Nat}
    {q : Option BusError} (hp : (run i ((planOf c i).drop n) n r s).pc = .running j pos m q) :
    (run i ((planOf c i).drop n) n r s).result = resultAfter c i m o := by
  have hrest : ∀ k, RestoresOk c ((planOf c i).drop k) := fun k =>
    RestoresOk.right ((planOf c i).take k) (by
      rw [List.take_append_drop]; exact planOf_restores c i)
  cases r with
  | some err =>
    have hec := error_case i (hrest n) n err s
    generalize run i ((planOf c i).drop n) n (some err) s = t at hec hp ⊢
    cases hec with
    | ended => cases hp
    | restored => cases hp
    | halted e x es' hes hx => cases hp; exact hs
  | none =>
    have hc := run_case i ((planOf c i).drop n) n s
    generalize run i ((planOf c i).drop n) n none s = t at hc hp ⊢
    cases hc with
    | ended => cases hp
    | held e evs extra a b x hes h hx =>
      cases hp
      exact did_resultAfter (s := (s.withEnv e).emit (evs ++ extra)) hes hs
    | halted e evs f a b x hes h hx =>
      cases hp
      exact did_resultAfter (s := (s.withEnv e).emit evs) hes hs
    | failed e evs err bytes a b x hes h hx =>
      have hlt : n < (planOf c i).length := by
        have := congrArg List.length hes
        rw [List.length_drop, List.length_append, List.length_cons] at this
        omega
      have hpl : planOf c i = ((planOf c i).take n ++ a) ++ x :: b := by
        rw [List.append_assoc, ← hes, List.take_append_drop]
      have hl : ((planOf c i).take n ++ a).length = n + a.length := by
        rw [List.length_append, List.length_take]; omega
      have hd := did_resultAfter (s := (s.withEnv e).emit (evs ++ [.bus bytes (.err err)])) hes hs
      have hec := error_case i (restores_after hpl) (n + a.length + 1) err
        (((s.withEnv e).emit (evs ++ [.bus bytes (.err err)])).did a)
      generalize run i b (n + a.length + 1) (some err) _ = t at hec hp ⊢
      cases hec with
      | ended => cases hp
      | restored => cases hp
      | halted e' y es' hb hy =>
        cases hp
        subst hb
        have hne := firstEnd_ne_bus hpl hx (by rw [hy]; rfl)
        rw [hl] at hne
        refine hd.trans ?_
        unfold resultAfter
        by_cases hf : firstEnd c i < n + a.length
        · rw [if_pos hf, if_pos (by omega)]
        · rw [if_neg hf, if_neg (by omega)]

/-- The events of an operation that starts fit its first place. -/
theorem progressFits_start (c : Config) (i : Instr) : progressFits c [] (.running i Pos.dead 0 none) :=
  ⟨[], 0, rfl, .nil, fun h => absurd rfl h⟩

/-- Everything an instruction can do, as it is issued and as it goes on. -/
theorem Advances.op_case {i : Instr} {s t : State} {start : List Event} {ps : Pins}
    (h : Advances i s t start ps) :
    ∃ done tail a b, OpCase s.cfg i start ps t done tail a b := by
  cases h with
  | issued h =>
    obtain ⟨hr, -, -, rfl⟩ := exec_next h
    exact op_run (s := s.enter (opName i)) hr.notHalted (by simp) rfl (progressFits_start s.cfg i)
  | resumed pos n r hi hp h =>
    have hf := (step_next h).1
    rw [step_running hf hp] at h
    cases h
    have hfit := hi.progressOk hf
    rw [hp] at hfit
    have ht := (opStart_append_opEvents s.trace).symm
    refine op_run hf ht ?_ hfit
    conv_lhs => rw [hi.pinsFollowTrace, ht]
    rw [replay_append]

/-- A state in progress or at rest after an operation has done something: its events fit again. -/
theorem OpCase.progress {c : Config} {i : Instr} {start : List Event} {ps : Pins} {t : State}
    {done tail : List Event} {a b : List Entry} (h : OpCase c i start ps t done tail a b)
    (hs : opEvents start = []) (hf : t.fault = none) : progressFits c (opEvents t.trace) t.pc := by
  obtain ⟨hes, hp, ht, htr, -⟩ := h
  have hret : ∀ evs op o, opEvents (start ++ (done ++ (evs ++ [.ret op o]))) = [] := by
    intro evs op o
    rw [← List.append_assoc, ← List.append_assoc, opEvents_ret]
  rw [hf] at ht
  rw [htr]
  generalize t.pc = pc at ht
  cases ht with
  | ended => exact hret [] _ _
  | held x b k hk =>
    refine ⟨done, k, ?_, ?_, fun h0 => ⟨x, ?_, hk h0⟩⟩
    · rw [opEvents_append, hs, List.nil_append]
      intro ev hev
      rcases List.mem_append.mp hev with hev | hev
      · exact isRet_of_plain (hp.plain ev hev)
      · rw [List.eq_of_mem_replicate hev]; rfl
    · rw [hes, List.take_left]; exact hp
    · rw [hes, List.getElem?_append_right (Nat.le_refl _)]; simp
  | failed x b bytes err hx hb => exact hret [_] _ _
  | restored x y b bytes err hx hy => exact hret [_, _] _ _

/-- Where an event of an operation comes from, other than its `Ret` or `Halt`. -/
theorem OpCase.mem {c : Config} {i : Instr} {start : List Event} {ps : Pins} {t : State}
    {done tail : List Event} {a b : List Entry} (h : OpCase c i start ps t done tail a b) :
    ∀ ev ∈ done ++ tail, isPlain ev = true → ∃ x ∈ planOf c i, doneEvent x.act ev ∨
      (ev = .sample .high ∧ x.act = .sample) ∨
      ∃ bytes err, ev = .bus bytes (.err err) ∧ x.act = .bus bytes := by
  obtain ⟨hes, hp, ht, -, -⟩ := h
  intro ev hev hpl
  rw [hes]
  rcases List.mem_append.mp hev with hev | hev
  · obtain ⟨x, hx, hd | hd⟩ := hp.mem ev hev
    · exact ⟨x, List.mem_append_left _ hx, .inl hd⟩
    · exact ⟨x, List.mem_append_left _ hx, .inr (.inl hd)⟩
  · generalize t.pc = pc at ht
    generalize t.fault = f at ht
    cases ht with
    | ended => rw [List.mem_singleton] at hev; subst hev; cases hpl
    | held x b k hk =>
      obtain ⟨hk0, rfl⟩ := List.mem_replicate.mp hev
      exact ⟨x, by simp, .inr (.inl ⟨rfl, hk hk0⟩)⟩
    | halted x b f hx => rw [List.mem_singleton] at hev; subst hev; cases hpl
    | failed x b bytes err hx hb =>
      simp only [List.mem_cons, List.not_mem_nil, or_false] at hev
      rcases hev with rfl | rfl
      · exact ⟨x, by simp, .inr (.inr ⟨_, _, rfl, hx⟩)⟩
      · cases hpl
    | restored x y b bytes err hx hy =>
      simp only [List.mem_cons, List.not_mem_nil, or_false] at hev
      rcases hev with rfl | rfl | rfl
      · exact ⟨x, by simp, .inr (.inr ⟨_, _, rfl, hx⟩)⟩
      · exact ⟨y, by simp, .inl (by rw [hy]; rfl)⟩
      · cases hpl
    | restoreHalted x y b bytes err hx hy =>
      simp only [List.mem_cons, List.not_mem_nil, or_false] at hev
      rcases hev with rfl | rfl
      · exact ⟨x, by simp, .inr (.inr ⟨_, _, rfl, hx⟩)⟩
      · cases hpl

/-- An action that is done drives the pin it drives and no other. -/
theorem doneEvent_pin {a : Act} {ev : Event} (h : doneEvent a ev) {p : Pin}
    (hn : drivenPin a ≠ some p) : isDriveOf p ev = false := by
  have hd : ∀ q v, drivenPin a = some q → ev = .drive q v → isDriveOf p ev = false := by
    rintro q v hq rfl
    exact decide_eq_false fun hpq => hn (hq.trans (congrArg some hpq.symm))
  cases a with
  | drive q v => exact hd q v rfl h
  | restore v => exact hd .dc v rfl h
  | sample => rcases h with rfl | rfl <;> rfl
  | delay ms => cases h; rfl
  | bus bytes => cases h; rfl
  | raise f => exact h.elim

/-- A latch that no action of the plan drives keeps its level. -/
theorem Advances.pin {i : Instr} {s t : State} {start : List Event} {ps : Pins}
    (h : Advances i s t start ps) (p : Pin)
    (hn : ∀ x ∈ planOf s.cfg i, drivenPin x.act ≠ some p) : getPin t.pins p = getPin ps p := by
  obtain ⟨done, tail, a, b, ho⟩ := h.op_case
  rw [ho.pins]
  refine getPin_replay_of_not_driven p _ ps fun ev hev => ?_
  cases hpl : isPlain ev with
  | false => cases ev <;> first | rfl | cases hpl
  | true =>
    obtain ⟨x, hx, hd⟩ := ho.mem ev hev hpl
    rcases hd with hd | ⟨rfl, -⟩ | ⟨bytes, err, rfl, -⟩
    · exact doneEvent_pin hd (hn x hx)
    · rfl
    · rfl

/-! ### The bit-banged bus -/

/-- With the bit-banged bus an instruction that has ended did its whole sequence. -/
theorem Advances.ended {i : Instr} {s t : State} {start : List Event} {ps : Pins}
    (hb : s.cfg.busKind = .bitbang) (h : Advances i s t start ps) (ht : t.pc = .idle) :
    ∃ evs, Polled (planOf s.cfg i) evs ∧ t.trace = start ++ evs ++ [.ret (opName i) .ok] ∧
      t.pins = replay ps evs := by
  obtain ⟨done, tail, a, b, hes, hp, hta, htr, hpi⟩ := h.op_case
  have hno : ∀ x bytes, x ∈ b → x.act ≠ .bus bytes := fun x bytes hx =>
    planOf_no_bus hb (by rw [hes]; exact List.mem_append_right _ hx) bytes
  rw [ht] at hta
  generalize t.fault = f at hta
  cases hta with
  | ended =>
    rw [List.append_nil] at hes
    refine ⟨done, hes ▸ hp, by simp [htr], ?_⟩
    rw [hpi, replay_append]; rfl
  | failed x b bytes err hx _ => exact absurd hx (hno x bytes List.mem_cons_self)
  | restored x y b bytes err hx _ => exact absurd hx (hno x bytes List.mem_cons_self)

/-- Only the four operations that wait have a sample in their plan. -/
theorem planOf_no_sample {c : Config} {i : Instr}
    (h : opName i ∉ [OpName.diWaitIdle, .cdNew, .cdInit, .cdDisplayFrame]) :
    ∀ x ∈ planOf c i, x.act ≠ .sample := by
  intro x hx ha
  have hi := mem_planOf hx
  rw [ha] at hi
  cases hi with
  | bitbang h p v ha hp => cases ha
  | write h ha =>
    rcases ha with (⟨-, p, v, ha, -⟩ | ⟨-, bytes, ha⟩) | ⟨v, ha⟩ | ha <;> cases ha
  | reset h ha => rcases ha with ⟨v, ha⟩ | ⟨ms, ha⟩ <;> cases ha
  | sample h' ha => exact h h'
  | unsupported h ha => cases ha
  | window sx sy ex ey h ha => cases ha

/-- With the bit-banged bus an instruction without samples that has ended produced the events of its
sequence. -/
theorem Advances.ended_eq {i : Instr} {s t : State} {start : List Event} {ps : Pins}
    {evs : List Event} (hb : s.cfg.busKind = .bitbang) (h : Advances i s t start ps)
    (ht : t.pc = .idle) (hf : Follows (planOf s.cfg i) evs)
    (hn : opName i ∉ [OpName.diWaitIdle, .cdNew, .cdInit, .cdDisplayFrame]) :
    t.trace = start ++ evs ++ [.ret (opName i) .ok] ∧ t.pins = replay ps evs := by
  obtain ⟨evs', hp, h1, h2⟩ := h.ended hb ht
  have hns := planOf_no_sample hn (c := s.cfg)
  rw [hf.unique (hp.follows hns) hns]
  exact ⟨h1, h2⟩

/-! ### The sequencer -/

/-- What a run does to `seq` and the mark: nothing while the operation is in progress, and what its
outcome says when it has ended (42_controller_sequences.md rule R105). -/
theorem run_sequencer (i : Instr) (es : List Entry) (n : Nat) (r : Option BusError) (s : State) :
    ((run i es n r s).pc = .idle → ∃ o, (run i es n r s).result = some o ∧
      (run i es n r s).seq = seqLeave (opName i) o s.seq ∧
      (run i es n r s).ctrlUnspecified = markLeave (opName i) o s.ctrlUnspecified) ∧
    ((run i es n r s).pc ≠ .idle → (run i es n r s).seq = s.seq ∧
      (run i es n r s).ctrlUnspecified = s.ctrlUnspecified) := by
  have h := run_end i es n r s
  generalize run i es n r s = t at h
  cases h with
  | finished e evs r hp => exact ⟨fun _ => ⟨outcomeOf r, rfl, rfl, rfl⟩, fun h => absurd rfl h⟩
  | held => exact ⟨nofun, fun _ => ⟨rfl, rfl⟩⟩
  | halted => exact ⟨nofun, fun _ => ⟨rfl, rfl⟩⟩

/-- What a run leaves as it is, and that it only appends to the trace. -/
theorem RunEnd.extends {i : Instr} {es : List Entry} {n : Nat} {s t : State}
    (h : RunEnd i es n s t) : t.cfg = s.cfg ∧ t.port = s.port ∧
      ∃ evs, t.trace = s.trace ++ evs ∧ t.pins = replay s.pins evs := by
  cases h with
  | finished e evs r hp =>
    refine ⟨rfl, rfl, evs ++ [.ret (opName i) (outcomeOf r)], ?_, ?_⟩
    · simp [State.finish, State.emit, State.withEnv]
    · simp [State.finish, State.emit, State.withEnv, replay_append, applyEvent]
  | held e evs m x r o hp hm hs ha => exact ⟨rfl, rfl, evs, rfl, rfl⟩
  | halted e evs f m x r o hp hm hs =>
    refine ⟨rfl, rfl, evs ++ [.halt f], ?_, ?_⟩
    · simp [State.halt, State.suspend, State.withResult, State.emit, State.withEnv]
    · simp [State.suspend, State.halt, State.withResult, State.emit, State.withEnv, replay_append,
        applyEvent]

/-- No instruction writes a parameter (10_state.md rule R22). -/
theorem Advances.cfg {i : Instr} {s t : State} {start : List Event} {ps : Pins}
    (h : Advances i s t start ps) : t.cfg = s.cfg := by
  cases h with
  | issued h =>
    obtain ⟨-, -, -, rfl⟩ := exec_next h
    exact (run_end i (planOf s.cfg i) 0 none (s.enter (opName i))).extends.1
  | resumed pos n r hi hp h =>
    rw [step_running (step_next h).1 hp] at h
    cases h
    exact (run_end i ((planOf s.cfg i).drop n) n r s).extends.1

end Sys2Proof.Machine
end

