-- ==== Sys2Proof/Laws/PerInstr.lean ====
section
/-! SUPPORT. The statements made per instruction: the length of the request that names it. -/

namespace Sys2Proof.Laws.RequestLength

/-- The encoding of an instruction has the number of bytes its format fixes (30_encoding.md rule R55,
rule R65). -/
def Statement (i : Instr) : Prop := ∀ c : Config, (encode c i).bytes.length = requestLength c i

theorem sbWrite (bytes : List Byte) : Statement (.sbWrite bytes) := fun _ => by
  simp only [encode, Request.bytes, requestLength, listBytes_length, List.length_cons]; omega

theorem sbFlush : Statement .sbFlush := fun _ => rfl

theorem sbRead (len : Len) : Statement (.sbRead len) := fun _ => rfl

theorem sbTransfer (bytes : List Byte) : Statement (.sbTransfer bytes) := fun _ => by
  simp only [encode, Request.bytes, requestLength, listBytes_length, List.length_cons]; omega

theorem sbTransferInPlace (bytes : List Byte) : Statement (.sbTransferInPlace bytes) := fun _ => by
  simp only [encode, Request.bytes, requestLength, listBytes_length, List.length_cons]; omega

theorem diReset : Statement .diReset := fun _ => rfl

theorem diWaitIdle : Statement .diWaitIdle := fun _ => rfl

theorem diCmd (opcode : Byte) : Statement (.diCmd opcode) := fun _ => rfl

theorem diData (bytes : List Byte) : Statement (.diData bytes) := fun _ => by
  simp only [encode, Request.bytes, requestLength, listBytes_length, List.length_cons]; omega

theorem diCmdWithData (opcode : Byte) (bytes : List Byte) : Statement (.diCmdWithData opcode bytes) := fun _ => by
  simp only [encode, Request.bytes, requestLength, listBytes_length, List.length_cons]; omega

theorem diDataXTimes (value : Byte) (count : Len) : Statement (.diDataXTimes value count) := fun _ => rfl

theorem cdNew : Statement .cdNew := fun _ => rfl

theorem cdInit : Statement .cdInit := fun _ => rfl

theorem cdUpdateBwFrame (buffer : List Byte) : Statement (.cdUpdateBwFrame buffer) := fun _ => by
  simp only [encode, Request.bytes, requestLength, listBytes_length, List.length_cons]; omega

theorem cdUpdateRedFrame (buffer : List Byte) : Statement (.cdUpdateRedFrame buffer) := fun _ => by
  simp only [encode, Request.bytes, requestLength, listBytes_length, List.length_cons]; omega

theorem cdDisplayFrame : Statement .cdDisplayFrame := fun _ => rfl

theorem cdClearBwFrame (color : Byte) : Statement (.cdClearBwFrame color) := fun _ => rfl

theorem cdClearRedFrame : Statement .cdClearRedFrame := fun _ => rfl

theorem cdSetRamArea (startX : Coord) (startY : Coord) (endX : Coord) (endY : Coord) : Statement (.cdSetRamArea startX startY endX endY) := fun _ => rfl

theorem cdSetRamCounter (x : Coord) (y : Coord) : Statement (.cdSetRamCounter x y) := fun _ => rfl

theorem cdUseFullFrame : Statement .cdUseFullFrame := fun _ => rfl

theorem wireSwReset : Statement .wireSwReset := fun _ => rfl

theorem wireUpdateControl1 : Statement .wireUpdateControl1 := fun _ => by
  simp only [encode, Request.bytes, requestLength, List.length_cons]; omega

theorem wireBorderWaveform : Statement .wireBorderWaveform := fun _ => rfl

theorem wireDataEntryMode : Statement .wireDataEntryMode := fun _ => rfl

theorem wireSetRamXWindow (startX : Byte) (endX : Byte) : Statement (.wireSetRamXWindow startX endX) := fun _ => rfl

theorem wireSetRamYWindow (startY : Coord) (endY : Coord) : Statement (.wireSetRamYWindow startY endY) := fun _ => rfl

theorem wireSetRamXCounter (x : Byte) : Statement (.wireSetRamXCounter x) := fun _ => rfl

theorem wireSetRamYCounter (y : Coord) : Statement (.wireSetRamYCounter y) := fun _ => rfl

theorem wireTempSensor : Statement .wireTempSensor := fun _ => rfl

theorem wireWriteRamBw (bytes : List Byte) : Statement (.wireWriteRamBw bytes) := fun _ => by
  simp only [encode, Request.bytes, requestLength, List.length_cons]; omega

theorem wireWriteRamRed (bytes : List Byte) : Statement (.wireWriteRamRed bytes) := fun _ => by
  simp only [encode, Request.bytes, requestLength, List.length_cons]; omega

theorem wireUpdateControl2 : Statement .wireUpdateControl2 := fun _ => rfl

theorem wireMasterActivate : Statement .wireMasterActivate := fun _ => rfl

end Sys2Proof.Laws.RequestLength
end

