-- ==== Sys2Proof/Laws/Wire.lean ====
section
/-! SUPPORT. What a receiver has of whole sequences, and the command frames in received bytes. -/

namespace Sys2Proof.Machine

/-- A sample shows a receiver nothing. -/
theorem rx_sample (c : Config) (x : Rx) (r : Sample) : Rx.event c x (.sample r) = x := by
  simp [Rx.event, isEdge, applyEvent]

/-- Events other than drives of the clock and of chip-select show a receiver no bit. -/
theorem rx_other {c : Config} {ev : Event}
    (h : ∀ v, ev ≠ .drive .sclk v ∧ ev ≠ .drive .cs v) (x : Rx) :
    Rx.event c x ev = { x with pins := applyEvent x.pins ev } := by
  simp [Rx.event, isEdge, (h _).1, (h _).2]

/-- What a receiver has of a sequence that was followed does not depend on what the samples read. -/
theorem rx_follows {c : Config} {es : List Entry} {evs : List Event} (h : Follows es evs) :
    ∀ evs', Follows es evs' → ∀ x : Rx, evs.foldl (Rx.event c) x = evs'.foldl (Rx.event c) x := by
  induction h with
  | nil => intro evs' h' x; cases h'; rfl
  | @cons e ev es evs hd _ ih =>
    intro evs' h' x
    cases h' with
    | @cons _ ev' _ evs' hd' h' =>
      have he : Rx.event c x ev = Rx.event c x ev' := by
        by_cases ha : e.act = .sample
        · rw [ha] at hd hd'
          rcases hd with rfl | rfl <;> rcases hd' with rfl | rfl <;> simp only [rx_sample]
        · rw [doneEvent_unique hd hd' ha]
      rw [List.foldl_cons, List.foldl_cons, he, ih _ h']

/-- A receiver at the boundary between two bytes takes exactly these bytes from these events, and is at
a boundary again. -/
def Gives (c : Config) (evs : List Event) (out : List (Tag × Byte)) : Prop :=
  ∀ ps before, ∃ ps', evs.foldl (Rx.event c) ⟨ps, [], before⟩ = ⟨ps', [], before ++ out⟩

theorem Gives.append {c : Config} {a b : List Event} {x y : List (Tag × Byte)} (h : Gives c a x)
    (h' : Gives c b y) : Gives c (a ++ b) (x ++ y) := by
  intro ps out
  obtain ⟨p1, h1⟩ := h ps out
  obtain ⟨p2, h2⟩ := h' p1 (out ++ x)
  exact ⟨p2, by rw [List.foldl_append, h1, h2, List.append_assoc]⟩

theorem Gives.wireFrom {c : Config} {evs : List Event} {out : List (Tag × Byte)}
    (h : Gives c evs out) (ps : Pins) : wireFrom c ps evs = out := by
  obtain ⟨p, h⟩ := h ps []
  rw [Machine.wireFrom, h]; rfl

theorem Gives.none {c : Config} {evs : List Event}
    (h : ∀ ev ∈ evs, ∀ v, ev ≠ .drive .sclk v ∧ ev ≠ .drive .cs v) : Gives c evs [] := by
  induction evs with
  | nil => intro ps out; exact ⟨ps, by simp⟩
  | cons ev evs ih =>
    intro ps out
    rw [List.foldl_cons, rx_other (h ev List.mem_cons_self)]
    exact ih (fun x hx => h x (List.mem_cons_of_mem _ hx)) _ out

/-- The bytes of a command frame, tagged. -/
def frameBytes (f : Frame) : List (Tag × Byte) :=
  (.cmd, f.code) :: f.payload.map fun v => (Tag.data, v)

theorem gives_cmd {c : Config} (hb : c.busKind = .bitbang) (v : Byte) :
    Gives c (cmdEvents c v) (frameBytes ⟨v, []⟩) := fun ps out => ⟨_, rx_cmd hb ps out v⟩

theorem gives_cmdData {c : Config} (hb : c.busKind = .bitbang) (v : Byte) (bytes : List Byte) :
    Gives c (cmdDataEvents c v bytes) (frameBytes ⟨v, bytes⟩) :=
  fun ps out => ⟨_, rx_cmdData hb ps out v bytes⟩

theorem gives_fill {c : Config} (hb : c.busKind = .bitbang) (v : Byte) (n : Nat) :
    Gives c (fillEvents c v n) (List.replicate n (.data, v)) :=
  fun ps out => ⟨_, rx_fill hb ps out v n⟩

/-- Samples that read high show a receiver nothing. -/
theorem rx_quiet (c : Config) (evs : List Event) : ∀ x : Rx,
    (evs.filter (· ≠ .sample .high)).foldl (Rx.event c) x = evs.foldl (Rx.event c) x := by
  induction evs with
  | nil => intro x; rfl
  | cons ev evs ih =>
    intro x
    by_cases h : ev = .sample .high
    · subst h
      rw [List.filter_cons_of_neg (by simp), List.foldl_cons, rx_sample, ih]
    · rw [List.filter_cons_of_pos (by simpa using h), List.foldl_cons, List.foldl_cons, ih]

/-- What a receiver has of an instruction's sequence, from any events of it. -/
theorem Polled.wire {c : Config} {es : List Entry} {evs evs' : List Event}
    {out : List (Tag × Byte)} (h : Polled es evs) (h' : Polled es evs') (hg : Gives c evs' out)
    (ps : Pins) : wireFrom c ps evs = out := by
  rw [← hg.wireFrom ps, Machine.wireFrom, Machine.wireFrom, ← rx_quiet c evs, ← rx_quiet c evs',
    rx_follows h.quiet _ h'.quiet]

/-! ### Command frames -/

/-- The frame at the head of received bytes ends where the next command byte stands. -/
theorem framesOf_frame (f : Frame) (rest : List (Tag × Byte))
    (hr : ∀ x ∈ rest.head?, x.1 = .cmd) : framesOf (frameBytes f ++ rest) = f :: framesOf rest := by
  have h1 : ∀ bytes : List Byte,
      ((bytes.map fun v => (Tag.data, v)) ++ rest).takeWhile (·.1 = .data) =
        bytes.map fun v => (Tag.data, v) := by
    intro bytes
    induction bytes with
    | nil =>
      cases rest with
      | nil => rfl
      | cons x rest => simp [hr x rfl]
    | cons b bytes ih => simp [ih]
  have h2 : ∀ bytes : List Byte,
      framesOf ((bytes.map fun v => (Tag.data, v)) ++ rest) = framesOf rest := by
    intro bytes
    induction bytes with
    | nil => rfl
    | cons b bytes ih => exact ih
  rw [frameBytes, List.cons_append, framesOf, h1, h2]
  simp [Function.comp_def]

/-- The frames of received frames are those frames. -/
theorem framesOf_frames (fs : List Frame) : framesOf (fs.flatMap frameBytes) = fs := by
  induction fs with
  | nil => rfl
  | cons f fs ih =>
    rw [List.flatMap_cons, framesOf_frame, ih]
    cases fs with
    | nil => intro x hx; cases hx
    | cons g fs => intro x hx; cases hx; rfl

end Sys2Proof.Machine
end

