-- ==== Sys2Proof/Machine/Program.lean ====
section
/-! DEFINITION. The textual form of an operation and the program a host issues (30_encoding.md rule R66). -/

namespace Sys2Proof.Machine

/-- A hexadecimal digit, capital. -/
def hexDigit (n : Nat) : String :=
  match n with
  | 0 => "0" | 1 => "1" | 2 => "2" | 3 => "3" | 4 => "4" | 5 => "5" | 6 => "6" | 7 => "7"
  | 8 => "8" | 9 => "9" | 10 => "A" | 11 => "B" | 12 => "C" | 13 => "D" | 14 => "E"
  | _ => "F"

/-- "a byte as `0x..`" -/
def byteText (v : Byte) : String := "0x" ++ hexDigit (v.toNat / 16) ++ hexDigit (v.toNat % 16)

/-- Texts with a comma and a space between them. -/
def commaText : List String → String
  | [] => ""
  | [t] => t
  | t :: u :: ts => t ++ ", " ++ commaText (u :: ts)

/-- "a byte list in square brackets" -/
def listText (bytes : List Byte) : String := "[" ++ commaText (bytes.map byteText) ++ "]"

/-- "a color by name"; a color operand the spec gives no name is written as its byte (log entry 26). -/
def colorText (v : Byte) : String :=
  if v = 0 then "White" else if v = 1 then "inverse(White)" else byteText v

/-- "a count or coordinate in decimal" -/
def numberText (n : Nat) : String := toString n

/-- An operation's name, then its operands. -/
def lineText (name : String) (operands : List String) : String :=
  match operands with
  | [] => name
  | o :: os => name ++ " " ++ commaText (o :: os)

/-- The textual form of an operation: "its name followed by its operands, comma-separated". A controller
command is the tier DI operation that sends it, its code "written by its parameter name". -/
def text (c : Config) : Instr → String
  | .sbWrite bytes => lineText "SB.WRITE" [listText bytes]
  | .sbFlush => lineText "SB.FLUSH" []
  | .sbRead len => lineText "SB.READ" [numberText len.toNat]
  | .sbTransfer bytes => lineText "SB.TRANSFER" [listText bytes]
  | .sbTransferInPlace bytes => lineText "SB.TRANSFER_IN_PLACE" [listText bytes]
  | .diReset => lineText "DI.RESET" []
  | .diWaitIdle => lineText "DI.WAIT_IDLE" []
  | .diCmd opcode => lineText "DI.CMD" [byteText opcode]
  | .diData bytes => lineText "DI.DATA" [listText bytes]
  | .diCmdWithData opcode bytes => lineText "DI.CMD_WITH_DATA" [byteText opcode, listText bytes]
  | .diDataXTimes value count =>
    lineText "DI.DATA_X_TIMES" [byteText value, numberText count.toNat]
  | .cdNew => lineText "CD.NEW" []
  | .cdInit => lineText "CD.INIT" []
  | .cdUpdateBwFrame buffer => lineText "CD.UPDATE_BW_FRAME" [listText buffer]
  | .cdUpdateRedFrame buffer => lineText "CD.UPDATE_RED_FRAME" [listText buffer]
  | .cdDisplayFrame => lineText "CD.DISPLAY_FRAME" []
  | .cdClearBwFrame color => lineText "CD.CLEAR_BW_FRAME" [colorText color]
  | .cdClearRedFrame => lineText "CD.CLEAR_RED_FRAME" []
  | .cdSetRamArea sx sy ex ey =>
    lineText "CD.SET_RAM_AREA"
      [numberText sx.toNat, numberText sy.toNat, numberText ex.toNat, numberText ey.toNat]
  | .cdSetRamCounter x y => lineText "CD.SET_RAM_COUNTER" [numberText x.toNat, numberText y.toNat]
  | .cdUseFullFrame => lineText "CD.USE_FULL_FRAME" []
  | .wireSwReset => lineText "DI.CMD" ["C_SW_RESET"]
  | .wireUpdateControl1 =>
    lineText "DI.CMD_WITH_DATA" ["C_UPDATE_CONTROL_1", listText c.updateControl1]
  | .wireBorderWaveform =>
    lineText "DI.CMD_WITH_DATA" ["C_BORDER_WAVEFORM", listText [borderPayload c]]
  | .wireDataEntryMode =>
    lineText "DI.CMD_WITH_DATA" ["C_DATA_ENTRY_MODE", listText [dataEntryPayload c]]
  | .wireSetRamXWindow s e => lineText "DI.CMD_WITH_DATA" ["C_SET_RAM_X_WINDOW", listText [s, e]]
  | .wireSetRamYWindow s e =>
    lineText "DI.CMD_WITH_DATA" ["C_SET_RAM_Y_WINDOW", listText (yWindowPayload s e)]
  | .wireSetRamXCounter x => lineText "DI.CMD_WITH_DATA" ["C_SET_RAM_X_COUNTER", listText [x]]
  | .wireSetRamYCounter y =>
    lineText "DI.CMD_WITH_DATA" ["C_SET_RAM_Y_COUNTER", listText (yCounterPayload y)]
  | .wireTempSensor =>
    lineText "DI.CMD_WITH_DATA" ["C_TEMP_SENSOR", listText [c.flags.internalTempSensor]]
  | .wireWriteRamBw bytes => lineText "DI.CMD_WITH_DATA" ["C_WRITE_RAM_BW", listText bytes]
  | .wireWriteRamRed bytes => lineText "DI.CMD_WITH_DATA" ["C_WRITE_RAM_RED", listText bytes]
  | .wireUpdateControl2 =>
    lineText "DI.CMD_WITH_DATA" ["C_UPDATE_CONTROL_2", listText [c.flags.fullRefresh]]
  | .wireMasterActivate => lineText "DI.CMD" ["C_MASTER_ACTIVATE"]

/-- The lines of a program: the first is issued whatever came before the program, each later one only
after an outcome `ok`. -/
def programLines (c : Config) : List Instr → List Line
  | [] => []
  | i :: is => ⟨encode c i, true⟩ :: is.map fun j => ⟨encode c j, false⟩

/-- The state in which the host has a program to issue. -/
def State.withProgram (s : State) (is : List Instr) : State :=
  { s with port := programLines s.cfg is }

/-- "a program is a list of lines the host issues in order, stopping at the first outcome that is not
`ok`": `n` steps of it. A step issues a line when the operation before it has ended with `ok`, goes on
with one that is held (the host waits for its outcome, 00_scope.md rule R7), and drops the lines left
when it has ended with an error. A program that "says otherwise" has lines with `always`. -/
def runProgram (n : Nat) (is : List Instr) (s : State) : Host.Outcome State Fault Refusal :=
  core.run n (s.withProgram is)

end Sys2Proof.Machine
end

