-- ==== Sys2Proof/Tests/Slice0.lean ====
section
/-! SUPPORT. Tests: the spec's own vectors (95_test_vectors.md) and worked examples, the words of the
descriptor table, what the checks refuse, and for each statement with hypotheses a state that meets
them. Expected results are those of 95_test_vectors.md (V and P numbers), of the spec's worked
examples, or counted by hand from the rules. -/

namespace Sys2Proof.Tests

open Sys2Proof.Machine

/-! ### Configurations -/

/-- The codes of 93_implementation_defined.md G3, as the vectors use them. -/
def g3 : Codes where
  swReset := 0x12
  dataEntryMode := 0x11
  tempSensor := 0x18
  masterActivate := 0x20
  updateControl1 := 0x21
  updateControl2 := 0x22
  writeRamBw := 0x24
  writeRamRed := 0x26
  borderWaveform := 0x3C
  setRamXWindow := 0x44
  setRamYWindow := 0x45
  setRamXCounter := 0x4E
  setRamYCounter := 0x4F

/-- The flags of G4. -/
def g4 : FlagValues := ⟨0x04, 0x01, 0x02, 0x01, 0x80, 0xF7⟩

/-- The configuration the vectors assume: 128 by 296, defaults, `P_UC1` empty. -/
def vec : Config where
  panel := ⟨15, 294⟩
  csActive := .L
  dcCommand := .L
  chunkPred := none
  busKind := .bitbang
  codes := g3
  flags := g4
  updateControl1 := []
  pinFail := false
  init := ⟨.X, .X, .X, .X, .X⟩

/-- The smallest well-formed panel, 8 by 2, for the whole-plane operations. -/
def tiny : Config := { vec with panel := ⟨0, 0⟩ }

def chunk1 : Config := { vec with chunkPred := some 0 }

def ext : Config := { vec with busKind := .external }

/-- After reset, with answers of the environment. -/
def from0 (c : Config) (e : Env) : State := { State.resetWith c with env := e }

/-- No answers known. -/
def noEnv : Env := ⟨[], [], [], [], 0⟩

/-- After a CD.NEW that ended with `ok`, as far as the sequencer shows it. -/
def idle0 (c : Config) (e : Env) : State := { from0 c e with seq := .idle }

def resultOf (o : Host.Outcome State Fault Refusal) : Option (Option OpOutcome) :=
  match o with
  | .next t => some t.result
  | .fault _ => none
  | .refused _ => none

def traceOf (o : Host.Outcome State Fault Refusal) : Option (List Event) :=
  match o with
  | .next t => some t.trace
  | .fault _ => none
  | .refused _ => none

def wireOf (o : Host.Outcome State Fault Refusal) : Option (List (Tag × Byte)) :=
  match o with
  | .next t => some (wire t)
  | .fault _ => none
  | .refused _ => none

def pinsOf (o : Host.Outcome State Fault Refusal) : Option Pins :=
  match o with
  | .next t => some t.pins
  | .fault _ => none
  | .refused _ => none

def drivesOf (o : Host.Outcome State Fault Refusal) : Option Nat := (traceOf o).map driveCount

def statusOf (o : Host.Outcome State Fault Refusal) :
    Option (Option OpOutcome × Option Fatal × Seq × Bool) :=
  match o with
  | .next t => some (t.result, t.fault, t.seq, t.ctrlUnspecified)
  | .fault _ => none
  | .refused _ => none

/-- The operation has ended with `ok`, and a receiver has these bytes. -/
def received (o : Host.Outcome State Fault Refusal) : Option (Pc × Option OpOutcome × List (Tag × Byte)) :=
  match o with
  | .next t => some (t.pc, t.result, wire t)
  | .fault _ => none
  | .refused _ => none

/-- A frame as a receiver has it. -/
def frameBytesOf (code : Byte) (payload : List Byte) : List (Tag × Byte) :=
  (.cmd, code) :: payload.map fun v => (.data, v)

/-! ### What the checks refuse -/

/-- A list of `n` bytes is refused exactly where `n` does not fit 32 bits. -/
theorem test_wf_length (n : Nat) :
    (Instr.sbWrite (List.replicate n 0)).wf = decide (n < 2 ^ 32) ∧
    (Instr.sbTransfer (List.replicate n 0)).wf = decide (n < 2 ^ 32) ∧
    (Instr.sbTransferInPlace (List.replicate n 0)).wf = decide (n < 2 ^ 32) ∧
    (Instr.diData (List.replicate n 0)).wf = decide (n < 2 ^ 32) ∧
    (Instr.diCmdWithData 0 (List.replicate n 0)).wf = decide (n < 2 ^ 32) ∧
    (Instr.cdUpdateBwFrame (List.replicate n 0)).wf = decide (n < 2 ^ 32) ∧
    (Instr.cdUpdateRedFrame (List.replicate n 0)).wf = decide (n < 2 ^ 32) ∧
    (Instr.wireWriteRamBw (List.replicate n 0)).wf = decide (n < 2 ^ 32) ∧
    (Instr.wireWriteRamRed (List.replicate n 0)).wf = decide (n < 2 ^ 32) := by
  simp only [Instr.wf, Instr.byteList, List.length_replicate, and_self]

/-- The smoke test of the check: there is an ill-formed term, and `exec` refuses it. -/
theorem test_wf_refuses_long_list (n : Nat) (h : ¬ n < 2 ^ 32) :
    (Instr.sbWrite (List.replicate n 0)).wf = false ∧
    exec (.sbWrite (List.replicate n 0)) (from0 vec noEnv) = .refused .operandTooLong := by
  have hw : (Instr.sbWrite (List.replicate n 0)).wf = false :=
    (test_wf_length n).1.trans (decide_eq_false h)
  refine ⟨hw, ?_⟩
  simp only [exec, execSbWrite, issue, from0, State.resetWith, hw]
  rfl

/-- The numbers rule R6 does not admit: each of its conditions broken once. -/
theorem test_config_refused :
    vec.withNumbers? 12 2 none = none ∧ vec.withNumbers? 0 2 none = none ∧
    vec.withNumbers? 2056 2 none = none ∧ vec.withNumbers? 8 1 none = none ∧
    vec.withNumbers? 8 513 none = none ∧ vec.withNumbers? 8 2 (some 0) = none := by
  decide +kernel

theorem test_config_bounds_admitted :
    (vec.withNumbers? 8 2 (some 1)).map (fun c => (c.width, c.height, c.maxChunk)) =
      some (8, 2, some 1) ∧
    (vec.withNumbers? 2048 512 none).map (fun c => (c.width, c.height, c.maxChunk)) =
      some (2048, 512, none) := by
  decide +kernel

theorem test_vec_numbers : vec.width = 128 ∧ vec.height = 296 ∧ fillCount vec = 4736 := by
  decide +kernel

/-! ### Decoding: the words of 95_test_vectors.md V60, and command frames of rule R55 -/

theorem test_decode_sb :
    decodeExact [0x00, 0x01, 0x00, 0x00, 0x00, 0xA5] = .ok (.sbWrite [0xA5]) ∧
    decodeExact [0x00, 0x00, 0x00, 0x00, 0x00] = .ok (.sbWrite []) ∧
    decodeExact [0x01] = .ok .sbFlush ∧
    decodeExact [0x02, 0x04, 0x00, 0x00, 0x00] = .ok (.sbRead 4) ∧
    decodeExact [0x03, 0x01, 0x00, 0x00, 0x00, 0xFF] = .ok (.sbTransfer [0xFF]) ∧
    decodeExact [0x04, 0x01, 0x00, 0x00, 0x00, 0x00] = .ok (.sbTransferInPlace [0x00]) :=
  ⟨rfl, rfl, rfl, rfl, rfl, rfl⟩

theorem test_decode_di :
    decodeExact [0x10] = .ok .diReset ∧
    decodeExact [0x11] = .ok .diWaitIdle ∧
    decodeExact [0x12, 0x12] = .ok (.diCmd 0x12) ∧
    decodeExact [0x13, 0x02, 0x00, 0x00, 0x00, 0x00, 0x0F] = .ok (.diData [0x00, 0x0F]) ∧
    decodeExact [0x14, 0x44, 0x02, 0x00, 0x00, 0x00, 0x00, 0x0F] =
      .ok (.diCmdWithData 0x44 [0x00, 0x0F]) ∧
    decodeExact [0x15, 0xFF, 0x80, 0x12, 0x00, 0x00] = .ok (.diDataXTimes 0xFF 4736) :=
  ⟨rfl, rfl, rfl, rfl, rfl, rfl⟩

theorem test_decode_cd :
    decodeExact [0x20] = .ok .cdNew ∧
    decodeExact [0x21] = .ok .cdInit ∧
    decodeExact [0x22, 0x03, 0x00, 0x00, 0x00, 0xFF, 0xFF, 0xFF] =
      .ok (.cdUpdateBwFrame [0xFF, 0xFF, 0xFF]) ∧
    decodeExact [0x23, 0x00, 0x00, 0x00, 0x00] = .ok (.cdUpdateRedFrame []) ∧
    decodeExact [0x24] = .ok .cdDisplayFrame ∧
    decodeExact [0x25, 0x00] = .ok (.cdClearBwFrame 0) ∧
    decodeExact [0x26] = .ok .cdClearRedFrame ∧
    decodeExact [0x27, 0x00, 0x00, 0x00, 0x00, 0x7F, 0x00, 0x27, 0x01] =
      .ok (.cdSetRamArea 0 0 127 295) ∧
    decodeExact [0x28, 0x64, 0x00, 0x2C, 0x01] = .ok (.cdSetRamCounter 100 300) ∧
    decodeExact [0x29] = .ok .cdUseFullFrame :=
  ⟨rfl, rfl, rfl, rfl, rfl, rfl, rfl, rfl, rfl, rfl⟩

/-- Command frames with the G3 and G4 values; the Y value 295 is `27 01` (rule R58). -/
theorem test_decode_wire :
    decodeFrame vec ⟨0x12, []⟩ = some .wireSwReset ∧
    decodeFrame vec ⟨0x21, []⟩ = some .wireUpdateControl1 ∧
    decodeFrame vec ⟨0x3C, [0x05]⟩ = some .wireBorderWaveform ∧
    decodeFrame vec ⟨0x11, [0x03]⟩ = some .wireDataEntryMode ∧
    decodeFrame vec ⟨0x44, [0x00, 0x0F]⟩ = some (.wireSetRamXWindow 0x00 0x0F) ∧
    decodeFrame vec ⟨0x45, [0x00, 0x00, 0x27, 0x01]⟩ = some (.wireSetRamYWindow 0 295) ∧
    decodeFrame vec ⟨0x4E, [0x0C]⟩ = some (.wireSetRamXCounter 0x0C) ∧
    decodeFrame vec ⟨0x4F, [0x2C, 0x01]⟩ = some (.wireSetRamYCounter 300) ∧
    decodeFrame vec ⟨0x18, [0x80]⟩ = some .wireTempSensor ∧
    decodeFrame vec ⟨0x24, [0xFF]⟩ = some (.wireWriteRamBw [0xFF]) ∧
    decodeFrame vec ⟨0x26, [0x00, 0x01]⟩ = some (.wireWriteRamRed [0x00, 0x01]) ∧
    decodeFrame vec ⟨0x22, [0xF7]⟩ = some .wireUpdateControl2 ∧
    decodeFrame vec ⟨0x20, []⟩ = some .wireMasterActivate := by
  decide +kernel

/-- Rule R55 with two equal codes: each row takes the frames its payload form fits. -/
theorem test_decode_equal_codes :
    let c := { vec with codes := { g3 with setRamYWindow := 0x44, setRamYCounter := 0x4E } }
    decodeFrame c ⟨0x44, [0x00, 0x0F]⟩ = some (.wireSetRamXWindow 0x00 0x0F) ∧
    decodeFrame c ⟨0x44, [0x00, 0x00, 0x27, 0x01]⟩ = some (.wireSetRamYWindow 0 295) ∧
    decodeFrame c ⟨0x4E, [0x0C]⟩ = some (.wireSetRamXCounter 0x0C) ∧
    decodeFrame c ⟨0x4E, [0x2C, 0x01]⟩ = some (.wireSetRamYCounter 300) := by decide +kernel

theorem test_decode_refuses :
    decodeExact [] = .error .empty ∧
    decodeExact [0x05] = .error (.unassigned 0x05) ∧
    decodeExact [0x2A] = .error (.unassigned 0x2A) ∧
    decodeExact [0xFF] = .error (.unassigned 0xFF) ∧
    decodeExact [0x12] = .error (.truncated 0x12) ∧
    decodeExact [0x00, 0x02, 0x00, 0x00, 0x00, 0xA5] = .error (.truncated 0x00) ∧
    decodeExact [0x10, 0x11] = .error (.trailing 1) ∧
    decodeRequest vec (.frame ⟨0x44, [0x00]⟩) = .error (.unknownFrame ⟨0x44, [0x00]⟩) :=
  ⟨rfl, rfl, rfl, rfl, rfl, rfl, rfl, rfl⟩

theorem test_decode_table_word :
    decodeTableWord 8 0x27 = some (.cdSetRamArea 0 0 0 0) ∧
    decodeTableWord 16 0x1212 = some (.diCmd 0x12) ∧ decodeTableWord 8 0x05 = none := by
  decide +kernel

/-! ### Tier SB -/

/-- The drives of a bit cell, written out from rule R50. -/
def cell (b : Level) : List Event := [.drive .sclk .L, .drive .mosi b, .drive .sclk .H]

/-- V1. -/
theorem test_sbWrite_a5 :
    traceOf (exec (.sbWrite [0xA5]) (from0 vec noEnv)) =
      some (.drive .cs .L :: (cell .H ++ cell .L ++ cell .H ++ cell .L ++ cell .L ++ cell .H ++
        cell .L ++ cell .H ++ [.drive .cs .H, .ret .sbWrite .ok])) := by decide +kernel

/-- V55: the fifth drive fails. -/
theorem test_sbWrite_pinFault :
    traceOf (exec (.sbWrite [0xA5])
      (from0 { vec with pinFail := true } ⟨[], [], [], [false, false, false, false, true], 0⟩)) =
      some [.drive .cs .L, .drive .sclk .L, .drive .mosi .H, .drive .sclk .H,
        .halt (.pinFault .sclk)] := by decide +kernel

/-- V8: 8 falling edges from a high clock, 7 from a low one. -/
theorem test_falling_edges :
    edgeCount .sclk .L ⟨.X, .H, .X, .X, .X⟩ (writeEvents vec [0xA5]) = 8 ∧
    edgeCount .sclk .L ⟨.X, .L, .X, .X, .X⟩ (writeEvents vec [0xA5]) = 7 := by decide +kernel

/-- V10. -/
theorem test_sbFlush : traceOf (exec .sbFlush (from0 vec noEnv)) = some [.ret .sbFlush .ok] := by
  decide +kernel

/-- V11. -/
theorem test_sbRead :
    traceOf (exec (.sbRead 0) (from0 vec noEnv)) = some [.halt (.unsupported .sbRead)] := by
  decide +kernel

theorem test_sbTransfer :
    traceOf (exec (.sbTransfer []) (from0 vec noEnv)) = some [.halt (.unsupported .sbTransfer)] := by
  decide +kernel

theorem test_sbTransferInPlace :
    traceOf (exec (.sbTransferInPlace [0]) (from0 vec noEnv)) =
      some [.halt (.unsupported .sbTransferInPlace)] := by decide +kernel

/-! ### Tier DI -/

/-- V20. -/
theorem test_diReset :
    traceOf (exec .diReset (from0 vec ⟨[], [], [true, true], [], 0⟩)) =
      some [.drive .rst .L, .delay 10, .drive .rst .H, .delay 10, .ret .diReset .ok] := by
  decide +kernel

/-- V21: a failed read ends the wait. -/
theorem test_diWaitIdle_fail :
    traceOf (exec .diWaitIdle (from0 vec ⟨[.fail], [], [], [], 0⟩)) =
      some [.sample .fail, .ret .diWaitIdle .ok] := by decide +kernel

/-- V21: a high sample does not. -/
theorem test_diWaitIdle_high :
    traceOf (exec .diWaitIdle (from0 vec ⟨[.high], [], [], [], 0⟩)) = some [.sample .high] := by
  decide +kernel

/-- V22. -/
theorem test_diCmd :
    drivesOf (exec (.diCmd 0x12) (from0 vec noEnv)) = some 28 ∧
    received (exec (.diCmd 0x12) (from0 vec noEnv)) = some (.idle, some .ok, [(.cmd, 0x12)]) := by
  decide +kernel

/-- V28: the bus answers `err(7)`. -/
theorem test_diCmd_error :
    traceOf (exec (.diCmd 0x12) (from0 ext ⟨[], [.err 7], [], [], 0⟩)) =
      some [.drive .dc .L, .bus [0x12] (.err 7), .drive .dc .H, .ret .diCmd (.err 7)] := by
  decide +kernel

/-- V23: one chip-select window a byte with the ceiling 1; no window for the empty list. -/
theorem test_diData_chunks :
    drivesOf (exec (.diData [0x00, 0x0F]) (from0 vec noEnv)) = some 51 ∧
    drivesOf (exec (.diData [0x00, 0x0F]) (from0 chunk1 noEnv)) = some 53 ∧
    drivesOf (exec (.diData []) (from0 vec noEnv)) = some 1 := by decide +kernel

theorem test_diData_wire :
    received (exec (.diData [0x00, 0x0F]) (from0 chunk1 noEnv)) =
      some (.idle, some .ok, [(.data, 0x00), (.data, 0x0F)]) := by decide +kernel

/-- V24. -/
theorem test_diCmdWithData :
    received (exec (.diCmdWithData 0x44 [0x00, 0x0F]) (from0 vec noEnv)) =
      some (.idle, some .ok, [(.cmd, 0x44), (.data, 0x00), (.data, 0x0F)]) := by decide +kernel

/-- V28: the second call fails. -/
theorem test_diCmdWithData_error :
    traceOf (exec (.diCmdWithData 0x44 [0x00, 0x0F]) (from0 ext ⟨[], [.ok, .err 7], [], [], 0⟩)) =
      some [.drive .dc .L, .bus [0x44] .ok, .drive .dc .H, .drive .dc .H,
        .bus [0x00, 0x0F] (.err 7), .ret .diCmdWithData (.err 7)] := by decide +kernel

/-- V25. -/
theorem test_diDataXTimes :
    drivesOf (exec (.diDataXTimes 0xFF 3) (from0 vec noEnv)) = some 79 ∧
    traceOf (exec (.diDataXTimes 0xFF 0) (from0 vec noEnv)) =
      some [.drive .dc .H, .ret .diDataXTimes .ok] := by decide +kernel

/-- V28: the third call fails. -/
theorem test_diDataXTimes_error :
    traceOf (exec (.diDataXTimes 0xAA 5) (from0 ext ⟨[], [.ok, .ok, .err 7], [], [], 0⟩)) =
      some [.drive .dc .H, .bus [0xAA] .ok, .bus [0xAA] .ok, .bus [0xAA] (.err 7),
        .ret .diDataXTimes (.err 7)] := by decide +kernel

/-! ### Tier CD -/

/-- V34: `2048 >> 3` does not fit its byte. -/
theorem test_cdSetRamArea :
    received (exec (.cdSetRamArea 16 256 2047 511) (from0 vec noEnv)) = some (.idle, some .ok,
      frameBytesOf 0x44 [0x02, 0xFF] ++ frameBytesOf 0x45 [0x00, 0x01, 0xFF, 0x01]) ∧
    received (exec (.cdSetRamArea 0 0 2048 65535) (from0 vec noEnv)) = some (.idle, some .ok,
      frameBytesOf 0x44 [0x00, 0x00] ++ frameBytesOf 0x45 [0x00, 0x00, 0xFF, 0xFF]) := by
  decide +kernel

/-- V53, V54: refused before anything is driven, also where the bus would answer an error. -/
theorem test_cdSetRamArea_bad :
    traceOf (exec (.cdSetRamArea 8 0 15 0) (from0 vec noEnv)) =
      some [.halt (.invalidWindow 8 0 15 0)] ∧
    traceOf (exec (.cdSetRamArea 5 0 5 9) (from0 ext ⟨[], [.err 7], [], [], 0⟩)) =
      some [.halt (.invalidWindow 5 0 5 9)] := by decide +kernel

/-- V36, V38. -/
theorem test_cdSetRamCounter :
    received (exec (.cdSetRamCounter 100 300) (from0 vec noEnv)) = some (.idle, some .ok,
      frameBytesOf 0x4E [0x0C] ++ frameBytesOf 0x4F [0x2C, 0x01]) ∧
    received (exec (.cdSetRamCounter 2048 65535) (from0 vec noEnv)) = some (.idle, some .ok,
      frameBytesOf 0x4E [0x00] ++ frameBytesOf 0x4F [0xFF, 0xFF]) := by decide +kernel

/-- V39. -/
theorem test_cdUseFullFrame :
    received (exec .cdUseFullFrame (from0 vec noEnv)) = some (.idle, some .ok,
      frameBytesOf 0x44 [0x00, 0x0F] ++ frameBytesOf 0x45 [0x00, 0x00, 0x27, 0x01] ++
      frameBytesOf 0x4E [0x00] ++ frameBytesOf 0x4F [0x00, 0x00]) ∧
    drivesOf (exec .cdUseFullFrame (from0 chunk1 noEnv)) = some 350 := by decide +kernel

/-- Both waits read low and the three delays return. -/
def calm : Env := ⟨[.low, .low], [], [true, true, true], [], 0⟩

/-- V40. -/
theorem test_cdInit :
    drivesOf (exec .cdInit (idle0 vec calm)) = some 564 ∧
    received (exec .cdInit (idle0 vec calm)) = some (.idle, some .ok,
      frameBytesOf 0x12 [] ++ frameBytesOf 0x21 [] ++ frameBytesOf 0x3C [0x05] ++
      frameBytesOf 0x11 [0x03] ++ frameBytesOf 0x44 [0x00, 0x0F] ++
      frameBytesOf 0x45 [0x00, 0x00, 0x27, 0x01] ++ frameBytesOf 0x4E [0x00] ++
      frameBytesOf 0x4F [0x00, 0x00] ++ frameBytesOf 0x18 [0x80]) := by decide +kernel

/-- V45: refused from reset. -/
theorem test_cdInit_gate :
    exec .cdInit (from0 vec calm) = .refused (.notAccepted .uninitialized) := rfl

theorem test_cdNew :
    statusOf (exec .cdNew (from0 vec calm)) = some (some .ok, none, .idle, false) := by
  decide +kernel

/-- P4: an error in the software-reset step. -/
theorem test_cdNew_error :
    traceOf (exec .cdNew (from0 ext ⟨[.low, .low], [.err 7], [true, true, true], [], 0⟩)) =
      some [.drive .rst .L, .delay 10, .drive .rst .H, .delay 10, .drive .dc .L,
        .bus [0x12] (.err 7), .drive .dc .H, .ret .cdNew (.err 7)] ∧
    statusOf (exec .cdNew (from0 ext ⟨[.low, .low], [.err 7], [true, true, true], [], 0⟩)) =
      some (some (.err 7), none, .uninitialized, true) := by decide +kernel

/-- V44: a buffer of three bytes is sent as it is. -/
theorem test_cdUpdateBwFrame :
    (received (exec (.cdUpdateBwFrame [0xFF, 0x00, 0x81]) (idle0 vec noEnv))).map
      (fun x => (x.1, x.2.1, x.2.2.drop 13)) =
      some (.idle, some .ok, frameBytesOf 0x24 [0xFF, 0x00, 0x81]) := by decide +kernel

/-- V44: so is the empty buffer. -/
theorem test_cdUpdateRedFrame :
    (received (exec (.cdUpdateRedFrame []) (idle0 vec noEnv))).map
      (fun x => (x.1, x.2.1, x.2.2.drop 13)) =
      some (.idle, some .ok, [(.cmd, 0x26)]) := by decide +kernel

/-- V41, the wait reading low at once. -/
theorem test_cdDisplayFrame :
    drivesOf (exec .cdDisplayFrame (idle0 vec ⟨[.low], [], [], [], 0⟩)) = some 83 ∧
    received (exec .cdDisplayFrame (idle0 vec ⟨[.low], [], [], [], 0⟩)) =
      some (.idle, some .ok, frameBytesOf 0x22 [0xF7] ++ frameBytesOf 0x20 []) := by
  decide +kernel

/-- V41, the wait reading high and then low: the operation goes on at the next step. -/
theorem test_cdDisplayFrame_polls :
    (traceOf (runProgram 2 [.cdDisplayFrame] (idle0 vec ⟨[.high, .low], [], [], [], 0⟩))).map
      (fun evs => (driveCount evs, evs.drop 83)) =
      some (83, [.sample .high, .sample .low, .ret .cdDisplayFrame .ok]) := by decide +kernel

/-- V46: no master-activate and no wait after an error. -/
theorem test_cdDisplayFrame_error :
    traceOf (exec .cdDisplayFrame (idle0 ext ⟨[.low], [.err 7], [], [], 0⟩)) =
      some [.drive .dc .L, .bus [0x22] (.err 7), .drive .dc .H, .ret .cdDisplayFrame (.err 7)] := by
  decide +kernel

/-- V42 on a panel of 8 by 2, where the fill count is 2: `340 + 28 + 1 + 26 * 2` drives. -/
theorem test_cdClearBwFrame :
    drivesOf (exec (.cdClearBwFrame 0) (idle0 tiny noEnv)) = some 421 := by decide +kernel

/-- V46: the third bus call fails. -/
theorem test_cdClearBwFrame_error :
    statusOf (exec (.cdClearBwFrame 0) (idle0 ext ⟨[], [.ok, .ok, .err 7], [], [], 0⟩)) =
      some (some (.err 7), none, .idle, true) := by decide +kernel

theorem test_cdClearRedFrame :
    drivesOf (exec .cdClearRedFrame (idle0 tiny noEnv)) = some 421 := by decide +kernel

/-! ### Controller commands on the wire -/

/-- Each command frame and its payload by the table of rule R55, with the G3 and G4 values. -/
theorem test_wire_commands :
    [Instr.wireSwReset, .wireUpdateControl1, .wireBorderWaveform, .wireDataEntryMode,
      .wireSetRamXWindow 0x01 0x0F, .wireSetRamYWindow 256 295, .wireSetRamXCounter 0x0C,
      .wireSetRamYCounter 300, .wireTempSensor, .wireWriteRamBw [0xAA], .wireWriteRamRed [],
      .wireUpdateControl2, .wireMasterActivate].map (fun i => wireOf (exec i (from0 vec noEnv))) =
    [frameBytesOf 0x12 [], frameBytesOf 0x21 [], frameBytesOf 0x3C [0x05],
      frameBytesOf 0x11 [0x03], frameBytesOf 0x44 [0x01, 0x0F],
      frameBytesOf 0x45 [0x00, 0x01, 0x27, 0x01], frameBytesOf 0x4E [0x0C],
      frameBytesOf 0x4F [0x2C, 0x01], frameBytesOf 0x18 [0x80], frameBytesOf 0x24 [0xAA],
      frameBytesOf 0x26 [], frameBytesOf 0x22 [0xF7], frameBytesOf 0x20 []].map some := by
  decide +kernel

/-- V61: leftover bits, cells while not selected, and a drive that is no edge give no byte. -/
theorem test_wire_hand_made :
    wireFrom vec vec.init ([.drive .dc .L, .drive .cs .L] ++ byteEvents 0x3C ++ [.drive .cs .H]) =
      [(.cmd, 0x3C)] ∧
    wireFrom vec vec.init (.drive .cs .L :: (cell .H ++ cell .L ++ cell .H ++ cell .H ++
      [.drive .cs .H])) = [] ∧
    wireFrom vec vec.init (.drive .cs .H :: byteEvents 0x3C) = [] ∧
    isEdge .sclk .H ⟨.L, .H, .L, .L, .L⟩ (.drive .sclk .H) = false := by decide +kernel

/-- Rule R15, read inside an operation: held at the call of its DI.CMD, DI.CMD_WITH_DATA shows the outcome
from before; at that of its DI.DATA, that of its DI.CMD; and CD.INIT at its first wait that of its DI.CMD. -/
theorem test_result_inside :
    resultOf (exec (.diCmdWithData 0x44 [1]) (from0 ext ⟨[], [.pending], [], [], 0⟩)) = some none ∧
    resultOf (exec (.diCmdWithData 0x44 [1]) (from0 ext ⟨[], [.ok, .pending], [], [], 0⟩)) =
      some (some .ok) ∧
    resultOf (exec .cdInit (idle0 vec ⟨[.high], [], [true, true], [], 0⟩)) = some (some .ok) := by
  decide +kernel

/-- Rule R143: at least 10 ms for each of the three delays of CD.INIT. -/
theorem test_minElapsed :
    (traceOf (exec .cdInit (idle0 vec calm))).map minElapsed = some 30 := by decide +kernel

/-- Rule R20, for the two drives of rule R77; a delay, a sample and a drive to the same level leave the
waveform as it is (D34). -/
theorem test_waveform :
    waveform .cs vec.init (writeEvents vec []) = [.X, .L, .H] ∧
    waveform .cs ⟨.L, .X, .X, .X, .X⟩ [.delay 10] = [.L] ∧
    waveform .cs ⟨.L, .X, .X, .X, .X⟩ [.drive .cs .L, .sample .high, .drive .sclk .H] = [.L] := by
  decide

/-- Rules R61 and R62: the fill byte of `White`, of `inverse(White)`, and of another color operand. -/
theorem test_fill_byte :
    fillByte 0 = Config.byteValue Config.white ∧
    fillByte 1 = Config.byteValue (Config.inverse Config.white) ∧
    fillByte 2 = Config.byteValue (Config.otherColor 2) ∧
    redFillByte = Config.byteValue (Config.inverse Config.white) := ⟨rfl, rfl, rfl, rfl⟩

/-- The numbers of rule R130. -/
theorem test_cause_numbers :
    outcomeCode (.err 7) = some 1 ∧ fatalCode (.unsupported .sbRead) = 2 ∧
    fatalCode (.invalidWindow 0 0 0 5) = 3 ∧ fatalCode (.pinFault .cs) = 4 := by decide

/-- Rule R67: DI.CMD_WITH_DATA and the tier CD operations are pseudo-operations, DI.CMD is none. -/
theorem test_pseudo :
    isPseudo .diCmdWithData = true ∧ isPseudo .cdUseFullFrame = true ∧ isPseudo .diCmd = false := by
  decide

/-- Rule R164: the full frame of an 8 by 2 panel is two bytes. -/
theorem test_hazards :
    RespectsHazards tiny (.cdUpdateBwFrame [0xFF, 0x00]) ∧
    ¬ RespectsHazards tiny (.cdUpdateBwFrame [0xFF]) := ⟨rfl, nofun⟩

/-! ### Text and programs (rule R66) -/

theorem test_text :
    text vec (.sbWrite [0xA5, 0x3C]) = "SB.WRITE [0xA5, 0x3C]" ∧
    text vec .sbFlush = "SB.FLUSH" ∧
    text vec (.diCmdWithData 0x44 [0x00, 0x0F]) = "DI.CMD_WITH_DATA 0x44, [0x00, 0x0F]" ∧
    text vec (.cdClearBwFrame 0) = "CD.CLEAR_BW_FRAME White" ∧
    text vec .wireSwReset = "DI.CMD C_SW_RESET" := by decide +kernel

theorem test_text_numbers :
    text vec (.diDataXTimes 0xFF 4736) = "DI.DATA_X_TIMES 0xFF, 4736" ∧
    text vec (.cdSetRamArea 0 0 127 295) = "CD.SET_RAM_AREA 0, 0, 127, 295" := by decide +kernel

/-- P5: the program stops at the line that halts. -/
theorem test_program_stops :
    traceOf (runProgram 1 [.cdSetRamArea 0 0 0 5, .sbWrite [0x00]] (from0 vec noEnv)) =
      some [.halt (.invalidWindow 0 0 0 5)] ∧
    runProgram 2 [.cdSetRamArea 0 0 0 5, .sbWrite [0x00]] (from0 vec noEnv) =
      .fault (.halted (.invalidWindow 0 0 0 5)) := ⟨rfl, rfl⟩

/-- The host waits for a line that is held and then issues the next one; after `err(e)` it issues no
later one. -/
theorem test_program_waits :
    traceOf (runProgram 3 [.diWaitIdle, .sbFlush] (from0 vec ⟨[.high, .low], [], [], [], 0⟩)) =
      some [.sample .high, .sample .low, .ret .diWaitIdle .ok, .ret .sbFlush .ok] ∧
    traceOf (runProgram 3 [.diCmd 0x12, .sbFlush] (from0 ext ⟨[], [.err 7], [], [], 0⟩)) =
      some [.drive .dc .L, .bus [0x12] (.err 7), .drive .dc .H, .ret .diCmd (.err 7)] := by
  decide +kernel

/-! ### Fetching from the port -/

/-- A table word is run by the very next step; from reset the gate refuses all public operations but
CD.NEW (V45). -/
theorem test_fetch :
    step (State.reset.withFetchWord 8 0x01) =
      .next { State.reset with result := some .ok, trace := [.ret .sbFlush .ok] } ∧
    (∃ t, step (State.reset.withFetchWord 8 0x20) = .next t) ∧
    step (State.reset.withFetchWord 8 0x24) = .refused (.notAccepted .uninitialized) ∧
    step (State.reset.withFetchWord 8 0x05) = .refused (.undecodable (.unassigned 0x05)) :=
  ⟨rfl, ⟨_, rfl⟩, rfl, rfl⟩

/-! ### Witnesses: for each statement with hypotheses, a state and operands that meet them together -/

theorem ready_from0 (c : Config) (e : Env) : (from0 c e).Ready := ⟨rfl, rfl⟩

theorem ready_idle0 (c : Config) (e : Env) : (idle0 c e).Ready := ⟨rfl, rfl⟩

/-- Events that are drives alone ask nothing of the environment. -/
theorem grants_drives {c : Config} {evs : List Event} (e : Env) (hp : c.pinFail = false)
    (hb : busCount evs = 0) (hd : delayCount evs = 0) (hs : samplesOf evs = []) :
    Grants c evs e e :=
  ⟨by rw [hp]; rfl, by rw [hb]; rfl, by rw [hd]; rfl, by rw [hs]; rfl, rfl⟩

/-- The same, in a form the kernel evaluates. -/
theorem grants_few {c : Config} {evs : List Event} {e : Env} (hp : c.pinFail = false)
    (h : busCount evs = 0 ∧ delayCount evs = 0 ∧ samplesOf evs = []) : Grants c evs e e :=
  grants_drives e hp h.1 h.2.1 h.2.2

/-- The operation has ended. -/
def ended (o : Host.Outcome State Fault Refusal) : Bool :=
  match o with
  | .next t => t.pc = .idle
  | .fault _ => false
  | .refused _ => false

theorem ended_spec {o : Host.Outcome State Fault Refusal} (h : ended o = true) :
    ∃ t, o = .next t ∧ t.pc = .idle := by
  cases o with
  | next t => exact ⟨t, rfl, of_decide_eq_true h⟩
  | fault f => cases h
  | refused r => cases h

/-- At the poll of DI.WAIT_IDLE, after `k` samples that read high. -/
def waiting (k : Nat) (busy : List Sample) : State :=
  { from0 vec ⟨busy, [], [], [], 0⟩ with
    trace := List.replicate k (.sample .high), pc := .running .diWaitIdle Pos.dead 0 none }

def heldWait : State := waiting 0 [.high]

def waited : State := waiting 1 [.low]

/-- In progress after the first event `ev` of an operation issued right after reset. -/
def second (c : Config) (i : Instr) (q : Seq) (pos : Pos) (ev : Event) (e : Env) : State :=
  { from0 c e with
    pins := applyEvent c.init ev, trace := [ev], seq := q, pc := .running i pos 1 none }

/-- At the first delay of DI.RESET. -/
def heldDelay : State :=
  second vec .diReset .uninitialized Pos.dead (.drive .rst .L) ⟨[], [], [false], [], 0⟩

/-- At the bus call of DI.CMD. -/
def heldBus : State :=
  second ext (.diCmd 0x12) .uninitialized { Pos.dead with off := some 0 } (.drive .dc .L)
    ⟨[], [.pending], [], [], 0⟩

/-- At the first delay of CD.INIT. -/
def heldInit : State :=
  second vec .cdInit .initializing { Pos.dead with step := some 0 } (.drive .rst .L)
    ⟨[], [], [false], [], 0⟩

theorem inv_second {c : Config} {i : Instr} {q : Seq} {pos : Pos} {ev : Event} {e : Env}
    {x y : Entry} (hw : i.wf = true) (hx : (planOf c i)[0]? = some x)
    (hy : (planOf c i)[1]? = some y) (hp : y.pos = pos) (hs : skipped none y.act = false)
    (hd : doneEvent x.act ev) (hr : lastRet [ev] none = none) (hh : lastHalt [ev] = none)
    (hf : resultAfter c i 1 none = none) (hq : seqFits q (.running i pos 1 none)) :
    (second c i q pos ev e).Inv := by
  subst hp
  have hres : resultAfter c i 1 (lastRet [ev] none) = none := by rw [hr, hf]
  refine ⟨rfl, hres.symm, hh.symm, fun h => absurd rfl h, hq, ⟨hw, y.act, y.ends, hy, hs⟩, fun _ => ?_⟩
  have ht : (planOf c i).take 1 = [x] := by
    cases hl : planOf c i with
    | nil => rw [hl] at hx; cases hx
    | cons z zs => rw [hl] at hx; cases hx; rfl
  have ho : opEvents [ev] = [ev] := by
    cases ev with
    | ret op o => cases hr
    | _ => rfl
  exact ⟨[ev], 0, ho, ht ▸ .done hd .nil, fun h => absurd rfl h⟩

theorem inv_heldWait : heldWait.Inv :=
  ⟨rfl, rfl, rfl, fun h => absurd rfl h, .inl rfl, ⟨rfl, .sample, true, rfl, rfl⟩, fun _ =>
    ⟨[], 0, rfl, .nil, fun h => absurd rfl h⟩⟩

theorem inv_waited : waited.Inv :=
  ⟨rfl, rfl, rfl, fun h => absurd rfl h, .inl rfl, ⟨rfl, .sample, true, rfl, rfl⟩, fun _ =>
    ⟨[], 1, rfl, .nil, fun _ => ⟨_, rfl, rfl⟩⟩⟩

/-- An operation that ends when it is issued. -/
theorem issued_ended {i : Instr} {s : State} (h : ended (exec i s) = true) :
    ∃ t, Advances i s t s.trace s.pins ∧ t.pc = .idle :=
  let ⟨t, ht, hp⟩ := ended_spec h
  ⟨t, .issued ht, hp⟩

/-- An operation that ends when it goes on after its first event. -/
theorem resumed_ended {c : Config} {i : Instr} {q : Seq} {pos : Pos} {ev : Event} {e : Env}
    (hi : (second c i q pos ev e).Inv) (hr : isRet ev = false)
    (h : ended (step (second c i q pos ev e)) = true) :
    ∃ t, Advances i (second c i q pos ev e) t [] c.init ∧ t.pc = .idle := by
  obtain ⟨t, ht, hp⟩ := ended_spec h
  have ho : opStart (second c i q pos ev e).trace = [] := by simp [second, opStart, hr]
  have ha := Advances.resumed pos 1 none hi rfl ht
  rw [ho] at ha
  exact ⟨t, ha, hp⟩

/-- DI.CMD with the external bus, going on with the answer of its call. -/
def resumedBus (r : BusAnswer) : State :=
  second ext (.diCmd 0x12) .uninitialized { Pos.dead with off := some 0 } (.drive .dc .L)
    ⟨[], [r], [], [], 0⟩

theorem inv_resumedBus (r : BusAnswer) : (resumedBus r).Inv :=
  inv_second rfl rfl rfl rfl rfl rfl rfl rfl rfl (.inl rfl)

/-- A tier DI or tier CD operation with the bit-banged bus, going on after its first drive of `DC`. -/
def resumedDc (c : Config) (i : Instr) (q : Seq) : State :=
  second c i q (((planOf c i)[1]?.map Entry.pos).getD Pos.dead) (.drive .dc .L) noEnv

theorem inv_resumedDc {c : Config} {i : Instr} {q : Seq} {x y : Entry} (hw : i.wf = true)
    (hx : (planOf c i)[0]? = some x) (hy : (planOf c i)[1]? = some y)
    (hs : skipped none y.act = false) (hd : doneEvent x.act (.drive .dc .L))
    (hf : resultAfter c i 1 none = none) (hq : seqFits q (.running i y.pos 1 none)) : (resumedDc c i q).Inv :=
  inv_second hw hx hy (by rw [hy]; rfl) hs hd rfl rfl hf hq

def halted : State := { from0 vec noEnv with fault := some (.pinFault .cs) }

theorem witness_DecodeUndoesEncode :
    (Instr.cdSetRamArea 0 0 127 295).wf = true ∧
    encode vec (.cdSetRamArea 0 0 127 295) =
      .descriptor [0x27, 0, 0, 0, 0, 0x7F, 0, 0x27, 0x01] ∧
    (Instr.wireSetRamYWindow 0 295).wf = true ∧ vec.codes.Distinct := by decide +kernel

theorem witness_EncodeUndoesDecode : decodeExact [0x12, 0x12] = .ok (.diCmd 0x12) := rfl

theorem witness_DecodeTakesFormatLength :
    decodeDescriptor [0x12, 0x12, 0xFF] = .ok (.diCmd 0x12, [0xFF]) := rfl

/-- Also the line issued although the last outcome was an error. -/
theorem witness_UnassignedSelectorRefused :
    let s := { from0 vec noEnv with port := [⟨.descriptor [0x2A], false⟩] }
    let u := { from0 ext noEnv with port := [⟨.descriptor [0x2A], true⟩], result := some (.err 7) }
    (0x2A : Byte).toNat ∉ assignedSelectors ∧ (0x29 : Byte).toNat ∈ assignedSelectors ∧
    (s.Ready ∧ s.port = ⟨.descriptor ((0x2A : Byte) :: []), false⟩ :: [] ∧
      ∀ e, s.result ≠ some (.err e)) ∧
    u.Ready ∧ u.port = ⟨.descriptor ((0x2A : Byte) :: []), true⟩ :: [] :=
  ⟨by decide, by decide, ⟨⟨rfl, rfl⟩, rfl, fun _ => nofun⟩, ⟨rfl, rfl⟩, rfl⟩

/-- A line that runs, one that spells nothing, one that stops after an error, none, and a held wait. -/
theorem witness_StepRunsDecodedInstruction :
    decodeRequest vec (.descriptor [0x01]) = .ok .sbFlush ∧
    decodeRequest vec (.descriptor [0x05]) = .error (.unassigned 0x05) ∧
    (let s := { from0 vec noEnv with port := [⟨.descriptor [0x01], false⟩] };
      s.Ready ∧ s.port = ⟨.descriptor [0x01], false⟩ :: [] ∧ ∀ e, s.result ≠ some (.err e)) ∧
    (let s :=
        { from0 ext noEnv with port := [⟨.descriptor [0x01], false⟩], result := some (.err 7) };
      s.Ready ∧ s.port = ⟨.descriptor [0x01], false⟩ :: [] ∧ s.result = some (.err 7)) ∧
    (from0 vec noEnv).port = [] ∧
    heldWait.fault = none ∧ heldWait.pc = .running .diWaitIdle Pos.dead 0 none :=
  ⟨rfl, rfl, ⟨⟨rfl, rfl⟩, rfl, fun _ => nofun⟩, ⟨⟨rfl, rfl⟩, rfl, rfl⟩, rfl, rfl, rfl⟩

theorem witness_HaltedBlockStops : halted.fault = some (.pinFault .cs) := rfl

/-- Also a drive that changes its level and one that does not. -/
theorem witness_StepExtendsTrace :
    (∃ t, step heldWait = .next t ∧ t.trace = [.sample .high]) ∧
    getPin (replay vec.init []) .cs ≠ Level.L.latch ∧
    getPin (replay vec.init [.drive .cs .L]) .cs = Level.L.latch ∧
    ∀ v, Event.delay 10 ≠ .drive .cs v :=
  ⟨⟨_, rfl, rfl⟩, nofun, rfl, nofun⟩

theorem witness_Inv_reset : (State.resetWith vec).Inv ∧
    step (State.resetWith vec) = .next (State.resetWith vec) :=
  ⟨⟨rfl, rfl, rfl, fun h => absurd rfl h, .inl rfl, trivial, fun _ => rfl⟩, rfl⟩

theorem inv_heldDelay : heldDelay.Inv :=
  inv_second rfl rfl rfl rfl rfl rfl rfl rfl rfl (.inl rfl)

theorem inv_heldInit : heldInit.Inv := inv_second rfl rfl rfl rfl rfl rfl rfl rfl rfl rfl

theorem witness_StepKeepsInvariant :
    (heldWait.Inv ∧ ∃ t, step heldWait = .next t) ∧ waited.Inv ∧ ∃ t, step waited = .next t :=
  ⟨⟨inv_heldWait, _, rfl⟩, inv_waited, _, rfl⟩

theorem witness_BitbangNeverErrs : heldWait.NoBusError ∧ ∃ t, step heldWait = .next t :=
  ⟨⟨rfl, fun _ => nofun, rfl, rfl⟩, _, rfl⟩

theorem witness_RunIsMicroSteps :
    (∃ t, exec .sbFlush (from0 vec noEnv) = .next t) ∧
    heldWait.fault = none ∧ pcFits heldWait.cfg heldWait.pc ∧ ∃ t, step heldWait = .next t :=
  ⟨⟨_, rfl⟩, rfl, ⟨rfl, .sample, true, rfl, rfl⟩, _, rfl⟩

theorem witness_SbWriteCompletes :
    (from0 vec noEnv).Ready ∧ [(0xA5 : Byte)].length < 2 ^ 32 ∧
    Grants vec (writeEvents vec [0xA5]) noEnv noEnv :=
  ⟨⟨rfl, rfl⟩, by decide, grants_drives _ rfl rfl rfl rfl⟩

/-- The first drive of the data line and the first drive of the clock. -/
theorem witness_DataStableWhileClockHigh :
    (∃ after, writeEvents vec [0x80] = [.drive .cs .L, .drive .sclk .L] ++ .drive .mosi .H :: after) ∧
    ∃ after, writeEvents vec [0x80] = [.drive .cs .L] ++ .drive .sclk .L :: after :=
  ⟨⟨_, rfl⟩, _, rfl⟩

theorem witness_EmptySbWrite :
    (from0 vec noEnv).Ready ∧ Grants vec (writeEvents vec []) noEnv noEnv :=
  ⟨⟨rfl, rfl⟩, grants_drives _ rfl rfl rfl rfl⟩

/-- The premise of FlushDoesNothing and of UnsupportedOperationsHalt, the empty list included. -/
theorem witness_Ready : (from0 vec noEnv).Ready ∧ ([] : List Byte).length < 2 ^ 32 :=
  ⟨⟨rfl, rfl⟩, by decide⟩

/-- Drives of four pins: the clock of SB.WRITE, the select line of DI.CMD, the second drive of DI.RESET,
and the first drive of CD.INIT after a wait that read high once. -/
theorem witness_FailedDriveHalts :
    let c := { vec with pinFail := true }
    let w := (((1 : Nat), Sample.low), ((0 : Nat), Sample.low))
    c.pinFail = true ∧ w.1.2 ≠ .high ∧ w.2.2 ≠ .high ∧
    ((from0 c ⟨[], [], [], [false, false, false, false, true], 0⟩).Ready ∧
      (Instr.sbWrite [0xA5]).wf = true ∧ accepts .uninitialized (opName (.sbWrite [0xA5])) = true ∧
      (wholeEvents c w (.sbWrite [0xA5]))[4]? = some (.drive .sclk .L) ∧
      Grants c ((wholeEvents c w (.sbWrite [0xA5])).take 4)
        ⟨[], [], [], [false, false, false, false, true], 0⟩ ⟨[], [], [], [true], 0⟩) ∧
    ((wholeEvents c w (.diCmd 0x12))[0]? = some (.drive .dc .L) ∧
      Grants c ((wholeEvents c w (.diCmd 0x12)).take 0)
        ⟨[], [], [], [true], 0⟩ ⟨[], [], [], [true], 0⟩) ∧
    ((wholeEvents c w .diReset)[2]? = some (.drive .rst .H) ∧
      Grants c ((wholeEvents c w .diReset).take 2)
        ⟨[], [], [true], [false, true], 0⟩ ⟨[], [], [], [true], 0⟩) ∧
    accepts (idle0 c noEnv).seq (opName .cdInit) = true ∧
    (wholeEvents c w .cdInit)[35]? = some (.drive .dc .L) ∧
    Grants c ((wholeEvents c w .cdInit).take 35)
      ⟨[.high, .low], [], [true, true, true], List.replicate 30 false ++ [true], 0⟩
      ⟨[], [], [], [true], 0⟩ :=
  ⟨rfl, nofun, nofun, ⟨⟨rfl, rfl⟩, rfl, rfl, rfl, rfl, rfl, rfl, rfl, rfl⟩,
    ⟨rfl, rfl, rfl, rfl, rfl, rfl⟩, ⟨rfl, rfl, rfl, rfl, rfl, rfl⟩, rfl, by decide +kernel,
    by decide +kernel, by decide +kernel, by decide +kernel, by decide +kernel, rfl⟩

theorem witness_DiResetCompletes :
    (from0 vec ⟨[], [], [true, true], [], 0⟩).Ready ∧
    Grants vec resetEvents ⟨[], [], [true, true], [], 0⟩ noEnv :=
  ⟨⟨rfl, rfl⟩, rfl, rfl, rfl, rfl, rfl⟩

/-- Two high samples before the low one, and none before the failed one. -/
theorem witness_WaitIdlePolls :
    (from0 vec ⟨[.high, .high, .low], [], [], [], 0⟩).Ready ∧ Sample.low ≠ .high ∧
    Sample.fail ≠ .high ∧
    [Sample.high, .high, .low] = List.replicate 2 .high ++ .low :: [] ∧
    [Sample.fail] = List.replicate 0 .high ++ .fail :: [] :=
  ⟨⟨rfl, rfl⟩, nofun, nofun, rfl, rfl⟩

theorem witness_HeldOperationStaysHeld :
    ((planOf vec .diWaitIdle)[0]? = some ⟨Pos.dead, .sample, true⟩ ∧ heldWait.fault = none ∧
      heldWait.pc = .running .diWaitIdle Pos.dead 0 none ∧ heldWait.env.busy = .high :: []) ∧
    ((planOf vec .diReset)[1]? = some ⟨Pos.dead, .delay 10, false⟩ ∧ heldDelay.fault = none ∧
      heldDelay.pc = .running .diReset Pos.dead 1 none ∧ heldDelay.env.delay = false :: []) ∧
    ((planOf ext (.diCmd 0x12))[1]? = some ⟨{ Pos.dead with off := some 0 }, .bus [0x12], false⟩ ∧
      heldBus.fault = none ∧
      heldBus.pc = .running (.diCmd 0x12) { Pos.dead with off := some 0 } 1 none ∧
      heldBus.env.bus = .pending :: []) ∧
    skipped none .sample = false :=
  ⟨⟨rfl, rfl, rfl, rfl⟩, ⟨rfl, rfl, rfl, rfl⟩, ⟨rfl, rfl, rfl, rfl⟩, rfl⟩

/-- Bit-banged and external alike. -/
theorem witness_DiCmdCompletes :
    (from0 vec noEnv).Ready ∧ Grants vec (cmdEvents vec 0x12) noEnv noEnv ∧
    Grants ext (cmdEvents ext 0x12) ⟨[], [.ok], [], [], 0⟩ noEnv :=
  ⟨⟨rfl, rfl⟩, grants_drives _ rfl rfl rfl rfl, rfl, rfl, rfl, rfl, rfl⟩

theorem witness_CommandErrorRestoresSelect :
    let s := from0 ext ⟨[], [.err 7], [], [], 0⟩
    s.Ready ∧ s.cfg.busKind = .external ∧ s.cfg.pinFail = false ∧ s.env.bus = .err 7 :: [] ∧
      [(0x0F : Byte)].length < 2 ^ 32 :=
  ⟨⟨rfl, rfl⟩, rfl, rfl, rfl, by decide⟩

theorem witness_DiDataCompletes :
    (from0 chunk1 noEnv).Ready ∧ [(0x00 : Byte), 0x0F].length < 2 ^ 32 ∧
    Grants chunk1 (dataEvents chunk1 [0x00, 0x0F]) noEnv noEnv :=
  ⟨⟨rfl, rfl⟩, by decide, grants_drives _ rfl rfl rfl rfl⟩

/-- The second of three chunks fails. -/
theorem witness_DiDataStopsAtFailedChunk :
    let s := from0 { ext with chunkPred := some 0 } ⟨[], [.ok, .err 7], [], [], 0⟩
    s.Ready ∧ [(1 : Byte), 2, 3].length < 2 ^ 32 ∧ s.cfg.busKind = .external ∧
    s.cfg.pinFail = false ∧ chunks s.cfg [1, 2, 3] = [(0, [1])] ++ (1, [2]) :: [(2, [3])] ∧
    s.env.bus = List.replicate 1 BusAnswer.ok ++ .err 7 :: [] :=
  ⟨⟨rfl, rfl⟩, by decide, rfl, rfl, rfl, rfl⟩

/-- The last chunk of a write with the ceiling 2, and the write without one. -/
theorem witness_ChunksCoverWrite :
    let c := { vec with chunkPred := some 1 }
    c.maxChunk = some 2 ∧ (chunks c [1, 2, 3])[1]? = some (2, [3]) ∧
    (chunks c [1, 2, 3])[0]? = some (0, [1, 2]) ∧ 0 + 1 < (chunks c [1, 2, 3]).length ∧
    vec.maxChunk = none ∧ [(1 : Byte)] ≠ [] ∧ vec.busKind = .bitbang := by decide +kernel

theorem witness_DiCmdWithDataCompletes :
    (from0 vec noEnv).Ready ∧ [(0x00 : Byte), 0x0F].length < 2 ^ 32 ∧
    Grants vec (cmdDataEvents vec 0x44 [0x00, 0x0F]) noEnv noEnv :=
  ⟨⟨rfl, rfl⟩, by decide, grants_drives _ rfl rfl rfl rfl⟩

theorem witness_DiDataXTimesCompletes :
    (from0 vec noEnv).Ready ∧ Grants vec (fillEvents vec 0xFF (3 : Len).toNat) noEnv noEnv :=
  ⟨⟨rfl, rfl⟩, grants_drives _ rfl rfl rfl rfl⟩

/-- The last call of the fill fails. -/
theorem witness_FillStopsAtFirstError :
    let s := from0 ext ⟨[], [.ok, .ok, .err 7], [], [], 0⟩
    s.Ready ∧ s.cfg.busKind = .external ∧ s.cfg.pinFail = false ∧ 2 < (3 : Len).toNat ∧
    s.env.bus = List.replicate 2 BusAnswer.ok ++ .err 7 :: [] :=
  ⟨⟨rfl, rfl⟩, rfl, rfl, by decide, rfl⟩

/-- Each of the four on being issued, one that ends with an error, and one that goes on. -/
theorem witness_SelectLineLeftInDataState :
    (∃ t, Advances (.diCmd 0x12) (from0 vec noEnv) t [] vec.init ∧ t.pc = .idle) ∧
    (∃ t, Advances (.diData [1]) (from0 vec noEnv) t [] vec.init ∧ t.pc = .idle) ∧
    (∃ t, Advances (.diCmdWithData 0x12 [1]) (from0 vec noEnv) t [] vec.init ∧ t.pc = .idle) ∧
    (∃ t, Advances (.diDataXTimes 1 1) (from0 vec noEnv) t [] vec.init ∧ t.pc = .idle) ∧
    (∃ t, Advances (.diCmd 0x12) (from0 ext ⟨[], [.err 7], [], [], 0⟩) t [] ext.init ∧
      t.pc = .idle) ∧
    ∃ t, Advances (.diCmd 0x12) (resumedBus .ok) t [] ext.init ∧ t.pc = .idle :=
  ⟨issued_ended (by decide +kernel), issued_ended (by decide +kernel),
    issued_ended (by decide +kernel), issued_ended (by decide +kernel),
    issued_ended (by decide +kernel), resumed_ended (inv_resumedBus .ok) rfl (by decide +kernel)⟩

/-- On being issued, and on going on after the first drive of `DC`. -/
theorem witness_SelectLineConstantInWindow :
    vec.busKind = .bitbang ∧ vec.init.cs ≠ vec.csActive.latch ∧
    (∃ t after, Advances (.diCmd 0x12) (from0 vec noEnv) t [] vec.init ∧
      t.trace = [] ++ [] ++ .drive .dc .L :: after) ∧
    ∃ t after, Advances (.diCmd 0x12) (resumedDc vec (.diCmd 0x12) .uninitialized) t [] vec.init ∧
      t.trace = [] ++ [] ++ .drive .dc .L :: after :=
  ⟨rfl, nofun, ⟨_, _, .issued rfl, rfl⟩,
    _, _, .resumed _ 1 none (inv_resumedDc rfl rfl rfl rfl rfl rfl (.inl rfl)) rfl rfl, rfl⟩

theorem witness_CmdWithDataOnTheWire :
    let i := Instr.diCmdWithData 0x44 [0x00, 0x0F]
    chunk1.busKind = .bitbang ∧
    (∃ t, Advances i (from0 chunk1 noEnv) t [] chunk1.init ∧ t.pc = .idle) ∧
    ∃ t, Advances i (resumedDc chunk1 i .uninitialized) t [] chunk1.init ∧ t.pc = .idle :=
  ⟨rfl, issued_ended (by decide +kernel),
    resumed_ended (inv_resumedDc rfl rfl rfl rfl rfl rfl (.inl rfl)) rfl (by decide +kernel)⟩

/-- Each of the six operations ends, with the ceiling and without it; two of them after they were held. -/
theorem witness_DriveCounts :
    vec.busKind = .bitbang ∧ chunk1.busKind = .bitbang ∧
    (∃ t, Advances .diReset (from0 vec ⟨[], [], [true, true], [], 0⟩) t [] vec.init ∧ t.pc = .idle) ∧
    (∃ t, Advances .diWaitIdle (from0 vec ⟨[.low], [], [], [], 0⟩) t [] vec.init ∧ t.pc = .idle) ∧
    (∃ t, Advances (.diCmd 0x12) (from0 vec noEnv) t [] vec.init ∧ t.pc = .idle) ∧
    (∃ t, Advances (.diData []) (from0 vec noEnv) t [] vec.init ∧ t.pc = .idle) ∧
    (∃ t, Advances (.diCmdWithData 0x44 [1, 2]) (from0 chunk1 noEnv) t [] chunk1.init ∧
      t.pc = .idle) ∧
    (∃ t, Advances (.diDataXTimes 1 0) (from0 vec noEnv) t [] vec.init ∧ t.pc = .idle) ∧
    (∃ t, Advances .diReset (second vec .diReset .uninitialized Pos.dead (.drive .rst .L)
      ⟨[], [], [true, true], [], 0⟩) t [] vec.init ∧ t.pc = .idle) ∧
    ∃ t, Advances .diWaitIdle waited t [] vec.init ∧ t.pc = .idle :=
  ⟨rfl, rfl, issued_ended (by decide +kernel), issued_ended (by decide +kernel),
    issued_ended (by decide +kernel), issued_ended (by decide +kernel),
    issued_ended (by decide +kernel), issued_ended (by decide +kernel),
    resumed_ended (inv_second rfl rfl rfl rfl rfl rfl rfl rfl rfl (.inl rfl)) rfl (by decide +kernel),
    _, .resumed Pos.dead 0 none inv_waited rfl rfl, rfl⟩

/-- The last pixel and the last byte of a 128 by 296 panel: byte 4735, rule R31's formulas by hand. -/
theorem witness_FrameBufferLayout :
    127 < vec.width ∧ 295 < vec.height ∧ bufferIndex vec 127 295 = 4735 ∧ 4735 < fillCount vec ∧
    bufferRow vec 4735 = 295 ∧ bufferColumn vec 4735 = 120 ∧ 7 < 8 := by decide +kernel

/-- The smallest strict window. -/
theorem witness_SetRamAreaCompletes :
    (from0 vec noEnv).Ready ∧ (0 : Coord).toNat < (1 : Coord).toNat ∧
    Grants vec (areaEvents vec 0 0 1 1) noEnv noEnv :=
  ⟨⟨rfl, rfl⟩, by decide, grants_few rfl (by decide +kernel)⟩

/-- Equal on X alone, and equal on Y alone. -/
theorem witness_BadWindowHalts :
    (from0 vec noEnv).Ready ∧ (5 : Coord).toNat ≤ (5 : Coord).toNat ∧
    ¬ (9 : Coord).toNat ≤ (0 : Coord).toNat :=
  ⟨⟨rfl, rfl⟩, by decide, by decide⟩

/-- Issued. It halts before its first action, so no run goes on with it. -/
theorem witness_FullFrameNeverInvalid :
    ∃ t, Advances (.cdSetRamArea 0 0 0 5) (from0 vec noEnv) t [] vec.init ∧
      t.fault = some (.invalidWindow 0 0 0 5) := ⟨_, .issued rfl, rfl⟩

theorem witness_SetRamCounterCompletes :
    (from0 vec noEnv).Ready ∧ Grants vec (counterEvents vec 100 300) noEnv noEnv :=
  ⟨⟨rfl, rfl⟩, grants_few rfl (by decide +kernel)⟩

theorem witness_UseFullFrameCompletes :
    (from0 vec noEnv).Ready ∧ Grants vec (fullFrameEvents vec) noEnv noEnv :=
  ⟨⟨rfl, rfl⟩, grants_few rfl (by decide +kernel)⟩

/-- For CD.INIT from `Idle` and for CD.NEW from `Uninitialized`; waits that read low at once, and waits
that read high once and twice. -/
theorem witness_InitCompletes_NewCompletes :
    (idle0 vec calm).Ready ∧ (idle0 vec calm).seq = .idle ∧
    (from0 vec calm).Ready ∧ (from0 vec calm).seq = .uninitialized ∧ Sample.low ≠ .high ∧
    Sample.fail ≠ .high ∧ Grants vec (initEvents vec 0 .low 0 .low) calm noEnv ∧
    Grants vec (initEvents vec 1 .low 2 .fail)
      ⟨[.high, .low, .high, .high, .fail], [], [true, true, true], [], 0⟩ noEnv :=
  ⟨⟨rfl, rfl⟩, rfl, ⟨rfl, rfl⟩, rfl, nofun, nofun,
    ⟨rfl, by decide +kernel, by decide +kernel, by decide +kernel, rfl⟩,
    rfl, by decide +kernel, by decide +kernel, by decide +kernel, rfl⟩

theorem witness_UploadsComplete :
    (idle0 vec noEnv).Ready ∧ (idle0 vec noEnv).seq = .idle ∧ ([] : List Byte).length < 2 ^ 32 ∧
    Grants vec (uploadEvents vec 0x24 []) noEnv noEnv ∧
    Grants vec (uploadEvents vec 0x26 []) noEnv noEnv :=
  ⟨⟨rfl, rfl⟩, rfl, by decide, grants_few rfl (by decide +kernel), grants_few rfl (by decide +kernel)⟩

/-- A wait that fails at once, and that of V41: high, then low. -/
theorem witness_DisplayFrameCompletes :
    (idle0 vec noEnv).Ready ∧ Sample.fail ≠ .high ∧ Sample.low ≠ .high ∧
    (idle0 vec noEnv).seq = .idle ∧
    Grants vec (displayEvents vec 0 .fail) ⟨[.fail], [], [], [], 0⟩ noEnv ∧
    Grants vec (displayEvents vec 1 .low) ⟨[.high, .low], [], [], [], 0⟩ noEnv :=
  ⟨⟨rfl, rfl⟩, nofun, nofun, rfl,
    ⟨rfl, by decide +kernel, by decide +kernel, by decide +kernel, rfl⟩,
    rfl, by decide +kernel, by decide +kernel, by decide +kernel, rfl⟩

/-- The three clauses of the color, and the red plane. -/
theorem witness_ClearsComplete :
    (idle0 tiny noEnv).Ready ∧ (idle0 tiny noEnv).seq = .idle ∧
    Grants tiny (clearEvents tiny 0x24 (clearByte 0)) noEnv noEnv ∧
    Grants tiny (clearEvents tiny 0x24 (clearByte 1)) noEnv noEnv ∧
    Grants tiny (clearEvents tiny 0x24 (clearByte 0xFF)) noEnv noEnv ∧
    Grants tiny (clearEvents tiny 0x26 (Config.byteValue (Config.inverse Config.white)))
      noEnv noEnv :=
  ⟨⟨rfl, rfl⟩, rfl, grants_few rfl (by decide +kernel), grants_few rfl (by decide +kernel),
    grants_few rfl (by decide +kernel), grants_few rfl (by decide +kernel)⟩

/-- A public operation in each wrong state and in each right one, and one that is not public. -/
theorem witness_SequencerGate :
    (idle0 vec noEnv).Ready ∧ (idle0 vec noEnv).seq ≠ .uninitialized ∧
    (idle0 vec noEnv).seq = .idle ∧
    (from0 vec noEnv).Ready ∧ (from0 vec noEnv).seq ≠ .idle ∧
    (from0 vec noEnv).seq = .uninitialized ∧ Instr.cdNew.wf = true ∧ opName .cdNew = .cdNew ∧
    Instr.cdInit.wf = true ∧
    visibility (opName .cdInit) = .publicSurface ∧ opName .cdInit ≠ .cdNew ∧
    visibility (opName .cdUseFullFrame) ≠ .publicSurface ∧
    visibility (opName .wireSwReset) ≠ .publicSurface :=
  ⟨⟨rfl, rfl⟩, nofun, rfl, ⟨rfl, rfl⟩, nofun, rfl, rfl, rfl, rfl, rfl, nofun, nofun, nofun⟩

theorem witness_PublicOperationMovesSequencer :
    visibility (opName .cdNew) = .publicSurface ∧
    (∃ t, exec .cdNew (from0 vec calm) = .next t ∧ t.pc = .idle) ∧
    (∃ t, exec .cdNew (from0 ext ⟨[], [.err 7], [true, true], [], 0⟩) = .next t ∧ t.pc = .idle ∧
      t.result = some (.err 7)) ∧
    heldInit.Inv ∧ visibility (opName .cdInit) = .publicSurface ∧
    heldInit.pc = .running .cdInit { Pos.dead with step := some 0 } 1 none ∧
    ∃ t, step heldInit = .next t ∧ t.pc ≠ .idle :=
  ⟨rfl, ended_spec (by decide +kernel), ⟨_, rfl, rfl, rfl⟩, inv_heldInit, rfl, rfl, _, rfl, nofun⟩

theorem witness_NewFailsAtSoftwareReset :
    let s := from0 ext ⟨[], [.err 7], [true, true], [], 0⟩
    s.Ready ∧ s.seq = .uninitialized ∧ s.cfg.busKind = .external ∧ s.cfg.pinFail = false ∧
      s.env.bus = .err 7 :: [] ∧ s.env.delay = true :: true :: [] :=
  ⟨⟨rfl, rfl⟩, rfl, rfl, rfl, rfl, rfl⟩

/-- On being issued, and on going on when the pending call is answered. -/
theorem witness_NothingAfterBusError :
    (∃ t after, Advances (.diCmd 0x12) (from0 ext ⟨[], [.err 7], [], [], 0⟩) t [] ext.init ∧
      t.trace = [] ++ [.drive .dc .L] ++ .bus [0x12] (.err 7) :: after) ∧
    ∃ t after, Advances (.diCmd 0x12) (resumedBus (.err 7)) t [] ext.init ∧
      t.trace = [] ++ [.drive .dc .L] ++ .bus [0x12] (.err 7) :: after :=
  ⟨⟨_, _, .issued rfl, rfl⟩, _, _, .resumed _ 1 none (inv_resumedBus _) rfl rfl, rfl⟩

/-- Also the premises of OnlyWaitsSample. -/
theorem witness_LatchOwners_OnlyWaitsSample :
    opName (.sbWrite [0xA5]) ∉ [OpName.diReset, .cdNew, .cdInit] ∧
    opName (.sbWrite [0xA5]) ∉ [OpName.diWaitIdle, .cdNew, .cdInit, .cdDisplayFrame] ∧
    opName (.diCmd 0x12) ∉ [OpName.diWaitIdle, .cdNew, .cdInit, .cdDisplayFrame] ∧
    opName (.sbWrite [0xA5]) ∈ [OpName.sbWrite, .diReset] ∧
    opName .sbFlush ∈ [OpName.diWaitIdle, .sbFlush, .sbRead, .sbTransfer, .sbTransferInPlace] ∧
    opName .diWaitIdle ∈ [OpName.diWaitIdle, .sbFlush, .sbRead, .sbTransfer, .sbTransferInPlace] ∧
    ext.busKind = .external ∧ opName (.diCmd 0x12) ≠ .sbWrite ∧
    (∃ t evs, Advances (.sbWrite [0xA5]) (from0 vec noEnv) t [] vec.init ∧ t.trace = [] ++ evs) ∧
    (∃ t, Advances .diReset (from0 vec ⟨[], [], [true, true], [], 0⟩) t [] vec.init) ∧
    (∃ t, Advances .diReset heldDelay t [] vec.init) ∧
    (∃ t, Advances .diWaitIdle waited t [] vec.init) ∧
    (∃ t, Advances .sbFlush (from0 vec noEnv) t [] vec.init) ∧
    ∃ t evs, Advances (.diCmd 0x12) (resumedBus .ok) t [] ext.init ∧ t.trace = [] ++ evs :=
  ⟨by decide, by decide, by decide, by decide, by decide, by decide, rfl, nofun,
    ⟨_, _, .issued rfl, rfl⟩, ⟨_, .issued rfl⟩,
    ⟨_, .resumed Pos.dead 1 none inv_heldDelay rfl rfl⟩,
    ⟨_, .resumed Pos.dead 0 none inv_waited rfl rfl⟩, ⟨_, .issued rfl⟩,
    _, _, .resumed _ 1 none (inv_resumedBus _) rfl rfl, rfl⟩

/-- On being issued, and on going on after a first delay that was not over. -/
theorem witness_InitOnTheWire :
    vec.busKind = .bitbang ∧
    (∃ t, Advances .cdInit (idle0 vec calm) t [] vec.init ∧ t.pc = .idle) ∧
    (∃ t, Advances .cdNew (from0 vec calm) t [] vec.init ∧ t.pc = .idle) ∧
    ∃ t, Advances .cdInit (second vec .cdInit .initializing { Pos.dead with step := some 0 }
      (.drive .rst .L) calm) t [] vec.init ∧ t.pc = .idle :=
  ⟨rfl, issued_ended (by decide +kernel), issued_ended (by decide +kernel),
    resumed_ended (inv_second rfl rfl rfl rfl rfl rfl rfl rfl rfl rfl) rfl (by decide +kernel)⟩

theorem witness_ClearOnTheWire :
    tiny.busKind = .bitbang ∧
    (∃ t, Advances (.cdClearBwFrame 0) (idle0 tiny noEnv) t [] tiny.init ∧ t.pc = .idle) ∧
    (∃ t, Advances (.cdClearBwFrame 1) (idle0 tiny noEnv) t [] tiny.init ∧ t.pc = .idle) ∧
    (∃ t, Advances .cdClearRedFrame (idle0 tiny noEnv) t [] tiny.init ∧ t.pc = .idle) ∧
    ∃ t, Advances .cdClearRedFrame (resumedDc tiny .cdClearRedFrame (.busy .cdClearRedFrame)) t []
      tiny.init ∧ t.pc = .idle :=
  ⟨rfl, issued_ended (by decide +kernel), issued_ended (by decide +kernel),
    issued_ended (by decide +kernel),
    resumed_ended (inv_resumedDc rfl rfl rfl rfl rfl rfl rfl) rfl (by decide +kernel)⟩

/-- The eleven commands with a payload, with the G3 and G4 values. -/
def payloadCommands : List (Instr × Byte × List Byte) :=
  [(.wireUpdateControl1, 0x21, []), (.wireBorderWaveform, 0x3C, [0x05]),
   (.wireDataEntryMode, 0x11, [0x03]), (.wireSetRamXWindow 0x01 0x0F, 0x44, [0x01, 0x0F]),
   (.wireSetRamYWindow 256 295, 0x45, [0x00, 0x01, 0x27, 0x01]),
   (.wireSetRamXCounter 0x0C, 0x4E, [0x0C]), (.wireSetRamYCounter 300, 0x4F, [0x2C, 0x01]),
   (.wireTempSensor, 0x18, [0x80]), (.wireWriteRamBw [0xAA], 0x24, [0xAA]),
   (.wireWriteRamRed [], 0x26, []), (.wireUpdateControl2, 0x22, [0xF7])]

theorem witness_WireCommandsComplete :
    (from0 vec noEnv).Ready ∧ Grants vec (cmdEvents vec 0x12) noEnv noEnv ∧
    Grants vec (cmdEvents vec 0x20) noEnv noEnv ∧
    ∀ x ∈ payloadCommands, x.1.wf = true ∧ encode vec x.1 = .frame ⟨x.2.1, x.2.2⟩ ∧
      Grants vec (cmdDataEvents vec x.2.1 x.2.2) noEnv noEnv := by
  refine ⟨⟨rfl, rfl⟩, grants_drives _ rfl rfl rfl rfl, grants_drives _ rfl rfl rfl rfl, ?_⟩
  have h : ∀ x ∈ payloadCommands, x.1.wf = true ∧ encode vec x.1 = .frame ⟨x.2.1, x.2.2⟩ ∧
      busCount (cmdDataEvents vec x.2.1 x.2.2) = 0 ∧
      delayCount (cmdDataEvents vec x.2.1 x.2.2) = 0 ∧
      samplesOf (cmdDataEvents vec x.2.1 x.2.2) = [] := by decide +kernel
  intro x hx
  obtain ⟨h1, h2, h3, h4, h5⟩ := h x hx
  exact ⟨h1, h2, grants_drives _ rfl h3 h4 h5⟩

theorem witness_ReceiverReadsCommandSent :
    let i := Instr.wireSetRamYWindow 256 295
    vec.busKind = .bitbang ∧ encode vec i = .frame ⟨0x45, [0x00, 0x01, 0x27, 0x01]⟩ ∧
    vec.codes.Distinct ∧
    (∃ t, Advances i (from0 vec noEnv) t [] vec.init ∧ t.pc = .idle) ∧
    ∃ t, Advances i (resumedDc vec i .uninitialized) t [] vec.init ∧ t.pc = .idle :=
  ⟨rfl, rfl, by decide +kernel, issued_ended (by decide +kernel),
    resumed_ended (inv_resumedDc rfl rfl rfl rfl rfl rfl (.inl rfl)) rfl (by decide +kernel)⟩

end Sys2Proof.Tests
end

/-! The obligations on the scope of the block: its configurations (00_scope.md rule R6), the one
instruction that can halt for a badly ordered window (60_exceptions.md rule R133), and what a step runs
(rule R7, 30_encoding.md rule R66). -/

namespace Sys2Proof

/-! ### Configurations -/

/-- The bounds of rule R6 leave room for 32-bit counts of bytes: a panel holds at most `2 ^ 17`. -/
theorem panelBytes_lt {width height : Nat} (hw : width ≤ 2048) (hh : height ≤ 512) :
    width * height / 8 < 2 ^ 32 := by
  have := Nat.mul_le_mul hw hh
  omega

theorem Config.withNumbers?_of_ok (c : Config) {width height : Nat} {maxChunk : Option Nat}
    (h : Config.NumbersOk width height maxChunk) :
    c.withNumbers? width height maxChunk = some { c with
      panel := ⟨Fin.ofNat 256 (width / 8 - 1), Fin.ofNat 511 (height - 2)⟩
      chunkPred := maxChunk.map (· - 1) } := if_pos h

theorem Config.withNumbers?_of_not_ok (c : Config) {width height : Nat} {maxChunk : Option Nat}
    (h : ¬ Config.NumbersOk width height maxChunk) :
    c.withNumbers? width height maxChunk = none := if_neg h

/-- Every configuration is well formed by its construction (rule R6). -/
theorem Config.numbersOk (c : Config) : Config.NumbersOk c.width c.height c.maxChunk := by
  have hx := c.panel.widthBytes.isLt
  have hy := c.panel.heightLess2.isLt
  have hw : c.width = 8 * (c.panel.widthBytes.val + 1) := rfl
  have hh : c.height = c.panel.heightLess2.val + 2 := rfl
  exact ⟨by omega, by omega, by omega, by omega, by omega, panelBytes_lt (by omega) (by omega),
    fun _ hm => Machine.maxChunk_pos hm⟩

/-- Numbers that rule R6 admits are those of the configuration made from them: no `Fin.ofNat` wraps and
no subtraction is cut off at zero. -/
theorem Config.exists_withNumbers? (c : Config) {width height : Nat} {maxChunk : Option Nat}
    (h : Config.NumbersOk width height maxChunk) :
    ∃ c', c.withNumbers? width height maxChunk = some c' ∧ c'.width = width ∧
      c'.height = height ∧ c'.maxChunk = maxChunk := by
  refine ⟨_, c.withNumbers?_of_ok h, ?_⟩
  obtain ⟨hmod, hw8, hw, hh2, hh, -, hm⟩ := h
  refine ⟨?_, ?_, ?_⟩
  · change 8 * ((width / 8 - 1) % 256 + 1) = width
    omega
  · change (height - 2) % 511 + 2 = height
    omega
  · cases maxChunk with
    | none => rfl
    | some m => exact congrArg some (Nat.sub_add_cancel (hm m rfl))

end Sys2Proof

namespace Sys2Proof.Machine

/-! ### Badly ordered windows -/

/-- A fault that an operation comes to is raised by an action of its plan, or is a failed drive. -/
theorem OpTail.fault_raised {c : Config} {i : Instr} {n : Nat} {b : List Entry} {tail : List Event}
    {pc : Pc} {f : Fatal} (h : OpTail c i n b tail pc (some f)) :
    (∃ x ∈ b, x.act = .raise f) ∨ ∃ p, f = .pinFault p := by
  cases h with
  | halted x b f hx =>
    rcases hx with hx | ⟨p, -, rfl⟩
    · exact .inl ⟨x, List.mem_cons_self, hx⟩
    · exact .inr ⟨p, rfl⟩
  | restoreHalted x y b bytes err hx hy => exact .inr ⟨.dc, rfl⟩

theorem Advances.fault_raised {i : Instr} {s t : State} {start : List Event} {ps : Pins} {f : Fatal}
    (h : Advances i s t start ps) (hf : t.fault = some f) :
    (∃ x ∈ planOf s.cfg i, x.act = .raise f) ∨ ∃ p, f = .pinFault p := by
  obtain ⟨done, tail, a, b, hcase⟩ := h.op_case
  have hrest := hcase.rest
  rw [hf] at hrest
  refine hrest.fault_raised.imp_left ?_
  rintro ⟨x, hx, hact⟩
  exact ⟨x, hcase.plan ▸ List.mem_append_right a hx, hact⟩

/-- Only CD.SET_RAM_AREA raises `InvalidWindow`, and with its own operands (rule R133). The full frame
that the other sequences pass to it raises nothing: `mem_planOf` rests on `fullFrame_ordered`. -/
theorem eq_cdSetRamArea_of_raise {c : Config} {i : Instr} {x : Entry} {sx sy ex ey : Coord}
    (hx : x ∈ planOf c i) (ha : x.act = .raise (.invalidWindow sx sy ex ey)) :
    i = .cdSetRamArea sx sy ex ey := by
  have hi := mem_planOf hx
  rw [ha] at hi
  cases hi with
  | window sx' sy' ex' ey' h ha' => cases ha'; exact h
  | bitbang h p v ha' hp => cases ha'
  | write h ha' =>
    rcases ha' with (⟨-, p, v, ha', -⟩ | ⟨-, bytes, ha'⟩) | ⟨v, ha'⟩ | ha' <;> cases ha'
  | reset h ha' => rcases ha' with ⟨v, ha'⟩ | ⟨ms, ha'⟩ <;> cases ha'
  | sample h ha' => cases ha'
  | unsupported h ha' => cases ha'

/-! ### What a step runs -/

/-- Rule R66: a program stops before a line that does not say otherwise, after an error. -/
theorem lineStops_iff (result : Option OpOutcome) (l : Line) :
    lineStops result l = true ↔ l.always = false ∧ ∃ e, result = some (.err e) := by
  rcases result with _ | _ | e <;> simp [lineStops]

/-- A line is issued when the program says so, or when the last outcome is no error. -/
theorem lineStops_eq_false {result : Option OpOutcome} {l : Line}
    (h : l.always = true ∨ ∀ e, result ≠ some (.err e)) : lineStops result l = false := by
  rw [Bool.eq_false_iff, ne_eq, lineStops_iff]
  rintro ⟨hl, e, he⟩
  rcases h with h | h
  · rw [h] at hl; cases hl
  · exact h e he

section
variable {s : State} {l : Line} {rest : List Line}

theorem step_of_no_line (h : s.Ready) (hq : s.port = []) : step s = .next s := by
  simp [step, h.notHalted, h.idle, hq]

theorem step_of_line_stopped (h : s.Ready) (hq : s.port = l :: rest)
    (hl : lineStops s.result l = true) : step s = .next { s with port := [] } := by
  simp [step, h.notHalted, h.idle, hq, hl]

theorem step_of_line_decoded (h : s.Ready) (hq : s.port = l :: rest)
    (hl : lineStops s.result l = false) {i : Instr}
    (hd : decodeRequest s.cfg l.request = .ok i) : step s = exec i { s with port := rest } := by
  simp [step, h.notHalted, h.idle, hq, hl, hd]

theorem step_of_line_undecodable (h : s.Ready) (hq : s.port = l :: rest)
    (hl : lineStops s.result l = false) {e : DecodeError}
    (hd : decodeRequest s.cfg l.request = .error e) : step s = .refused (.undecodable e) := by
  simp [step, h.notHalted, h.idle, hq, hl, hd]

end

/-! ### The obligations -/

/-- Settles O8: the numbers given to a well-formed configuration are its own, and rule R6 holds of every
configuration by construction. -/
theorem configurationNumbers : Obligations.ConfigurationNumbers := fun c _ _ _ =>
  ⟨c.exists_withNumbers?, c.withNumbers?_of_not_ok, c.numbersOk⟩

/-- Settles O43: the fault is raised by an action of the instruction's plan, and only the plan of
CD.SET_RAM_AREA holds that action. -/
theorem fullFrameNeverInvalid : Obligations.FullFrameNeverInvalid := by
  intro s t i start ps sx sy ex ey h hf
  rcases h.fault_raised hf with ⟨x, hx, ha⟩ | ⟨p, hp⟩
  · exact eq_cdSetRamArea_of_raise hx ha
  · cases hp

/-- Settles O6, one rule of `step` a clause. -/
theorem stepRunsDecodedInstruction : Obligations.StepRunsDecodedInstruction := by
  refine ⟨?_, ?_, fun _ h hq => step_of_no_line h hq, fun _ _ _ _ _ hf hp => step_running hf hp⟩
  · intro s l rest h hq hgo
    have hl := lineStops_eq_false hgo
    exact ⟨fun _ hd => step_of_line_decoded h hq hl hd,
      fun _ hd => step_of_line_undecodable h hq hl hd⟩
  · intro s l rest e h hq ha he
    exact step_of_line_stopped h hq ((lineStops_iff _ _).mpr ⟨ha, e, he⟩)

end Sys2Proof.Machine

/-! The obligations on the state: what reset leaves (10_state.md rule R26, 70_reset_and_hazards.md rule
R155), what every step keeps (rules R13 to R22), that a step is a run of single actions
(92_eei_decisions.md D6), what a failed drive leaves (40_serial_bus.md rule R75), and which operations
write a latch or sample `BUSY` (rules R10, R12). -/

namespace Sys2Proof.Machine

/-! ### Reset -/

/-- Settles O7: the fields of the state after reset, and the wait of a block without a line. -/
theorem resetLeaves : Obligations.ResetLeaves := by
  refine ⟨fun _ => ⟨rfl, rfl, rfl, rfl, rfl, rfl, rfl, step_of_no_line ⟨rfl, rfl⟩ rfl⟩, ?_⟩
  intro p
  cases p <;> rfl

/-- Settles O11: nothing has happened since reset, and nothing is in progress. -/
theorem resetMeetsInvariants : Obligations.ResetMeetsInvariants := fun _ =>
  ⟨{ pinsFollowTrace := rfl
     resultOk := rfl
     faultIsLastHalt := rfl
     haltedInside := fun h => absurd rfl h
     seqOk := .inl rfl
     pcOk := trivial
     progressOk := fun _ => rfl },
   fun hb => { bitbang := hb, result := nofun, held := rfl, known := rfl }⟩

/-! ### Another `result` -/

@[simp] theorem State.withResult_cfg (s : State) (o : Option OpOutcome) :
    (s.withResult o).cfg = s.cfg := rfl

@[simp] theorem State.withResult_trace (s : State) (o : Option OpOutcome) :
    (s.withResult o).trace = s.trace := rfl

/-! ### The last return and the halt of a trace -/

theorem lastRet_append (a b : List Event) :
    ∀ o, lastRet (a ++ b) o = lastRet b (lastRet a o) := by
  induction a with
  | nil => intro o; rfl
  | cons ev a ih => intro o; cases ev <;> exact ih _

theorem lastRet_of_plain {evs : List Event} (h : ∀ ev ∈ evs, isPlain ev = true) (o : Option OpOutcome) :
    lastRet evs o = o := by
  induction evs with
  | nil => rfl
  | cons ev evs ih =>
    have hev := h ev List.mem_cons_self
    have hevs := ih fun x hx => h x (List.mem_cons_of_mem _ hx)
    cases ev with
    | ret op o => cases hev
    | halt f => cases hev
    | drive p v => exact hevs
    | sample r => exact hevs
    | delay ms => exact hevs
    | bus bytes r => exact hevs

theorem lastHalt_concat (evs : List Event) (ev : Event) :
    lastHalt (evs ++ [ev]) = lastHalt [ev] := by simp [lastHalt]

theorem lastHalt_append_of_plain {a b : List Event} (ha : lastHalt a = none)
    (hb : ∀ ev ∈ b, isPlain ev = true) : lastHalt (a ++ b) = none := by
  rcases List.eq_nil_or_concat b with rfl | ⟨l, ev, rfl⟩
  · rwa [List.append_nil]
  · rw [List.concat_eq_append] at hb ⊢
    rw [← List.append_assoc, lastHalt_concat]
    have hev := hb ev (by simp)
    cases ev with
    | halt f => cases hev
    | _ => rfl

/-! ### `seq` and the sequencing position (42_controller_sequences.md rule R105) -/

theorem seqFits_enter {q : Seq} {i : Instr} (hq : seqFits q .idle) (pos : Pos)
    (n : Nat) (r : Option BusError) :
    seqFits (seqEnter (opName i) q) (.running i pos n r) := by
  cases hc : seqClass (opName i) with
  | new => simp only [seqFits, seqEnter, hc]
  | init => simp only [seqFits, seqEnter, hc]
  | frame => simp only [seqFits, seqEnter, hc]
  | ungated => simpa only [seqFits, seqEnter, hc] using hq

theorem seqFits_leave {q : Seq} {i : Instr} {pos : Pos} {n : Nat} {r : Option BusError}
    (hq : seqFits q (.running i pos n r)) (o : OpOutcome) :
    seqFits (seqLeave (opName i) o q) .idle := by
  cases hc : seqClass (opName i) with
  | new => cases o <;> simp [seqFits, seqLeave, hc]
  | init => simp [seqFits, seqLeave, hc]
  | frame => simp [seqFits, seqLeave, hc]
  | ungated => simpa only [seqFits, seqLeave, hc] using hq

/-! ### The invariant -/

/-- What the invariant says of a block that has come to action number `n` of `i` and is not halted, but
for the sequencing position, which a run writes and does not read (`run_suspend`). -/
structure State.Underway (i : Instr) (n : Nat) (r : Option BusError) (s : State) : Prop where
  notHalted       : s.fault = none
  wf              : i.wf = true
  pinsFollowTrace : s.pins = replay s.cfg.init s.trace
  resultOk        : s.result = resultAfter s.cfg i n (lastRet s.trace none)
  noHalt          : lastHalt s.trace = none
  seqOk           : seqFits s.seq (.running i Pos.dead n r)
  progressOk      : progressFits s.cfg (opEvents s.trace) (.running i Pos.dead n r)

theorem State.Inv.underway {s : State} {i : Instr} {pos : Pos} {n : Nat} {r : Option BusError}
    (h : s.Inv) (hf : s.fault = none) (hp : s.pc = .running i pos n r) : s.Underway i n r := by
  obtain ⟨hpins, hres, hhalt, -, hseq, hpc, hprog⟩ := h
  rw [hp] at hres hseq hpc hprog
  refine ⟨hf, hpc.1, hpins, hres, hhalt ▸ hf, hseq, ?_⟩
  cases r with
  | none => exact hprog hf
  | some err => exact hprog hf

/-- The invariant puts the start of an operation at its first action. -/
theorem State.Inv.underway_enter {s : State} {i : Instr} (h : s.Inv) (hr : s.Ready)
    (hw : i.wf = true) : (s.enter (opName i)).Underway i 0 none := by
  obtain ⟨hpins, hres, hhalt, -, hseq, -, hprog⟩ := h
  rw [hr.idle] at hres hseq hprog
  have hev : opEvents s.trace = [] := hprog hr.notHalted
  exact ⟨hr.notHalted, hw, hpins, hres, hhalt ▸ hr.notHalted, seqFits_enter hseq _ _ _,
    hev ▸ progressFits_start s.cfg i⟩

/-- The lines of the host's program are no part of the invariant. -/
theorem State.Inv.with_port {s : State} (h : s.Inv) (q : List Line) : State.Inv { s with port := q } :=
  ⟨h.pinsFollowTrace, h.resultOk, h.faultIsLastHalt, h.haltedInside, h.seqOk, h.pcOk, h.progressOk⟩

/-- An entry of what is left of a plan is a place of the plan. -/
theorem pcFits_running {c : Config} {i : Instr} {n m : Nat} {x : Entry} {r : Option BusError}
    (hw : i.wf = true) (hm : ((planOf c i).drop n)[m]? = some x) (hs : skipped r x.act = false) :
    pcFits c (.running i x.pos (n + m) r) :=
  ⟨hw, x.act, x.ends, by rw [← List.getElem?_drop]; exact hm, hs⟩

/-- A run from a place that fits the trace comes to one that does. -/
theorem State.Underway.progress_run {i : Instr} {n : Nat} {r : Option BusError} {s : State}
    (h : s.Underway i n r) (hf : (resume i n r s).fault = none) :
    progressFits s.cfg (opEvents (resume i n r s).trace) (resume i n r s).pc := by
  have htr := (opStart_append_opEvents s.trace).symm
  have hpins : s.pins = replay (replay s.cfg.init (opStart s.trace)) (opEvents s.trace) := by
    rw [← replay_append, ← htr]; exact h.pinsFollowTrace
  obtain ⟨done, tail, a, b, hcase⟩ := op_run h.notHalted htr hpins h.progressOk
  exact hcase.progress (opEvents_opStart s.trace) hf

/-- Wherever a run takes an operation, the invariant holds there. -/
theorem State.Underway.inv_resume {i : Instr} {n : Nat} {r : Option BusError} {s : State}
    (h : s.Underway i n r) : (resume i n r s).Inv := by
  have hprog := h.progress_run
  have hres : ∀ {j pos m q}, (resume i n r s).pc = .running j pos m q →
      (resume i n r s).result = resultAfter s.cfg i m (lastRet s.trace none) :=
    run_result h.resultOk
  have hend : RunEnd i ((planOf s.cfg i).drop n) n s (resume i n r s) := run_end ..
  obtain ⟨hcfg, -, evs', htr', hpins'⟩ := hend.extends
  have hpins : (resume i n r s).pins =
      replay (resume i n r s).cfg.init (resume i n r s).trace := by
    rw [hpins', htr', hcfg, h.pinsFollowTrace, replay_append]
  generalize resume i n r s = t at hprog hres hend hpins
  cases hend with
  | finished e evs r' hp =>
    exact {
      pinsFollowTrace := hpins
      resultOk := by simp [resultAt, lastRet_append, lastRet]
      faultIsLastHalt := h.notHalted.trans (lastHalt_concat _ (.ret _ _)).symm
      haltedInside := fun hn => absurd h.notHalted hn
      seqOk := seqFits_leave h.seqOk _
      pcOk := trivial
      progressOk := hprog }
  | held e evs m x r' o hp hm hs ha =>
    exact {
      pinsFollowTrace := hpins
      resultOk := by
        rw [hres rfl]
        simp [resultAt, lastRet_append, lastRet_of_plain hp]
      faultIsLastHalt := h.notHalted.trans (lastHalt_append_of_plain h.noHalt hp).symm
      haltedInside := fun _ => nofun
      seqOk := h.seqOk
      pcOk := pcFits_running h.wf hm hs
      progressOk := hprog }
  | halted e evs f m x r' o hp hm hs =>
    exact {
      pinsFollowTrace := hpins
      resultOk := by
        rw [hres rfl]
        simp [resultAt, lastRet_append, lastRet_of_plain hp, lastRet]
      faultIsLastHalt := (lastHalt_concat _ (.halt f)).symm
      haltedInside := fun _ => nofun
      seqOk := h.seqOk
      pcOk := pcFits_running h.wf hm hs
      progressOk := hprog }

theorem State.Inv.exec {s t : State} {i : Instr} (h : s.Inv) (he : exec i s = .next t) : t.Inv := by
  obtain ⟨hr, hw, -, rfl⟩ := exec_next he
  exact (h.underway_enter hr hw).inv_resume

/-- Settles O12, by the four things a step can do; where an operation is issued or goes on, by the place
in its sequence that the invariant gives. -/
theorem stepKeepsInvariant : Obligations.StepKeepsInvariant := by
  intro s t hi h
  obtain ⟨hf, hcase⟩ := step_next h
  cases hcase with
  | waited => exact hi
  | stopped => exact hi.with_port []
  | resumed i pos n r hp => exact (hi.underway hf hp).inv_resume
  | performed l rest i t hidle hq hl hd he => exact (hi.with_port rest).exec he

/-! ### What a step appends (10_state.md rules R19, R20) -/

theorem StepCase.extends {s t : State} (h : StepCase s t) :
    t.cfg = s.cfg ∧ (t.port = s.port ∨ (∃ l, s.port = l :: t.port) ∨ t.port = []) ∧
      ∃ evs, t.trace = s.trace ++ evs ∧ t.pins = replay s.pins evs := by
  cases h with
  | waited => exact ⟨rfl, .inl rfl, [], (List.append_nil _).symm, rfl⟩
  | stopped => exact ⟨rfl, .inr (.inr rfl), [], (List.append_nil _).symm, rfl⟩
  | resumed i pos n r hp =>
    obtain ⟨hcfg, hport, hevs⟩ := (run_end i ((planOf s.cfg i).drop n) n r s).extends
    exact ⟨hcfg, .inl hport, hevs⟩
  | performed l rest i t hi hq hl hd he =>
    obtain ⟨-, -, -, rfl⟩ := exec_next he
    obtain ⟨hcfg, hport, hevs⟩ := (run_end i (planOf s.cfg i) 0 none
      (State.enter { s with port := rest } (opName i))).extends
    exact ⟨hcfg, .inr (.inl ⟨l, hq.trans (congrArg (l :: ·) hport.symm)⟩), hevs⟩

/-- An event that is no drive of a pin leaves its latch. -/
theorem getPin_applyEvent_of_not_drive {p : Pin} {ev : Event} (h : ∀ v, ev ≠ .drive p v) (ps : Pins) :
    getPin (applyEvent ps ev) p = getPin ps p := by
  refine getPin_replay_of_not_driven p [ev] ps fun x hx => ?_
  rw [List.mem_singleton.mp hx]
  cases ev with
  | drive q v => exact decide_eq_false fun hpq => h v (hpq ▸ rfl)
  | _ => rfl

/-- Settles O10: what each kind of step appends, and the waveform one event at a time. -/
theorem stepExtendsTrace : Obligations.StepExtendsTrace := by
  refine ⟨fun s t h => (step_next h).2.extends, fun p ps evs => ⟨rfl, fun v => ?_, fun ev hev => ?_⟩⟩
  · rw [waveform_concat, applyEvent_drive, getPin_setPin_same]
    exact if_congr eq_comm rfl rfl
  · rw [waveform_concat, if_pos (getPin_applyEvent_of_not_drive hev _)]

/-! ### Single actions (92_eei_decisions.md D6) -/

theorem State.leave_suspend (s : State) (i : Instr) (pos : Pos) (n : Nat) (r : Option BusError)
    (ends : Bool) (o : OpOutcome) :
    (s.suspend i pos n r).leave ends o = (s.leave ends o).suspend i pos n r := by cases ends <;> rfl

/-- Where an operation arrives does not depend on where it was. -/
theorem arrive_suspend (i j : Instr) (es : List Entry) (pos : Pos) (n m : Nat)
    (r q : Option BusError) (s : State) :
    arrive i es n r (s.suspend j pos m q) = arrive i es n r s := by cases es <;> rfl

theorem arrive_skipped {i : Instr} {e : Entry} {es : List Entry} {n : Nat} {r : Option BusError}
    {s : State} (hs : skipped r e.act = true) :
    arrive i (e :: es) n r s = s.finish (opName i) (outcomeOf r) := if_pos hs

theorem arrive_at {i : Instr} {e : Entry} {es : List Entry} {n : Nat} {r : Option BusError}
    {s : State} (hs : skipped r e.act = false) :
    arrive i (e :: es) n r s = s.suspend i e.pos n r := by simp [arrive, hs]

/-- A block that stands at an action of its operation has arrived there. -/
theorem arrive_of_pcFits {s : State} {i : Instr} {pos : Pos} {n : Nat} {r : Option BusError}
    (hp : s.pc = .running i pos n r) (h : pcFits s.cfg s.pc) :
    arrive i ((planOf s.cfg i).drop n) n r s = s := by
  rw [hp] at h
  obtain ⟨-, a, ends, hx, hs⟩ := h
  obtain ⟨hlt, hget⟩ := List.getElem?_eq_some_iff.mp hx
  rw [List.drop_eq_getElem_cons hlt, hget, arrive_at hs, State.suspend, ← hp]

section
variable {i : Instr} {e : Entry} {es : List Entry} {pos : Pos} {n : Nat} {r : Option BusError}
  {s t : State} (hf : s.fault = none) (hes : (planOf s.cfg i).drop n = e :: es)
include hf hes

theorem microStep_done (h : perform e.act s = .done t) :
    microStep (s.suspend i pos n r) = arrive i es (n + 1) r (t.leave e.ends (outcomeOf r)) := by
  simp [microStep, hf, hes, perform_suspend, h, Progress.suspend, State.leave_suspend, arrive_suspend]

theorem microStep_failed {x : BusError} (h : perform e.act s = .failed x t) :
    microStep (s.suspend i pos n r) = arrive i es (n + 1) (some x) t := by
  simp [microStep, hf, hes, perform_suspend, h, Progress.suspend, arrive_suspend]

theorem microStep_wait (h : perform e.act s = .wait t) :
    microStep (s.suspend i pos n r) = t.suspend i pos n r := by
  simp [microStep, hf, hes, perform_suspend, h, Progress.suspend]

theorem microStep_halted (h : perform e.act s = .halted t) :
    microStep (s.suspend i pos n r) = t.suspend i pos n r := by
  simp [microStep, hf, hes, perform_suspend, h, Progress.suspend]

end

/-- An action that is done halts nothing and writes no parameter. -/
theorem perform_done {a : Act} {s t : State} (h : perform a s = .done t) :
    t.fault = s.fault ∧ t.cfg = s.cfg := by
  have hp := performed a s
  rw [h] at hp
  obtain ⟨e, ev, -, rfl⟩ := hp
  exact ⟨rfl, rfl⟩

theorem perform_failed {a : Act} {s t : State} {x : BusError} (h : perform a s = .failed x t) :
    t.fault = s.fault ∧ t.cfg = s.cfg := by
  have hp := performed a s
  rw [h] at hp
  obtain ⟨e, bytes, -, rfl⟩ := hp
  exact ⟨rfl, rfl⟩

/-- A run is so many single actions from where it starts: one for every action that is done, and one for
that which holds the operation or halts the block. -/
theorem run_eq_microSteps (i : Instr) (es : List Entry) :
    ∀ (n : Nat) (r : Option BusError) (s : State), s.fault = none → (planOf s.cfg i).drop n = es →
      ∃ k, run i es n r s = microStep^[k] (arrive i es n r s) := by
  induction es with
  | nil => intro n r s _ _; exact ⟨0, rfl⟩
  | cons e es ih =>
    intro n r s hf hes
    have hnext : (planOf s.cfg i).drop (n + 1) = es := by
      rw [← List.tail_drop, hes, List.tail_cons]
    cases hs : skipped r e.act with
    | true => exact ⟨0, by rw [run_skipped hs, arrive_skipped hs]; rfl⟩
    | false =>
      rw [arrive_at hs]
      cases h : perform e.act s with
      | done t =>
        obtain ⟨hft, hct⟩ := perform_done h
        obtain ⟨k, hk⟩ := ih (n + 1) r (t.leave e.ends (outcomeOf r)) (by simp [hft, hf])
          (by rw [State.leave_cfg, hct, hnext])
        exact ⟨k + 1, by rw [run_done hs h, Function.iterate_succ_apply, microStep_done hf hes h, hk]⟩
      | failed x t =>
        obtain ⟨hft, hct⟩ := perform_failed h
        obtain ⟨k, hk⟩ := ih (n + 1) (some x) t (hft.trans hf) (by rw [hct, hnext])
        exact ⟨k + 1, by
          rw [run_failed hs h, Function.iterate_succ_apply, microStep_failed hf hes h, hk]⟩
      | wait t => exact ⟨1, by rw [run_wait hs h]; exact (microStep_wait hf hes h).symm⟩
      | halted t => exact ⟨1, by rw [run_halted hs h]; exact (microStep_halted hf hes h).symm⟩

/-- Settles O14: the run of an instruction, and of what is left of one, is single actions. -/
theorem runIsMicroSteps : Obligations.RunIsMicroSteps := by
  refine ⟨fun i s t h => ?_, fun s t i pos n r hf hp hfit h => ?_⟩
  · obtain ⟨hr, -, -, rfl⟩ := exec_next h
    exact run_eq_microSteps i _ 0 none (s.enter (opName i)) hr.notHalted rfl
  · rw [step_running hf hp] at h
    cases h
    obtain ⟨k, hk⟩ := run_eq_microSteps i _ n r s hf rfl
    rw [arrive_of_pcFits hp hfit] at hk
    exact ⟨k, hk⟩

/-! ### A drive that fails (40_serial_bus.md rule R75, 41_display_interface.md rule R92) -/

theorem performDrive_failing {s : State} {rest : List Bool} (hp : s.cfg.pinFail = true)
    (he : s.env.pin = true :: rest) (p : Pin) (v : Level) :
    performDrive p v s =
      .halted ((s.withEnv { s.env with pin := rest }).halt (.pinFault p)) := by
  simp [performDrive, hp, Env.nextPin, he]

/-- The action whose event would be a drive halts the block when that drive fails: a drive, or the restore
of `DC`. -/
theorem perform_failing {a : Act} {p : Pin} {v : Level} {s : State} {rest : List Bool}
    (hd : doneEvent a (.drive p v)) (hp : s.cfg.pinFail = true) (he : s.env.pin = true :: rest) :
    perform a s = .halted ((s.withEnv { s.env with pin := rest }).halt (.pinFault p)) := by
  cases a with
  | drive q u => cases hd; exact performDrive_failing hp he p v
  | restore u => cases hd; exact performDrive_failing hp he .dc v
  | sample => rcases hd with hd | hd <;> cases hd
  | delay ms => cases hd
  | bus bytes => cases hd
  | raise f => exact hd.elim

theorem State.did_withResult (es : List Entry) (s : State) :
    s.did es = s.withResult (s.did es).result := by
  unfold State.did; cases es.any Entry.ends <;> rfl

/-- `result` before an action of an instruction, by the number of events so far (10_state.md rule R15). -/
theorem did_resultAfter_events {c : Config} {i : Instr} {a b : List Entry} {x : Entry}
    {evs : List Event} (h : planOf c i = a ++ x :: b) (hp : Polled a evs) (s : State) :
    (s.did a).result = resultAfter c i evs.length s.result := by
  rw [did_resultAfter (n := 0) (o := s.result) h rfl, Nat.zero_add]
  exact if_congr (hp.firstEnd_lt h) rfl rfl

/-- Settles O23: the events before the drive lead to the action that performs it, where the block halts. -/
theorem failedDriveHalts : Obligations.FailedDriveHalts := by
  intro s i w m p v e' rest hr hw ha hpf h1 h2 hm hg he
  have hne : wholeEvents s.cfg w i ≠ [] := fun h0 => by simp [h0] at hm
  obtain ⟨a, x, b, hes, hp, hd⟩ := (planOf_whole s.cfg h1 h2 hne).split m p v hm
  obtain ⟨t, ht, hrun⟩ := exec_polled_to hr hw ha hes hp hg
  refine ⟨t, .running i x.pos a.length none, ht, hrun.trans (congrArg Host.Outcome.next ?_)⟩
  obtain ⟨hlt, -⟩ := List.getElem?_eq_some_iff.mp hm
  have hlen : ((wholeEvents s.cfg w i).take m).length = m := by
    rw [List.length_take]; omega
  have hres := did_resultAfter_events hes hp
    (((s.enter (opName i)).withEnv e').emit ((wholeEvents s.cfg w i).take m))
  rw [hlen] at hres
  rw [run_halted (skipped_none _) (perform_failing (rest := rest) hd (by simpa using hpf)
    (by simpa using he)), State.did_withResult, hres]
  rfl

/-! ### Which operations drive a pin and which sample `BUSY` (10_state.md rules R10, R12) -/

/-- The operations that send commands or data through the port of tier DI. -/
def writesBus (i : Instr) : Prop :=
  opName i ∉ [OpName.sbWrite, .sbFlush, .sbRead, .sbTransfer, .sbTransferInPlace, .diReset, .diWaitIdle]

/-- The operations that may drive a pin (rules R10, R25, 40_serial_bus.md rule R78). -/
def OwnsPin (c : Config) (i : Instr) : Pin → Prop
  | .rst => opName i ∈ [OpName.diReset, .cdNew, .cdInit]
  | .dc => writesBus i
  | .cs => opName i = .sbWrite ∨ (c.busKind = .bitbang ∧ writesBus i)
  | .sclk => opName i = .sbWrite ∨ (c.busKind = .bitbang ∧ writesBus i)
  | .mosi => opName i = .sbWrite ∨ (c.busKind = .bitbang ∧ writesBus i)

theorem InstrAct.ownsPin {c : Config} {i : Instr} {a : Act} (h : InstrAct c i a) {p : Pin}
    (hp : drivenPin a = some p) : OwnsPin c i p := by
  cases h with
  | bitbang h q v ha hq =>
    subst ha
    cases hp
    rcases hq with rfl | rfl | rfl <;> exact .inl h
  | write h ha =>
    rcases ha with (⟨hb, q, v, rfl, hq⟩ | ⟨-, bytes, rfl⟩) | ⟨v, rfl⟩ | rfl
    · cases hp
      rcases hq with rfl | rfl | rfl <;> exact .inr ⟨hb, h⟩
    · cases hp
    · cases hp; exact h
    · cases hp; exact h
  | reset h ha =>
    rcases ha with ⟨v, rfl⟩ | ⟨ms, rfl⟩
    · cases hp; exact h
    · cases hp
  | sample h ha => subst ha; cases hp
  | unsupported h ha => subst ha; cases hp
  | window sx sy ex ey h ha => subst ha; cases hp

/-- An operation leaves the latches that it does not own. -/
theorem Advances.pin_of_not_ownsPin {i : Instr} {s t : State} {start : List Event} {ps : Pins}
    (h : Advances i s t start ps) {p : Pin} (hn : ¬ OwnsPin s.cfg i p) :
    getPin t.pins p = getPin ps p :=
  h.pin p fun _ hx hp => hn ((mem_planOf hx).ownsPin hp)

/-- The bus pins have one owner. -/
theorem Advances.bus_pins {i : Instr} {s t : State} {start : List Event} {ps : Pins}
    (h : Advances i s t start ps) (hw : opName i ≠ .sbWrite)
    (hb : s.cfg.busKind = .external ∨ ¬ writesBus i) :
    t.pins.cs = ps.cs ∧ t.pins.sclk = ps.sclk ∧ t.pins.mosi = ps.mosi := by
  have hn : ¬ (opName i = .sbWrite ∨ (s.cfg.busKind = .bitbang ∧ writesBus i)) := by
    rintro (hw' | ⟨hbb, hwr⟩)
    · exact hw hw'
    · rcases hb with hb | hb
      · rw [hb] at hbb; cases hbb
      · exact hb hwr
  exact ⟨h.pin_of_not_ownsPin (p := .cs) hn, h.pin_of_not_ownsPin (p := .sclk) hn,
    h.pin_of_not_ownsPin (p := .mosi) hn⟩

/-- Settles O55: a latch changes only in an operation that owns its pin. -/
theorem latchOwners : Obligations.LatchOwners := by
  intro s t i start ps h
  have hrst : opName i ∉ [OpName.diReset, .cdNew, .cdInit] → t.pins.rst = ps.rst :=
    fun hn => h.pin_of_not_ownsPin (p := .rst) hn
  have hdc : ¬ writesBus i → t.pins.dc = ps.dc := fun hn => h.pin_of_not_ownsPin (p := .dc) hn
  refine ⟨hrst, fun hi => hdc ?_, fun hi => h.bus_pins ?_ (.inr ?_), fun hi => ?_,
    fun hb hw => h.bus_pins hw (.inl hb)⟩
  · simp only [List.mem_cons, List.not_mem_nil, or_false] at hi
    rcases hi with hi | hi <;> simp [writesBus, hi]
  · simp [hi]
  · simp [writesBus, hi]
  · have hidle : ¬ writesBus i ∧ opName i ≠ .sbWrite ∧
        opName i ∉ [OpName.diReset, .cdNew, .cdInit] := by
      simp only [List.mem_cons, List.not_mem_nil, or_false] at hi
      rcases hi with hi | hi | hi | hi | hi <;> simp [writesBus, hi]
    obtain ⟨hwr, hsb, hre⟩ := hidle
    obtain ⟨hcs, hsclk, hmosi⟩ := h.bus_pins hsb (.inr hwr)
    refine pins_ext fun p => ?_
    cases p with
    | cs => exact hcs
    | sclk => exact hsclk
    | mosi => exact hmosi
    | dc => exact hdc hwr
    | rst => exact hrst hre

theorem eq_sample_of_doneEvent {a : Act} {r : Sample} (h : doneEvent a (.sample r)) : a = .sample := by
  cases a with
  | sample => rfl
  | drive p v => cases h
  | restore v => cases h
  | delay ms => cases h
  | bus bytes => cases h
  | raise f => exact h.elim

/-- Settles O56: a sample among the events is that of a sample in the plan. -/
theorem onlyWaitsSample : Obligations.OnlyWaitsSample := by
  intro s t i start evs ps r hi h htr hr
  obtain ⟨done, tail, a, b, hcase⟩ := h.op_case
  have hevs : evs = done ++ tail := List.append_cancel_left (htr.symm.trans hcase.trace)
  obtain ⟨x, hx, hd | ⟨-, hs⟩ | ⟨bytes, err, hbus, -⟩⟩ := hcase.mem _ (hevs ▸ hr) rfl
  · exact planOf_no_sample hi x hx (eq_sample_of_doneEvent hd)
  · exact planOf_no_sample hi x hx hs
  · cases hbus

end Sys2Proof.Machine

/-! The obligations on the select line and the data line (40_serial_bus.md rule R76, 41_display_interface.md
rule R93) and on the layout of a full frame (20_memory.md rule R31). -/

namespace Sys2Proof.Machine

/-! ### Where a pin is driven -/

/-- Every drive of pin `p` among the events comes where the latches meet `P`. -/
def DrivenWhen (p : Pin) (P : Pins → Prop) : Pins → List Event → Prop
  | _, [] => True
  | ps, ev :: evs => (isDriveOf p ev = true → P ps) ∧ DrivenWhen p P (applyEvent ps ev) evs

/-- From latches that meet `Q`, every drive of `p` comes where they meet `P`, and in the end they meet
`Q` again. -/
def Guarded (p : Pin) (P Q : Pins → Prop) (evs : List Event) : Prop :=
  ∀ ps, Q ps → DrivenWhen p P ps evs ∧ Q (replay ps evs)

section
variable {p : Pin} {P Q : Pins → Prop}

theorem drivenWhen_append (a b : List Event) : ∀ ps : Pins,
    DrivenWhen p P ps (a ++ b) ↔ DrivenWhen p P ps a ∧ DrivenWhen p P (replay ps a) b := by
  induction a with
  | nil => intro ps; exact iff_of_eq (true_and _).symm
  | cons ev a ih => intro ps; exact (and_congr_right' (ih _)).trans and_assoc.symm

theorem DrivenWhen.of_not_driven {evs : List Event} (h : ∀ ev ∈ evs, isDriveOf p ev = false) :
    ∀ ps : Pins, DrivenWhen p P ps evs := by
  induction evs with
  | nil => intro ps; trivial
  | cons ev evs ih =>
    intro ps
    have hev := h ev List.mem_cons_self
    exact ⟨fun hd => (Bool.eq_false_iff.mp hev hd).elim,
      ih (fun x hx => h x (List.mem_cons_of_mem _ hx)) _⟩

/-- `DrivenWhen` says of a drive of `p` what the obligations ask of it. -/
theorem DrivenWhen.at_drive {ps : Pins} {before after : List Event} {v : Level}
    (h : DrivenWhen p P ps (before ++ .drive p v :: after)) : P (replay ps before) :=
  ((drivenWhen_append _ _ ps).mp h).2.1 (decide_eq_true rfl)

theorem Guarded.nil : Guarded p P Q [] := fun _ h => ⟨trivial, h⟩

theorem Guarded.append {a b : List Event} (ha : Guarded p P Q a) (hb : Guarded p P Q b) :
    Guarded p P Q (a ++ b) := by
  intro ps h
  obtain ⟨hda, hqa⟩ := ha ps h
  obtain ⟨hdb, hqb⟩ := hb _ hqa
  rw [drivenWhen_append, replay_append]
  exact ⟨⟨hda, hdb⟩, hqb⟩

theorem Guarded.flatten {l : List (List Event)} (h : ∀ evs ∈ l, Guarded p P Q evs) :
    Guarded p P Q l.flatten := by
  induction l with
  | nil => exact .nil
  | cons evs l ih =>
    exact (h evs List.mem_cons_self).append (ih fun x hx => h x (List.mem_cons_of_mem _ hx))

theorem Guarded.flatMap {α : Type} {f : α → List Event} (l : List α)
    (h : ∀ a, Guarded p P Q (f a)) : Guarded p P Q (l.flatMap f) := by
  rw [List.flatMap_def]
  refine .flatten fun evs hevs => ?_
  obtain ⟨a, -, rfl⟩ := List.mem_map.mp hevs
  exact h a

end

/-! ### Inside a write frame (40_serial_bus.md rule R76) -/

/-- The chip is selected. -/
def Selected (c : Config) (ps : Pins) : Prop := ps.cs = c.csActive.latch

/-- What holds of every drive of a pin in the bit cells of a selected chip holds of every drive of it in
a write frame. -/
theorem writeEvents_drivenWhen {c : Config} {p : Pin} {P : Pins → Prop} (hp : p ≠ .cs)
    (h : ∀ b, Guarded p P (Selected c) (bitEvents b)) (ps : Pins) (bytes : List Byte) :
    DrivenWhen p P ps (writeEvents c bytes) := by
  have hcs : ∀ v, isDriveOf p (.drive .cs v) = false := fun _ => decide_eq_false hp
  have hbytes : Guarded p P (Selected c) (bytes.flatMap byteEvents) :=
    .flatMap _ fun _ => .flatMap _ fun _ => h _
  refine ⟨fun hd => (Bool.eq_false_iff.mp (hcs _) hd).elim, (drivenWhen_append _ _ _).mpr ⟨?_, ?_⟩⟩
  · exact (hbytes (setPin ps .cs c.csActive) rfl).1
  · exact .of_not_driven (by simp [hcs]) _

theorem bitEvents_mosi (c : Config) (b : Bool) :
    Guarded .mosi (fun ps => ps.sclk = .L ∧ Selected c ps) (Selected c) (bitEvents b) :=
  fun _ h => ⟨⟨nofun, fun _ => ⟨rfl, h⟩, nofun, trivial⟩, h⟩

theorem bitEvents_sclk (c : Config) (b : Bool) :
    Guarded .sclk (Selected c) (Selected c) (bitEvents b) :=
  fun _ h => ⟨⟨fun _ => h, nofun, fun _ => h, trivial⟩, h⟩

/-- Settles O19: a bit cell drives the data after the clock went low, and chip-select not at all. -/
theorem dataStableWhileClockHigh : Obligations.DataStableWhileClockHigh := by
  intro c ps bytes before after v
  have hmosi := writeEvents_drivenWhen (by decide) (bitEvents_mosi c) ps bytes
  have hsclk := writeEvents_drivenWhen (by decide) (bitEvents_sclk c) ps bytes
  exact ⟨fun h => (h ▸ hmosi).at_drive, fun h => (h ▸ hsclk).at_drive⟩

/-! ### The select line (41_display_interface.md rule R93) -/

/-- The chip is not selected. -/
def Released (c : Config) (ps : Pins) : Prop := ps.cs ≠ c.csActive.latch

/-- The chip is released at every drive of `DC`, when it is at the start, and it is in the end. -/
abbrev DcReleased (c : Config) (evs : List Event) : Prop := Guarded .dc (Released c) (Released c) evs

theorem DcReleased.of_not_driven {c : Config} {evs : List Event}
    (h : ∀ ev ∈ evs, isDriveOf .dc ev = false ∧ isDriveOf .cs ev = false) : DcReleased c evs := by
  intro ps hps
  refine ⟨.of_not_driven (fun ev hev => (h ev hev).1) ps, ?_⟩
  have hcs : (replay ps evs).cs = ps.cs :=
    getPin_replay_of_not_driven .cs evs ps fun ev hev => (h ev hev).2
  rwa [Released, hcs]

theorem DcReleased.dc (c : Config) (v : Level) : DcReleased c [.drive .dc v] :=
  fun _ h => ⟨⟨fun _ => h, trivial⟩, h⟩

theorem isDriveOf_dc_writeEvents {c : Config} {bytes : List Byte} :
    ∀ ev ∈ writeEvents c bytes, isDriveOf .dc ev = false := by
  intro ev hev
  obtain ⟨x, hx, hd | ⟨rfl, -⟩⟩ := (writeFrame_follows c Pos.dead bytes).polled.mem ev hev
  · obtain ⟨p, v, ha, hp⟩ := mem_writeFrame hx
    refine doneEvent_pin hd ?_
    rw [ha]
    rcases hp with rfl | rfl | rfl <;> nofun
  · rfl

/-- A write frame drives `DC` nowhere and releases the chip in the end. -/
theorem writeEvents_dcReleased (c : Config) (bytes : List Byte) : DcReleased c (writeEvents c bytes) := by
  refine fun ps _ => ⟨.of_not_driven isDriveOf_dc_writeEvents ps, ?_⟩
  rw [Released, replay_writeEvents]
  cases bytes.getLast? with
  | none => exact latch_not_ne c.csActive
  | some v => exact latch_not_ne c.csActive

section bitbang
variable {c : Config} (hb : c.busKind = .bitbang)
include hb

theorem callEvents_dcReleased (bytes : List Byte) : DcReleased c (callEvents c bytes) := by
  rw [callEvents_bitbang hb]; exact writeEvents_dcReleased c bytes

theorem cmdEvents_dcReleased (v : Byte) : DcReleased c (cmdEvents c v) :=
  (DcReleased.dc c _).append ((callEvents_dcReleased hb [v]).append (DcReleased.dc c _))

theorem dataEvents_dcReleased (bytes : List Byte) : DcReleased c (dataEvents c bytes) :=
  (DcReleased.dc c _).append (.flatMap _ fun oc => callEvents_dcReleased hb oc.2)

theorem fillEvents_dcReleased (v : Byte) (n : Nat) : DcReleased c (fillEvents c v n) :=
  (DcReleased.dc c _).append
    (.flatten fun _ h => List.eq_of_mem_replicate h ▸ callEvents_dcReleased hb [v])

end bitbang

/-! ### The events a sequence is to have -/

/-- The event of an action that is done, but that a sample may also fail (`doneEvent_shown`); for a raise,
which is never done, its `Halt`. -/
def shown : Act → Event
  | .drive p v => .drive p v
  | .restore v => .drive .dc v
  | .sample => .sample .low
  | .delay ms => .delay ms
  | .bus bytes => .bus bytes .ok
  | .raise f => .halt f

/-- The events of a sequence, one an action. -/
def shownAll (es : List Entry) : List Event := es.map fun e => shown e.act

theorem shownAll_append (a b : List Entry) : shownAll (a ++ b) = shownAll a ++ shownAll b :=
  List.map_append

theorem doneEvent_shown {a : Act} {ev : Event} (h : doneEvent a ev) :
    ev = shown a ∨ (a = .sample ∧ ∃ r, ev = .sample r) := by
  cases a with
  | sample => exact .inr ⟨rfl, h.elim (fun h => ⟨.low, h⟩) fun h => ⟨.fail, h⟩⟩
  | raise f => exact h.elim
  | drive p v => exact .inl h
  | restore v => exact .inl h
  | delay ms => exact .inl h
  | bus bytes => exact .inl h

theorem applyEvent_of_doneEvent {a : Act} {ev : Event} (h : doneEvent a ev) (ps : Pins) :
    applyEvent ps ev = applyEvent ps (shown a) := by
  obtain rfl | ⟨rfl, r, rfl⟩ := doneEvent_shown h <;> rfl

theorem isDriveOf_of_doneEvent {a : Act} {ev : Event} (h : doneEvent a ev) (p : Pin) :
    isDriveOf p ev = isDriveOf p (shown a) := by
  obtain rfl | ⟨rfl, r, rfl⟩ := doneEvent_shown h <;> rfl

section
variable {p : Pin} {P Q : Pins → Prop} {es : List Entry} {evs : List Event}

/-- What a sequence does to the latches is what its actions say, whatever its samples read. -/
theorem Polled.replay_eq (h : Polled es evs) :
    ∀ ps : Pins, replay ps evs = replay ps (shownAll es) := by
  induction h with
  | nil => intro ps; rfl
  | done hd _ ih => intro ps; rw [replay_cons, applyEvent_of_doneEvent hd, ih]; rfl
  | poll _ _ ih => exact ih

theorem Polled.drivenWhen_iff (h : Polled es evs) :
    ∀ ps : Pins, DrivenWhen p P ps evs ↔ DrivenWhen p P ps (shownAll es) := by
  induction h with
  | nil => intro ps; exact Iff.rfl
  | done hd _ ih =>
    intro ps
    rw [DrivenWhen, applyEvent_of_doneEvent hd, isDriveOf_of_doneEvent hd, ih]
    exact Iff.rfl
  | poll _ _ ih => intro ps; exact (and_iff_right nofun).trans (ih ps)

theorem Polled.guarded_iff (h : Polled es evs) : Guarded p P Q evs ↔ Guarded p P Q (shownAll es) :=
  forall_congr' fun ps => by rw [h.replay_eq, h.drivenWhen_iff]

end

/-! ### The plans with the bit-banged bus -/

section bitbang
variable {c : Config} (hb : c.busKind = .bitbang)
include hb

theorem cmdEntries_dcReleased (pos : Pos) (v : Byte) :
    DcReleased c (shownAll (cmdEntries c pos v)) :=
  (cmdEntries_follows c pos v).polled.guarded_iff.mp (cmdEvents_dcReleased hb v)

theorem dataEntries_dcReleased (pos : Pos) (bytes : List Byte) :
    DcReleased c (shownAll (dataEntries c pos bytes)) :=
  (dataEntries_follows c pos bytes).polled.guarded_iff.mp (dataEvents_dcReleased hb bytes)

theorem fillEntries_dcReleased (pos : Pos) (v : Byte) (n : Nat) :
    DcReleased c (shownAll (fillEntries c pos v n)) :=
  (fillEntries_follows c pos v n).polled.guarded_iff.mp (fillEvents_dcReleased hb v n)

theorem cmdDataEntries_dcReleased (pos : Pos) (v : Byte) (bytes : List Byte) :
    DcReleased c (shownAll (cmdDataEntries c pos v bytes)) := by
  rw [cmdDataEntries, shownAll_append]
  exact (cmdEntries_dcReleased hb pos v).append (dataEntries_dcReleased hb pos bytes)

theorem diOpEntries_dcReleased (pos : Pos) (o : DiOp) :
    DcReleased c (shownAll (diOpEntries c pos o)) := by
  cases o with
  | reset => exact .of_not_driven (by simp [diOpEntries, resetEntries, shownAll, shown, isDriveOf])
  | waitIdle => exact .of_not_driven (by simp [diOpEntries, waitEntries, shownAll, shown, isDriveOf])
  | settle => exact .of_not_driven (by simp [diOpEntries, shownAll, shown, isDriveOf])
  | raise f => exact .of_not_driven (by simp [diOpEntries, shownAll, shown, isDriveOf])
  | cmd v => exact cmdEntries_dcReleased hb pos v
  | cmdWithData v bytes => exact cmdDataEntries_dcReleased hb pos v bytes
  | dataXTimes v n => exact fillEntries_dcReleased hb pos v n

theorem expand_dcReleased (os : List DiOp) : ∀ k, DcReleased c (shownAll (expand c k os)) := by
  induction os with
  | nil => intro k; exact .nil
  | cons o os ih =>
    intro k
    rw [expand, shownAll_append]
    exact (diOpEntries_dcReleased hb _ o).append (ih _)

/-- No plan drives `DC` inside a chip-select window (rule R93). -/
theorem planOf_dcReleased (i : Instr) : DcReleased c (shownAll (planOf c i)) := by
  cases i with
  | sbWrite bytes =>
    exact (writeFrame_follows c Pos.dead bytes).polled.guarded_iff.mp (writeEvents_dcReleased c bytes)
  | sbFlush => exact .nil
  | sbRead len => exact diOpEntries_dcReleased hb Pos.dead (.raise _)
  | sbTransfer bytes => exact diOpEntries_dcReleased hb Pos.dead (.raise _)
  | sbTransferInPlace bytes => exact diOpEntries_dcReleased hb Pos.dead (.raise _)
  | diReset => exact diOpEntries_dcReleased hb Pos.dead .reset
  | diWaitIdle => exact diOpEntries_dcReleased hb Pos.dead .waitIdle
  | diCmd | wireSwReset | wireMasterActivate => exact cmdEntries_dcReleased hb _ _
  | diData bytes => exact dataEntries_dcReleased hb _ _
  | diDataXTimes value count => exact fillEntries_dcReleased hb _ _ _
  | diCmdWithData | wireUpdateControl1 | wireBorderWaveform | wireDataEntryMode | wireSetRamXWindow
  | wireSetRamYWindow | wireSetRamXCounter | wireSetRamYCounter | wireTempSensor | wireWriteRamBw
  | wireWriteRamRed | wireUpdateControl2 => exact cmdDataEntries_dcReleased hb _ _ _
  | cdNew | cdInit | cdUpdateBwFrame | cdUpdateRedFrame | cdDisplayFrame | cdClearBwFrame
  | cdClearRedFrame | cdSetRamArea | cdSetRamCounter | cdUseFullFrame =>
    exact expand_dcReleased hb _ 0

end bitbang

/-- Where no bus call is left, what comes after the actions that are done drives no pin. -/
theorem OpTail.not_driven {c : Config} {i : Instr} {n : Nat} {b : List Entry} {tail : List Event}
    {pc : Pc} {f : Option Fatal} (h : OpTail c i n b tail pc f)
    (hn : ∀ x ∈ b, ∀ bytes, x.act ≠ .bus bytes) (p : Pin) : ∀ ev ∈ tail, isDriveOf p ev = false := by
  cases h with
  | ended => simp [isDriveOf]
  | held x b k hk => intro ev hev; rw [List.eq_of_mem_replicate hev]; rfl
  | halted x b f hx => simp [isDriveOf]
  | failed x b bytes err hx hb => exact absurd hx (hn x List.mem_cons_self bytes)
  | restored x y b bytes err hx hy => exact absurd hx (hn x List.mem_cons_self bytes)
  | restoreHalted x y b bytes err hx hy => exact absurd hx (hn x List.mem_cons_self bytes)

/-- With the bit-banged bus, what an instruction has done since it was issued drives `DC` only while the
chip is released, when it was so at the start. -/
theorem OpCase.dcReleased {c : Config} {i : Instr} {start : List Event} {ps : Pins} {t : State}
    {done tail : List Event} {a b : List Entry} (h : OpCase c i start ps t done tail a b)
    (hb : c.busKind = .bitbang) (hps : Released c ps) :
    DrivenWhen .dc (Released c) ps (done ++ tail) := by
  have hplan := (planOf_dcReleased hb i ps hps).1
  rw [h.plan, shownAll_append, drivenWhen_append] at hplan
  have htail := h.rest.not_driven (p := .dc) fun x hx =>
    planOf_no_bus hb (h.plan ▸ List.mem_append_right a hx)
  exact (drivenWhen_append _ _ _).mpr ⟨(h.polled.drivenWhen_iff ps).mpr hplan.1, .of_not_driven htail _⟩

/-- Settles O36: the events of the actions that are done are a part of those of the plan. -/
theorem selectLineConstantInWindow : Obligations.SelectLineConstantInWindow := by
  intro s t i start before after ps v hb hps h htr
  obtain ⟨done, tail, a, b, hcase⟩ := h.op_case
  have hevs : before ++ .drive .dc v :: after = done ++ tail :=
    List.append_cancel_left (by rw [← List.append_assoc, ← htr, hcase.trace])
  have hdc := hcase.dcReleased hb hps
  rw [← hevs] at hdc
  exact hdc.at_drive

/-! ### The layout of a full frame (20_memory.md rule R31) -/

/-- Eight pixels a byte: a row of the panel is a whole number of bytes, and not none. -/
theorem width_eq_rowBytes (c : Config) : c.width = 8 * (c.width / 8) ∧ 0 < c.width / 8 := by
  obtain ⟨hmod, hw8, -⟩ := c.numbersOk
  omega

theorem fillCount_eq (c : Config) : fillCount c = c.width / 8 * c.height := by
  obtain ⟨hw, -⟩ := width_eq_rowBytes c
  rw [fillCount, hw, Nat.mul_assoc, Nat.mul_div_cancel_left _ (by decide), ← hw]

section
variable (c : Config)

theorem bufferIndex_lt {x y : Nat} (hx : x < c.width) (hy : y < c.height) :
    bufferIndex c x y < fillCount c := by
  obtain ⟨hw, hpos⟩ := width_eq_rowBytes c
  have hrow : (y + 1) * (c.width / 8) ≤ c.height * (c.width / 8) := Nat.mul_le_mul_right _ hy
  rw [Nat.succ_mul] at hrow
  rw [fillCount_eq, bufferIndex, Nat.mul_comm (c.width / 8)]
  omega

theorem bufferRow_bufferIndex {x : Nat} (hx : x < c.width) (y : Nat) :
    bufferRow c (bufferIndex c x y) = y := by
  obtain ⟨hw, hpos⟩ := width_eq_rowBytes c
  rw [bufferRow, bufferIndex, Nat.mul_comm, Nat.mul_add_div hpos,
    Nat.div_eq_of_lt (by omega), Nat.add_zero]

theorem bufferColumn_bufferIndex {x : Nat} (hx : x < c.width) (y : Nat) :
    bufferColumn c (bufferIndex c x y) = 8 * (x / 8) := by
  obtain ⟨hw, -⟩ := width_eq_rowBytes c
  rw [bufferColumn, bufferIndex, Nat.mul_comm y, Nat.mul_add_mod, Nat.mod_eq_of_lt (by omega)]

theorem bufferRow_lt {n : Nat} (hn : n < fillCount c) : bufferRow c n < c.height :=
  Nat.div_lt_of_lt_mul (fillCount_eq c ▸ hn)

theorem bufferColumn_add_lt (n : Nat) {k : Nat} (hk : k < 8) : bufferColumn c n + k < c.width := by
  obtain ⟨hw, hpos⟩ := width_eq_rowBytes c
  have hcol := Nat.mod_lt n hpos
  rw [bufferColumn]
  omega

theorem bufferIndex_bufferColumn_bufferRow (n : Nat) {k : Nat} (hk : k < 8) :
    bufferIndex c (bufferColumn c n + k) (bufferRow c n) = n := by
  rw [bufferIndex, bufferColumn, bufferRow, Nat.mul_add_div (by decide), Nat.div_eq_of_lt hk,
    Nat.add_zero, Nat.div_add_mod']

end

/-- Settles O40: byte number and pixel are the two sides of one division by the bytes of a row. -/
theorem frameBufferLayout : Obligations.FrameBufferLayout := by
  refine fun c => ⟨fun x y hx hy => ⟨bufferIndex_lt c hx hy, bufferRow_bufferIndex c hx y,
    x % 8, Nat.mod_lt x (by decide), ?_⟩, fun n k hn hk => ⟨bufferRow_lt c hn,
    bufferColumn_add_lt c n hk, bufferIndex_bufferColumn_bufferRow c n hk⟩⟩
  rw [bufferColumn_bufferIndex c hx, Nat.div_add_mod]

end Sys2Proof.Machine

/-! The obligations on the encoding: that decoding and encoding undo each other (30_encoding.md rules R55 to
R65), which descriptors are refused (rule R64), and the layout of the payloads (rules R57 to R59). -/

namespace Sys2Proof

/-! ### Selectors (rule R63) -/

/-- The operands of an assigned selector are read as its format says. -/
theorem decodeDescriptor_of_reader {sel : Byte} {read : List Byte → Option (Instr × List Byte)}
    {bs : List Byte} {r : Instr × List Byte} (hs : operandReader sel.toNat = some read)
    (hr : read bs = some r) : decodeDescriptor (sel :: bs) = .ok r := by
  simp [decodeDescriptor, hs, hr]

/-- The map has an entry for the assigned selectors and no other. -/
theorem operandReader_eq_none_iff (n : Nat) : operandReader n = none ↔ n ∉ assignedSelectors := by
  unfold operandReader
  split
  -- the last branch is that of the selectors with no entry
  case h_22 => simp_all [assignedSelectors]
  all_goals exact iff_of_false nofun (not_not_intro (by decide))

theorem decodeDescriptor_eq_unassigned_iff (sel : Byte) (rest : List Byte) :
    decodeDescriptor (sel :: rest) = .error (.unassigned sel) ↔ sel.toNat ∉ assignedSelectors := by
  rw [← operandReader_eq_none_iff]
  cases hs : operandReader sel.toNat with
  | none => simp [decodeDescriptor, hs]
  | some read => cases hr : read rest <;> simp [decodeDescriptor, hs, hr]

/-! ### Whole descriptors (rule R65) -/

theorem decodeExact_ok_iff {bs : List Byte} {i : Instr} :
    decodeExact bs = .ok i ↔ decodeDescriptor bs = .ok (i, []) := by
  unfold decodeExact
  split <;> simp_all

theorem decodeExact_of_error {bs : List Byte} {e : DecodeError} (h : decodeDescriptor bs = .error e) :
    decodeExact bs = .error e := by rw [decodeExact, h]

/-- Decoding finds a well-formed instruction at the head of a list where its descriptor stands. -/
theorem decodeDescriptor_encode {c : Config} {i : Instr} {d : List Byte} (hw : i.wf = true)
    (h : encode c i = .descriptor d) (rest : List Byte) :
    decodeDescriptor (d ++ rest) = .ok (i, rest) := by
  have hlen : i.byteList.length < 2 ^ 32 := of_decide_eq_true hw
  cases i with
  | sbWrite bs | sbTransfer bs | sbTransferInPlace bs | diData bs | cdUpdateBwFrame bs
  | cdUpdateRedFrame bs =>
    cases h
    exact decodeDescriptor_of_reader rfl (readList_listBytes _ bs rest hlen)
  | diCmdWithData v bs =>
    cases h
    exact decodeDescriptor_of_reader rfl (readList_listBytes (Instr.diCmdWithData v) bs rest hlen)
  | sbRead n =>
    cases h
    exact decodeDescriptor_of_reader rfl (readLen_wordBytes _ n rest)
  | diDataXTimes v n =>
    cases h
    exact decodeDescriptor_of_reader rfl (readLen_wordBytes (Instr.diDataXTimes v) n rest)
  | cdSetRamArea sx sy ex ey =>
    cases h
    exact decodeDescriptor_of_reader rfl (readWindow_halfBytes _ sx sy ex ey rest)
  | cdSetRamCounter x y =>
    cases h
    exact decodeDescriptor_of_reader rfl (readPoint_halfBytes _ x y rest)
  | sbFlush | diReset | diWaitIdle | diCmd | cdNew | cdInit | cdDisplayFrame | cdClearBwFrame
  | cdClearRedFrame | cdUseFullFrame =>
    cases h
    exact decodeDescriptor_of_reader rfl rfl
  | wireSwReset | wireUpdateControl1 | wireBorderWaveform | wireDataEntryMode | wireSetRamXWindow
  | wireSetRamYWindow | wireSetRamXCounter | wireSetRamYCounter | wireTempSensor | wireWriteRamBw
  | wireWriteRamRed | wireUpdateControl2 | wireMasterActivate => cases h

/-- The request that names an instruction has the length of its format, for every instruction. -/
theorem encode_bytes_length (c : Config) (i : Instr) :
    (encode c i).bytes.length = requestLength c i := by
  cases i with
  | sbWrite bs => exact Laws.RequestLength.sbWrite bs c
  | sbTransfer bs => exact Laws.RequestLength.sbTransfer bs c
  | sbTransferInPlace bs => exact Laws.RequestLength.sbTransferInPlace bs c
  | diData bs => exact Laws.RequestLength.diData bs c
  | diCmdWithData v bs => exact Laws.RequestLength.diCmdWithData v bs c
  | cdUpdateBwFrame bs => exact Laws.RequestLength.cdUpdateBwFrame bs c
  | cdUpdateRedFrame bs => exact Laws.RequestLength.cdUpdateRedFrame bs c
  | wireUpdateControl1 => exact Laws.RequestLength.wireUpdateControl1 c
  | wireWriteRamBw bs => exact Laws.RequestLength.wireWriteRamBw bs c
  | wireWriteRamRed bs => exact Laws.RequestLength.wireWriteRamRed bs c
  | _ => rfl

/-! ### Command frames (rule R55) -/

/-- Where the codes are distinct, a frame that names a controller command fails every test of
`decodeFrame` before its own, which all look at the code. -/
theorem decodeFrame_encode {c : Config} {i : Instr} {f : Frame} (hd : c.codes.Distinct)
    (h : encode c i = .frame f) : decodeFrame c f = some i := by
  have hr : c.codes.all.reverse.Nodup := List.nodup_reverse.mpr hd
  simp only [Codes.Distinct, Codes.all, List.reverse_cons, List.reverse_nil, List.nil_append,
    List.cons_append, List.nodup_cons, List.mem_cons, List.not_mem_nil, or_false, not_or] at hd hr
  cases i with
  | wireSwReset | wireMasterActivate | wireUpdateControl1 | wireBorderWaveform | wireDataEntryMode
  | wireTempSensor | wireUpdateControl2 | wireWriteRamBw | wireWriteRamRed =>
    cases h
    simp [decodeFrame, hd, hr]
  | wireSetRamXWindow | wireSetRamXCounter =>
    cases h
    simp [decodeFrame, frameXWindow, frameYWindow, frameXCounter, hd, hr]
  | wireSetRamYWindow | wireSetRamYCounter =>
    cases h
    simp [decodeFrame, frameXWindow, frameYWindow, frameXCounter, frameYCounter, halfBytes,
      halfOf_halfBytes, hd, hr]
  | _ => cases h

end Sys2Proof

namespace Sys2Proof.Machine

/-! ### The obligations on requests -/

/-- Settles O1: a descriptor by the readers that undo the writers, a command frame by the distinct codes. -/
theorem decodeUndoesEncode : Obligations.DecodeUndoesEncode := by
  have hdesc : ∀ (c : Config) (i : Instr) (bs : List Byte), i.wf = true →
      encode c i = .descriptor bs → decodeRequest c (.descriptor bs) = .ok i := by
    intro c i bs hw h
    have := decodeDescriptor_encode hw h []
    rw [List.append_nil] at this
    exact decodeExact_ok_iff.mpr this
  refine ⟨hdesc, fun c i hw hd => ?_⟩
  cases h : encode c i with
  | descriptor bs => exact hdesc c i bs hw h
  | frame f => simp only [decodeRequest, decodeFrame_encode hd h]

/-- Settles O2: what a descriptor that decodes whole was, with nothing after it. -/
theorem encodeUndoesDecode : Obligations.EncodeUndoesDecode := by
  intro c bs i h
  obtain ⟨hw, d, hd, hbs⟩ := decodeDescriptor_ok c (decodeExact_ok_iff.mp h)
  rw [List.append_nil] at hbs
  exact ⟨hbs ▸ hd, hw⟩

/-- Settles O3: the descriptor at the head of the list has the length of its format. -/
theorem decodeTakesFormatLength : Obligations.DecodeTakesFormatLength := by
  intro c bs rest i h
  obtain ⟨-, d, hd, rfl⟩ := decodeDescriptor_ok c h
  have hlen : requestLength c i = d.length := by rw [← encode_bytes_length, hd]; rfl
  rw [hlen, List.take_left, List.drop_left, List.length_append]
  exact ⟨hd, rfl, rfl⟩

/-- Settles O4: `operandReader` has no entry for exactly the selectors outside the map, and the step hands
the error of the decoder on. -/
theorem unassignedSelectorRefused : Obligations.UnassignedSelectorRefused := by
  refine ⟨decodeDescriptor_eq_unassigned_iff, fun s sel rest always q hr hsel hq hgo => ?_⟩
  exact step_of_line_undecodable hr hq (lineStops_eq_false hgo)
    (decodeExact_of_error ((decodeDescriptor_eq_unassigned_iff sel rest).mpr hsel))

/-- Settles O5, by evaluation of the decoder. -/
theorem descriptorWordsDecode : Obligations.DescriptorWordsDecode := ⟨rfl, rfl, rfl, rfl, rfl⟩

/-! ### Payloads (30_encoding.md rules R57 to R59) -/

theorem xByte_toNat (x : Coord) : (xByte x).toNat = x.toNat / 8 % 256 := by
  rw [xByte, BitVec.toNat_setWidth, BitVec.toNat_ushiftRight, Nat.shiftRight_eq_div_pow]

/-- The two bytes of a coordinate, as numbers. -/
theorem halfBytes_toNat (v : Coord) :
    ∃ b0 b1, halfBytes v = [b0, b1] ∧ b0.toNat = v.toNat % 256 ∧ b1.toNat = v.toNat / 256 := by
  have hv := v.isLt
  refine ⟨_, _, rfl, ?_, ?_⟩
  all_goals
    simp only [BitVec.extractLsb'_toNat, Nat.shiftRight_eq_div_pow]
    omega

theorem xByte_ofNat (n : Nat) : xByte (BitVec.ofNat 16 n) = BitVec.ofNat 8 (n / 8) := by
  apply BitVec.eq_of_toNat_eq
  rw [xByte_toNat, BitVec.toNat_ofNat, BitVec.toNat_ofNat]
  omega

theorem halfBytes_ofNat (n : Nat) :
    halfBytes (BitVec.ofNat 16 n) = [BitVec.ofNat 8 n, BitVec.ofNat 8 (n / 256)] := by
  obtain ⟨b0, b1, h, hb0, hb1⟩ := halfBytes_toNat (BitVec.ofNat 16 n)
  rw [BitVec.toNat_ofNat] at hb0 hb1
  have h0 : b0 = BitVec.ofNat 8 n := by
    apply BitVec.eq_of_toNat_eq
    rw [hb0, BitVec.toNat_ofNat]
    omega
  have h1 : b1 = BitVec.ofNat 8 (n / 256) := by
    apply BitVec.eq_of_toNat_eq
    rw [hb1, BitVec.toNat_ofNat]
    omega
  rw [h, h0, h1]

/-- Settles O39: shifts and bit fields as division and remainder. -/
theorem payloadLayouts : Obligations.PayloadLayouts := by
  intro sx sy ex ey
  obtain ⟨b0, b1, hs, hb0, hb1⟩ := halfBytes_toNat sy
  obtain ⟨b2, b3, he, hb2, hb3⟩ := halfBytes_toNat ey
  exact ⟨⟨_, _, rfl, xByte_toNat sx, xByte_toNat ex⟩,
    ⟨b0, b1, b2, b3, by rw [yWindowPayload, hs, he]; rfl, hb0, hb1, hb2, hb3⟩,
    ⟨_, rfl, xByte_toNat sx⟩, ⟨b0, b1, hs, hb0, hb1⟩⟩

end Sys2Proof.Machine

/-! The obligations on the wire formats (30_encoding.md rules R51 to R54, 40_serial_bus.md rule R76), on the
operations that are sequences of controller commands (rule R55, 42_controller_sequences.md), and on what a
receiver has of them (rule R68). -/

namespace Sys2Proof.Machine

/-! ### Frames and chunks -/

/-- Settles O15: the shape of a byte frame is its definition; that of a write frame is that of a list. -/
theorem byteFrameShape : Obligations.ByteFrameShape := by
  refine fun c v ps a b => ⟨rfl, byteEvents_length v, rising_byteEvents ps v, ?_⟩
  rw [writeEvents, List.flatMap_append]

/-- Chip-select is no clock: a write frame has the clock edges of its bytes. -/
theorem rising_writeEvents (c : Config) (ps : Pins) (bytes : List Byte) :
    edgeCount .sclk .H ps (writeEvents c bytes) = 8 * bytes.length := by
  rw [writeEvents, edgeCount, edgeCount_append, rising_bytes]
  simp [edgeCount, isEdge]

/-- Settles O17: a write frame is chip-select around its byte frames, of which a receiver takes one byte
each. -/
theorem sbWriteOnTheWire : Obligations.SbWriteOnTheWire := by
  refine fun c ps bytes => ⟨?_, driveCount_writeEvents c bytes, rising_writeEvents c ps bytes⟩
  rw [wireFrom, rx_write]
  rfl

/-- With a ceiling `m`, chunk number `k` is the bytes from `k * m` on, as long as there are any. -/
theorem chunksFrom_getElem? {m : Nat} (hm : 0 < m) (fuel : Nat) :
    ∀ (off : Nat) (bytes : List Byte), bytes.length ≤ fuel → ∀ k,
      (chunksFrom (some m) fuel off bytes)[k]? =
        if k * m < bytes.length then some (off + k * m, (bytes.drop (k * m)).take m) else none := by
  induction fuel with
  | zero =>
    intro off bytes h k
    rw [if_neg (by omega)]
    rfl
  | succ fuel ih =>
    intro off bytes h k
    cases bytes with
    | nil => rfl
    | cons b bs =>
      rw [List.length_cons] at h
      cases k with
      | zero => simp [chunksFrom]
      | succ k =>
        have hrest : ((b :: bs).drop m).length = bs.length + 1 - m := by simp
        rw [chunksFrom, List.getElem?_cons_succ, Option.getD_some, ih _ _ (by omega), hrest,
          List.drop_drop, List.length_cons, Nat.succ_mul, Nat.add_assoc, Nat.add_comm m]
        exact if_congr (by omega) rfl rfl

theorem chunks_getElem? {c : Config} {m : Nat} (h : c.maxChunk = some m) (bytes : List Byte)
    (k : Nat) : (chunks c bytes)[k]? =
      if k * m < bytes.length then some (k * m, (bytes.drop (k * m)).take m) else none := by
  rw [chunks, h, chunksFrom_getElem? (maxChunk_pos h) _ _ _ (Nat.le_refl _), Nat.zero_add]

/-- A chunk is where it is to be, and full when another one follows. -/
theorem chunk_spec {c : Config} {m : Nat} (hm : c.maxChunk = some m) {bytes : List Byte} {k : Nat}
    {oc : Nat × List Byte} (h : (chunks c bytes)[k]? = some oc) :
    oc.2 = (bytes.drop (k * m)).take m ∧ oc.1 = k * m ∧ 1 ≤ oc.2.length ∧
      (k + 1 < (chunks c bytes).length → oc.2.length = m) := by
  have hpos := maxChunk_pos hm
  rw [chunks_getElem? hm, Option.ite_none_right_eq_some] at h
  obtain ⟨hk, hoc⟩ := h
  cases hoc
  rw [List.length_take, List.length_drop]
  refine ⟨rfl, rfl, by omega, fun hnext => ?_⟩
  have hnext' := chunks_getElem? hm bytes (k + 1)
  rw [List.getElem?_eq_getElem hnext] at hnext'
  have hfull : (k + 1) * m < bytes.length := by
    by_contra hn
    rw [if_neg hn] at hnext'
    cases hnext'
  rw [Nat.succ_mul] at hfull
  omega

/-- Settles O31: the chunks by their number, their join, and the bytes of each. -/
theorem chunksCoverWrite : Obligations.ChunksCoverWrite := by
  refine fun c bytes => ⟨chunks_flatten c bytes, fun m hm => ⟨?_, fun k oc h => chunk_spec hm h⟩,
    fun hm hne => ?_, chunks_nil c, fun hb => chunkEvents_bitbang hb bytes⟩
  · rw [chunks_length, chunkCount, hm]
  · rw [chunks, hm, chunksFrom_none _ _ _ (Nat.le_refl _), if_neg hne]

/-! ### Operations that end -/

/-- A frame operation (42_controller_sequences.md rule R105) that is issued in `Idle` leaves the sequencer
there. -/
theorem exec_granted_frame {i : Instr} {s : State} {evs : List Event} {e' : Env} (h : s.Ready)
    (hw : i.wf = true) (hu : seqClass (opName i) = .frame) (hq : s.seq = .idle)
    (hf : Follows (planOf s.cfg i) evs) (hg : Grants s.cfg evs s.env e') :
    exec i s = .next ((s.withEnv e').completed (opName i) evs .ok) := by
  rw [exec_granted h hw (by simp [accepts, hu, hq]) hf hg]
  simp [State.finish, State.emit, State.completed, State.enter, State.withEnv, seqLeave, markLeave,
    hu, hq]

/-- Settles O16: the plan is the write frame. -/
theorem sbWriteCompletes : Obligations.SbWriteCompletes := fun _ _ _ h hl hg =>
  exec_granted_ungated h (decide_eq_true hl) rfl (writeFrame_follows ..) hg

/-- Settles O41: the plan of a well ordered window is its two commands. -/
theorem setRamAreaCompletes : Obligations.SetRamAreaCompletes := fun s _ _ _ _ _ h hx hy hg =>
  exec_granted_ungated h rfl rfl (planCdSetRamArea_follows s.cfg ⟨hx, hy⟩) hg

/-- Settles O44: the plan is the two counter commands, whatever the coordinates. -/
theorem setRamCounterCompletes : Obligations.SetRamCounterCompletes := fun s x y _ h hg =>
  exec_granted_ungated h rfl rfl (planCdSetRamCounter_follows s.cfg x y) hg

/-- The fill byte of the model is the one that rules R61 and R62 give. -/
theorem fillByte_eq_clearByte (color : Byte) : fillByte color = clearByte color := by
  simp only [fillByte, colorOf, clearByte, apply_ite Config.byteValue]

/-- Settles O50: the plan is the full frame, the command and the fill, and `Idle` is where the sequencer
comes back to. -/
theorem clearsComplete : Obligations.ClearsComplete := by
  refine fun s e' h hq => ⟨fun color hg => ?_, fun hg => ?_⟩
  · rw [← fillByte_eq_clearByte] at hg ⊢
    exact exec_granted_frame h rfl rfl hq (planCdClearBwFrame_follows s.cfg color) hg
  · exact exec_granted_frame h rfl rfl hq (planCdClearRedFrame_follows s.cfg) hg

/-- Settles O59: each command with a payload is a DI.CMD_WITH_DATA of its code and that payload. -/
theorem wireCommandsComplete : Obligations.WireCommandsComplete := by
  intro s e' h
  refine ⟨fun hg => exec_granted_ungated h rfl rfl (cmdEntries_follows ..) hg,
    fun hg => exec_granted_ungated h rfl rfl (cmdEntries_follows ..) hg, fun i code payload hw hi hg => ?_⟩
  obtain ⟨hop, hplan⟩ : opName i = .diCmdWithData ∧
      planOf s.cfg i = cmdDataEntries s.cfg Pos.dead code payload := by
    rcases hi with ⟨rfl, rfl, rfl⟩ | ⟨rfl, rfl, rfl⟩ | ⟨rfl, rfl, rfl⟩ | ⟨_, _, rfl, rfl, rfl⟩ |
      ⟨_, _, rfl, rfl, rfl⟩ | ⟨_, rfl, rfl, rfl⟩ | ⟨_, rfl, rfl, rfl⟩ | ⟨rfl, rfl, rfl⟩ |
      ⟨_, rfl, rfl, rfl⟩ | ⟨_, rfl, rfl, rfl⟩ | ⟨rfl, rfl, rfl⟩ <;> exact ⟨rfl, rfl⟩
  rw [← hop]
  exact exec_granted_ungated h hw (by rw [hop]; rfl) (hplan ▸ cmdDataEntries_follows ..) hg

/-! ### Command frames at the receiver (30_encoding.md rules R53, R68) -/

/-- A receiver takes exactly these command frames from these events. -/
abbrev GivesFrames (c : Config) (evs : List Event) (fs : List Frame) : Prop :=
  Gives c evs (fs.flatMap frameBytes)

theorem GivesFrames.append {c : Config} {a b : List Event} {fs gs : List Frame}
    (ha : GivesFrames c a fs) (hb : GivesFrames c b gs) : GivesFrames c (a ++ b) (fs ++ gs) := by
  rw [GivesFrames, List.flatMap_append]
  exact Gives.append ha hb

/-- Resets, samples and delays show a receiver no frame. -/
theorem GivesFrames.of_silent {c : Config} {evs : List Event}
    (h : ∀ ev ∈ evs, ∀ v, ev ≠ .drive .sclk v ∧ ev ≠ .drive .cs v) : GivesFrames c evs [] :=
  Gives.none h

/-- What a receiver has of an instruction that has ended, with the bit-banged bus: the frames that some
events of its plan give, whatever its waits have read. -/
theorem Advances.frames {i : Instr} {s t : State} {start : List Event} {ps : Pins} {evs : List Event}
    {fs : List Frame} (h : Advances i s t start ps) (hb : s.cfg.busKind = .bitbang)
    (ht : t.pc = .idle) (hp : Polled (planOf s.cfg i) evs) (hg : GivesFrames s.cfg evs fs) :
    ∃ evs', t.trace = start ++ evs' ++ [.ret (opName i) .ok] ∧
      framesOf (wireFrom s.cfg ps evs') = fs := by
  obtain ⟨evs', hp', htr, -⟩ := h.ended hb ht
  exact ⟨evs', htr, by rw [hp'.wire hp hg ps, framesOf_frames]⟩

/-- The frames of the full window and of the counter at the origin (42_controller_sequences.md rule
R108). -/
def fullFrameFrames (c : Config) : List Frame :=
  [⟨c.codes.setRamXWindow, [0, BitVec.ofNat 8 ((c.width - 1) / 8)]⟩,
   ⟨c.codes.setRamYWindow, [0, 0, BitVec.ofNat 8 (c.height - 1),
     BitVec.ofNat 8 ((c.height - 1) / 256)]⟩,
   ⟨c.codes.setRamXCounter, [0]⟩,
   ⟨c.codes.setRamYCounter, [0, 0]⟩]

section bitbang
variable {c : Config} (hb : c.busKind = .bitbang)
include hb

theorem cmdEvents_frames (v : Byte) : GivesFrames c (cmdEvents c v) [⟨v, []⟩] :=
  gives_cmd hb v

theorem cmdDataEvents_frames (v : Byte) (bytes : List Byte) :
    GivesFrames c (cmdDataEvents c v bytes) [⟨v, bytes⟩] := by
  rw [GivesFrames, List.flatMap_singleton]
  exact gives_cmdData hb v bytes

/-- The data bytes after a command frame belong to it, whichever operation sends them. -/
theorem cmdEvents_fillEvents_frames (code value : Byte) (n : Nat) :
    GivesFrames c (cmdEvents c code ++ fillEvents c value n) [⟨code, List.replicate n value⟩] := by
  have h := (gives_cmd hb code).append (gives_fill hb value n)
  rwa [GivesFrames, List.flatMap_singleton, frameBytes, List.map_replicate]

/-- A controller command is sent as the frame that names it (rule R55). -/
theorem encode_frame_sent {i : Instr} {f : Frame} (h : encode c i = .frame f) :
    ∃ evs, Follows (planOf c i) evs ∧ GivesFrames c evs [f] := by
  cases i with
  | wireSwReset | wireMasterActivate =>
    cases h
    exact ⟨_, cmdEntries_follows .., cmdEvents_frames hb _⟩
  | wireUpdateControl1 | wireBorderWaveform | wireDataEntryMode | wireSetRamXWindow
  | wireSetRamYWindow | wireSetRamXCounter | wireSetRamYCounter | wireTempSensor | wireWriteRamBw
  | wireWriteRamRed | wireUpdateControl2 =>
    cases h
    exact ⟨_, cmdDataEntries_follows .., cmdDataEvents_frames hb _ _⟩
  | _ => cases h

theorem fullFrameEvents_frames : GivesFrames c (fullFrameEvents c) (fullFrameFrames c) := by
  rw [fullFrameEvents, areaEvents, counterEvents, xByte_ofNat, halfBytes_ofNat]
  exact ((cmdDataEvents_frames hb _ _).append (cmdDataEvents_frames hb _ _)).append
    ((cmdDataEvents_frames hb _ _).append (cmdDataEvents_frames hb _ _))

/-- The frames of rule R110, whatever the waits read; its resets, waits and delays show none. -/
theorem initEvents_frames (k1 : Nat) (r1 : Sample) (k2 : Nat) (r2 : Sample) :
    GivesFrames c (initEvents c k1 r1 k2 r2)
      ([⟨c.codes.swReset, []⟩, ⟨c.codes.updateControl1, c.updateControl1⟩,
        ⟨c.codes.borderWaveform, [c.flags.borderFollowLut ||| c.flags.borderLut1]⟩,
        ⟨c.codes.dataEntryMode, [c.flags.incY ||| c.flags.incX]⟩] ++ fullFrameFrames c ++
        [⟨c.codes.tempSensor, [c.flags.internalTempSensor]⟩]) := by
  have hreset : GivesFrames c resetEvents [] := .of_silent (by simp [resetEvents])
  have hwait : ∀ k r, GivesFrames c (waitEvents k r) [] := fun k r =>
    .of_silent (by simp [waitEvents, or_imp, forall_and])
  have hsettle : GivesFrames c [.delay 10] [] := .of_silent (by simp)
  exact ((((((((hreset.append (cmdEvents_frames hb _)).append (hwait k1 r1)).append hsettle).append
    (cmdDataEvents_frames hb _ _)).append (cmdDataEvents_frames hb _ _)).append
    (cmdDataEvents_frames hb _ _)).append (fullFrameEvents_frames hb)).append
    (cmdDataEvents_frames hb _ _)).append (hwait k2 r2)

theorem clearEvents_frames (code value : Byte) :
    GivesFrames c (clearEvents c code value)
      (fullFrameFrames c ++ [⟨code, List.replicate (c.width * c.height / 8) value⟩]) := by
  rw [clearEvents, List.append_assoc]
  exact (fullFrameEvents_frames hb).append (cmdEvents_fillEvents_frames hb code value _)

end bitbang

/-- Settles O60: what is sent is the frame that names the command, and that frame decodes. -/
theorem receiverReadsCommandSent : Obligations.ReceiverReadsCommandSent := by
  intro s t i f start ps hb hf h ht
  obtain ⟨evs, hp, hg⟩ := encode_frame_sent hb hf
  obtain ⟨evs', htr, hfr⟩ := h.frames hb ht hp.polled hg
  exact ⟨evs', htr, hfr, fun hd => decodeFrame_encode hd hf⟩

/-- Settles O57: both operations have the plan of rule R110. What its waits read shows a receiver nothing, so
one run of it, with waits that end at once, says what every run of it gives. -/
theorem initOnTheWire : Obligations.InitOnTheWire := by
  intro s t i start ps hi hb h ht
  have hp : Polled (planOf s.cfg i) (initEvents s.cfg 0 .low 0 .low) := by
    rcases hi with rfl | rfl <;> exact expandInit_polled s.cfg 0 0 (by decide) (by decide)
  exact h.frames hb ht hp (initEvents_frames hb 0 .low 0 .low)

/-- Settles O58: the fill bytes follow the plane's command, and so belong to its frame. -/
theorem clearOnTheWire : Obligations.ClearOnTheWire := by
  intro s t i code value start ps hb hi h ht
  have hp : Follows (planOf s.cfg i) (clearEvents s.cfg code value) := by
    rcases hi with ⟨color, rfl, rfl, rfl⟩ | ⟨rfl, rfl, rfl⟩
    · rw [← fillByte_eq_clearByte]
      exact planCdClearBwFrame_follows s.cfg color
    · exact planCdClearRedFrame_follows s.cfg
  exact h.frames hb ht hp.polled (clearEvents_frames hb code value)

end Sys2Proof.Machine

/-! The obligations on tier SB: a bit-banged bus makes no bus error known (60_exceptions.md rule R131), the
falling clock edges of a write frame (40_serial_bus.md rule R76), the empty write (rule R77), the flush (rule
R71) and the operations that are fatal at once (rules R72 to R74). -/

namespace Sys2Proof.Machine

/-! ### No bus error (42_controller_sequences.md rule R116, 60_exceptions.md rule R131) -/

/-- An operation that ends with `ok` sets no mark (42_controller_sequences.md rule R105). -/
theorem markLeave_ok {m : Bool} (h : m = false) (op : OpName) : markLeave op .ok m = false := by
  subst h
  cases hc : seqClass op <;> simp only [markLeave, hc]

/-- The end of an operation inside another one, with `ok`, makes no bus error known. -/
theorem State.NoBusError.did {s : State} (h : s.NoBusError) (es : List Entry) :
    (s.did es).NoBusError := by
  unfold State.did
  cases es.any Entry.ends with
  | false => exact h
  | true => exact { bitbang := h.bitbang, result := nofun, held := h.held, known := h.known }

/-- What is known of bus errors does not stand in the latches, the trace or the answers. -/
theorem State.NoBusError.emit {s : State} (h : s.NoBusError) (e : Env) (evs : List Event) :
    ((s.withEnv e).emit evs).NoBusError := ⟨h.bitbang, h.result, h.held, h.known⟩

/-- The lines of the host's program are no part of what is known of bus errors. -/
theorem State.NoBusError.with_port {s : State} (h : s.NoBusError) (q : List Line) :
    State.NoBusError { s with port := q } := ⟨h.bitbang, h.result, h.held, h.known⟩

theorem State.NoBusError.enter {s : State} (h : s.NoBusError) (op : OpName) :
    (s.enter op).NoBusError := ⟨h.bitbang, h.result, h.held, h.known⟩

/-- Where no bus call is left, a run makes no bus error known. -/
theorem run_noBusError {s : State} (h : s.NoBusError) (i : Instr) {es : List Entry}
    (hno : ∀ x ∈ es, ∀ bytes, x.act ≠ .bus bytes) (n : Nat) : (run i es n none s).NoBusError := by
  have hcase := run_case i es n s
  generalize run i es n none s = t at hcase
  cases hcase with
  | ended e evs hf =>
    exact { bitbang := h.bitbang, result := nofun, held := rfl, known := markLeave_ok h.known _ }
  | held e evs extra a b x hes hf hx =>
    have hd := (h.emit e (evs ++ extra)).did a
    exact { bitbang := hd.bitbang, result := hd.result, held := rfl, known := hd.known }
  | halted e evs f a b x hes hf hx =>
    have hd := (h.emit e evs).did a
    exact { bitbang := hd.bitbang, result := hd.result, held := rfl, known := hd.known }
  | failed e evs err bytes a b x hes hf hx =>
    exact absurd hx (hno x (by simp [hes]) bytes)

theorem State.NoBusError.exec {s t : State} {i : Instr} (h : s.NoBusError)
    (he : exec i s = .next t) : t.NoBusError := by
  obtain ⟨-, -, -, rfl⟩ := exec_next he
  exact run_noBusError (h.enter _) i (fun _ hx => planOf_no_bus h.bitbang hx) 0

/-- Settles O13, by the four things a step can do: where an operation is issued or goes on, no plan holds a
bus call when the bus is bit-banged. -/
theorem bitbangNeverErrs : Obligations.BitbangNeverErrs := by
  intro s t h hstep
  obtain ⟨-, hcase⟩ := step_next hstep
  cases hcase with
  | waited => exact h
  | stopped => exact h.with_port []
  | resumed i pos n r hp =>
    obtain rfl : r = none := (congrArg pcError hp).symm.trans h.held
    exact run_noBusError h i (fun _ hx => planOf_no_bus h.bitbang (List.mem_of_mem_drop hx)) n
  | performed l rest i t hidle hq hl hd he => exact (h.with_port rest).exec he

/-! ### The falling clock edges of a write frame (40_serial_bus.md rule R76 (c), (e)) -/

/-- Only the first falling edge depends on the levels at the start: a byte frame leaves the clock high. -/
theorem falling_bytes (bytes : List Byte) (v : Byte) : ∀ ps : Pins,
    edgeCount .sclk .L ps ((bytes ++ [v]).flatMap byteEvents) =
      if ps.sclk = .H then 8 * (bytes.length + 1) else 8 * (bytes.length + 1) - 1 := by
  induction bytes with
  | nil =>
    intro ps
    rw [List.nil_append, List.flatMap_singleton, falling_byteEvents]
    rfl
  | cons w ws ih =>
    intro ps
    have hclock : (afterByte ps w).sclk = .H := rfl
    rw [List.cons_append, List.flatMap_cons, edgeCount_append, falling_byteEvents, replay_byteEvents, ih,
      if_pos hclock, List.length_cons]
    split <;> omega

/-- Chip-select is no clock: a write frame has the falling clock edges of its bytes. -/
theorem falling_writeEvents (c : Config) (ps : Pins) (bytes : List Byte) :
    edgeCount .sclk .L ps (writeEvents c bytes) =
      edgeCount .sclk .L (setPin ps .cs c.csActive) (bytes.flatMap byteEvents) := by
  rw [writeEvents, edgeCount, edgeCount_append]
  simp [edgeCount, isEdge]

/-- Settles O18: the edges are those of the bytes, the levels those after the last byte frame. -/
theorem sbWriteFallingEdges : Obligations.SbWriteFallingEdges := by
  intro c ps bytes v
  have hlevels : replay ps (writeEvents c (bytes ++ [v])) =
      { afterByte ps v with cs := c.csInactive.latch } := by
    rw [replay_writeEvents, List.getLast?_concat]
  rw [falling_writeEvents, falling_writeEvents, falling_bytes, hlevels]
  refine ⟨rfl, rfl, rfl, rfl, ?_⟩
  exact apply_ite Level.latch _ _ _

/-! ### The empty write and the flush (40_serial_bus.md rules R71, R77) -/

/-- Settles O20: the write frame of no bytes is the two drives of chip-select. -/
theorem emptySbWrite : Obligations.EmptySbWrite := fun s e' h hg =>
  ⟨_, sbWriteCompletes s [] e' h (by decide) hg, List.append_assoc .., rfl, rfl, rfl, rfl, rfl, rfl⟩

/-- Where nothing is to happen, nothing is asked of the environment. -/
theorem Grants.of_nil (c : Config) (e : Env) : Grants c [] e e :=
  ⟨by simp, rfl, rfl, rfl, rfl⟩

/-- Settles O21: the plan is empty, so the operation ends where it is issued. -/
theorem flushDoesNothing : Obligations.FlushDoesNothing := by
  intro s h
  rw [exec_granted_ungated h rfl rfl .nil (.of_nil s.cfg s.env)]
  simp [State.completed, opName, h.idle]

/-! ### Operations that are fatal at once (40_serial_bus.md rules R72 to R74) -/

/-- An operation that the gate does not apply to and that only raises a fatal condition halts the block
where it is issued. -/
theorem exec_raise {i : Instr} {s : State} {pos : Pos} {f : Fatal} (h : s.Ready) (hw : i.wf = true)
    (hu : seqClass (opName i) = .ungated) (hp : planOf s.cfg i = [⟨pos, .raise f, false⟩]) :
    exec i s = .next { s with
      pc := .running i pos 0 none, fault := some f, trace := s.trace ++ [.halt f] } := by
  rw [exec_ready h hw (by simp [accepts, hu]), hp, run_halted (skipped_none _) rfl]
  simp [State.enter, State.halt, State.suspend, seqEnter, hu]

/-- Settles O22: the plan of each of the three is the raise of its fatal condition. -/
theorem unsupportedOperationsHalt : Obligations.UnsupportedOperationsHalt := fun _ h =>
  ⟨fun _ => ⟨_, exec_raise h rfl rfl rfl⟩,
    fun _ hl => ⟨_, exec_raise h (decide_eq_true hl) rfl rfl⟩,
    fun _ hl => ⟨_, exec_raise h (decide_eq_true hl) rfl rfl⟩⟩

end Sys2Proof.Machine

/-! The obligations on tier DI (41_display_interface.md): what each operation does when it ends with `ok`
(rules R86 to R91), what is left out when a bus call fails (rules R85, R138), and what is on the wire, on the
select line and in the drive counts when it has ended, however many steps it took (rules R93 to R95). -/

namespace Sys2Proof.Machine

/-! ### Operations that end with `ok` (41_display_interface.md rules R86 to R91) -/

/-- Settles O24: the plan is the reset pulse. -/
theorem diResetCompletes : Obligations.DiResetCompletes := fun _ _ h hg =>
  exec_granted_ungated h rfl rfl (resetEntries_follows _) hg

/-- Settles O27: the plan is the command frame. -/
theorem diCmdCompletes : Obligations.DiCmdCompletes := fun _ _ _ h hg =>
  exec_granted_ungated h rfl rfl (cmdEntries_follows ..) hg

/-- Settles O29: the plan is the drive of `DC` and the calls of the chunks. -/
theorem diDataCompletes : Obligations.DiDataCompletes := fun _ _ _ h hl hg =>
  exec_granted_ungated h (decide_eq_true hl) rfl (dataEntries_follows ..) hg

/-- Settles O32: the plan is that of the command, then that of the data. -/
theorem diCmdWithDataCompletes : Obligations.DiCmdWithDataCompletes := fun _ _ _ _ h hl hg =>
  exec_granted_ungated h (decide_eq_true hl) rfl (cmdDataEntries_follows ..) hg

/-- Settles O33: the plan is the drive of `DC` and the calls of the one byte. -/
theorem diDataXTimesCompletes : Obligations.DiDataXTimesCompletes := fun _ _ _ _ h hg =>
  exec_granted_ungated h rfl rfl (fillEntries_follows ..) hg

/-- The end of an operation that the gate of rule R105 does not apply to is the completed state. -/
theorem finish_eq_completed {op : OpName} (hu : seqClass op = .ungated) (s : State) (e : Env)
    (evs : List Event) (o : OpOutcome) :
    (((s.enter op).withEnv e).emit evs).finish op o = (s.withEnv e).completed op evs o := by
  simp [State.finish, State.emit, State.completed, State.enter, State.withEnv, seqEnter, seqLeave,
    markLeave, hu]

theorem samplesOf_waitEvents (k : Nat) (r : Sample) :
    samplesOf (waitEvents k r) = List.replicate k .high ++ [r] := by
  induction k with
  | zero => rfl
  | succ k ih => exact congrArg (Sample.high :: ·) ih

/-- A wait asks its samples of the environment and nothing else. -/
theorem grants_waitEvents (c : Config) {e : Env} {k : Nat} {r : Sample} {rest : List Sample}
    (h : e.busy = List.replicate k .high ++ r :: rest) :
    Grants c (waitEvents k r) e { e with busy := rest } where
  pin := by simp [waitEvents, driveCount]
  bus := by simp [waitEvents, busCount]
  delay := by simp [waitEvents, delayCount]
  busy := by simp [samplesOf_waitEvents, h]
  drawn := rfl

/-- Settles O25: the plan is one sample, performed again at each step while it reads high. -/
theorem waitIdlePolls : Obligations.WaitIdlePolls := by
  intro s k r rest h hr hbusy
  obtain ⟨t, hexec, hrun⟩ := exec_polled (i := .diWaitIdle) h rfl rfl (waitEntries_polled _ k hr)
    (grants_waitEvents s.cfg hbusy)
  refine ⟨t, hexec, ?_⟩
  rwa [highCount_wait k hr, finish_eq_completed rfl] at hrun

/-! ### The first bus call that fails (41_display_interface.md rule R85, 60_exceptions.md rule R138) -/

section external
variable {c : Config} (hx : c.busKind = .external)
include hx

/-- With the external bus a logical write is one call a chunk. -/
theorem diWrite_acts (pos : Pos) (bytes : List Byte) :
    (diWrite c pos bytes).map Entry.act = (chunks c bytes).map fun oc => .bus oc.2 := by
  simp only [diWrite, busWrite, hx]
  rw [List.map_flatMap]
  exact List.flatMap_pure_eq_map ..

theorem dataEntries_acts (pos : Pos) (bytes : List Byte) :
    (dataEntries c pos bytes).map Entry.act =
      .drive .dc c.dcData :: (chunks c bytes).map fun oc => .bus oc.2 := by
  rw [dataEntries, closed_acts, List.map_cons, diWrite_acts hx]

theorem fillWrites_acts (pos : Pos) (v : Byte) (n : Nat) :
    ∀ j, (fillWrites c pos v j n).map Entry.act = List.replicate n (.bus [v]) := by
  induction n with
  | zero => intro j; rfl
  | succ n ih =>
    intro j
    rw [fillWrites, List.map_append, diWrite_acts hx, chunks_single, ih, List.replicate_succ]
    rfl

theorem fillEntries_acts (pos : Pos) (v : Byte) (n : Nat) :
    (fillEntries c pos v n).map Entry.act =
      .drive .dc c.dcData :: List.replicate n (.bus [v]) := by
  rw [fillEntries, closed_acts, List.map_cons, fillWrites_acts hx]

theorem cmdEntries_acts (pos : Pos) (v : Byte) :
    (cmdEntries c pos v).map Entry.act =
      [.drive .dc c.dcCommand, .bus [v], .restore c.dcData] := by
  rw [cmdEntries, List.map_cons, List.map_append, diWrite_acts hx, chunks_single]
  rfl

end external

/-- A drive that cannot fail, and bus calls, ask for the answers `ok` and nothing else. -/
theorem grants_calls {c : Config} (hpin : c.pinFail = false) (p : Pin) (v : Level) {e : Env}
    {calls : List (List Byte)} {b : List BusAnswer}
    (h : e.bus = List.replicate calls.length .ok ++ b) :
    Grants c (.drive p v :: calls.map fun bytes => .bus bytes .ok) e { e with bus := b } where
  pin := by simp [hpin]
  bus := by simp [busCount, Function.comp_def, h]
  delay := by simp [delayCount, Function.comp_def]
  busy := by
    rw [samplesOf]
    clear h
    induction calls with
    | nil => rfl
    | cons bytes calls ih => exact ih
  drawn := rfl

section
variable {i : Instr} {s : State} {err : BusError} {b : List BusAnswer} (h : s.Ready)
  (hw : i.wf = true) (hu : seqClass (opName i) = .ungated) (hpin : s.cfg.pinFail = false)
include h hw hu hpin

/-- A plan that drives `DC` and calls the bus comes to its first call that fails; what is left of the plan is
for the error path. -/
theorem exec_call_failed {v : Level} {calls : List (List Byte)} {bytes : List Byte} {after : List Act}
    (hp : (planOf s.cfg i).map Entry.act = .drive .dc v :: (calls.map Act.bus ++ .bus bytes :: after))
    (hbus : s.env.bus = List.replicate calls.length .ok ++ .err err :: b) :
    ∃ es rest n, rest.map Entry.act = after ∧
      exec i s = .next (run i rest n (some err)
        ((((s.enter (opName i)).withEnv { s.env with bus := b }).emit
          (.drive .dc v :: (calls.map (fun bytes => .bus bytes .ok) ++
            [.bus bytes (.err err)]))).did es)) := by
  obtain ⟨es, tail, hes, hacts, htail⟩ := List.map_eq_append_iff.mp
    (hp.trans (List.cons_append (as := calls.map Act.bus)).symm)
  obtain ⟨x, rest, rfl, hx, hrest⟩ := List.map_eq_cons_iff.mp htail
  have hf : Follows es (.drive .dc v :: calls.map fun bytes => .bus bytes .ok) := by
    rw [Follows, ← List.forall₂_map_left_iff (f := Entry.act) (R := doneEvent), hacts]
    refine .cons rfl ?_
    rw [List.forall₂_map_left_iff, List.forall₂_map_right_iff]
    exact List.forall₂_same.mpr fun _ _ => rfl
  have hfail : ∀ t : State, t.env.bus = .err err :: b → perform x.act t =
      .failed err ((t.withEnv { t.env with bus := b }).emit [.bus bytes (.err err)]) := by
    rw [hx]
    exact fun _ ht => performBus_err ht bytes
  refine ⟨es, rest, 0 + es.length + 1, hrest, ?_⟩
  rw [exec_ready h hw (by simp [accepts, hu]), hes,
    run_granted i hf _ 0 (s.enter (opName i)) _ (grants_calls hpin .dc v hbus),
    run_failed (skipped_none _) (hfail _ (by simp)), State.did_env, State.did_withEnv, State.did_emit,
    emit_withEnv, withEnv_withEnv, emit_emit, List.cons_append]
  rfl

/-- Without a restore of `DC` after it, a call that fails ends the operation. -/
theorem exec_call_failed_ends {v : Level} {calls : List (List Byte)} {bytes : List Byte}
    {after : List Act}
    (hp : (planOf s.cfg i).map Entry.act = .drive .dc v :: (calls.map Act.bus ++ .bus bytes :: after))
    (hafter : ∀ a ∈ after, isRestore a = false)
    (hbus : s.env.bus = List.replicate calls.length .ok ++ .err err :: b) :
    exec i s = .next ((s.withEnv { s.env with bus := b }).completed (opName i)
      (.drive .dc v :: (calls.map (fun bytes => .bus bytes .ok) ++ [.bus bytes (.err err)]))
      (.err err)) := by
  obtain ⟨es, rest, n, rfl, hexec⟩ := exec_call_failed h hw hu hpin hp hbus
  have hrest : PlainStart rest := .of_plain fun x hx => hafter _ (List.mem_map_of_mem hx)
  rw [hexec, run_plainStart hrest, State.did_finish, finish_eq_completed hu]

/-- An operation that begins with a command frame ends with the restore of `DC` when the frame's call
fails. -/
theorem exec_command_failed {opcode : Byte} {after : List Entry} (hx : s.cfg.busKind = .external)
    (hbus : s.env.bus = .err err :: b)
    (hp : planOf s.cfg i = cmdEntries s.cfg Pos.dead opcode ++ after) (hafter : PlainStart after) :
    exec i s = .next ((s.withEnv { s.env with bus := b }).completed (opName i)
      [.drive .dc s.cfg.dcCommand, .bus [opcode] (.err err), .drive .dc s.cfg.dcData]
      (.err err)) := by
  have hacts : (planOf s.cfg i).map Entry.act = .drive .dc s.cfg.dcCommand ::
      (([] : List (List Byte)).map Act.bus ++ .bus [opcode] ::
        (.restore s.cfg.dcData :: after.map Entry.act)) := by
    rw [hp, List.map_append, cmdEntries_acts hx]
    rfl
  obtain ⟨es, rest, n, hrest, hexec⟩ := exec_call_failed h hw hu hpin hacts hbus
  obtain ⟨⟨pos, act, ends⟩, rest, rfl, rfl, hacts'⟩ := List.map_eq_cons_iff.mp hrest
  rw [hexec, run_restore (by simpa using hpin), run_plainStart (hafter.of_acts hacts'), State.leave_finish,
    State.did_emit, State.did_finish, emit_emit, finish_eq_completed hu]
  rfl

end

/-- Settles O30: the plan is one call a chunk. -/
theorem diDataStopsAtFailedChunk : Obligations.DiDataStopsAtFailedChunk := by
  intro s bytes done rest chunk err b h hl hx hpin hchunks hbus
  have hp : (planOf s.cfg (.diData bytes)).map Entry.act = .drive .dc s.cfg.dcData ::
      ((done.map (·.2)).map Act.bus ++ .bus chunk.2 :: rest.map fun oc => .bus oc.2) := by
    rw [planOf, planDiData, dataEntries_acts hx, hchunks]
    simp
  have hrest : ∀ a ∈ rest.map fun oc => Act.bus oc.2, isRestore a = false := by
    intro a ha
    obtain ⟨oc, -, rfl⟩ := List.mem_map.mp ha
    rfl
  have hexec := exec_call_failed_ends (i := .diData bytes) h (decide_eq_true hl) rfl hpin hp hrest
    (by rwa [List.length_map])
  rwa [List.map_map] at hexec

/-- Settles O34: the plan is as many calls as the count says. -/
theorem fillStopsAtFirstError : Obligations.FillStopsAtFirstError := by
  intro s value count m err b h hx hpin hm hbus
  obtain ⟨k, hk⟩ : ∃ k, count.toNat = m + (k + 1) := ⟨count.toNat - m - 1, by omega⟩
  have hp : (planOf s.cfg (.diDataXTimes value count)).map Entry.act = .drive .dc s.cfg.dcData ::
      ((List.replicate m [value]).map Act.bus ++ .bus [value] :: List.replicate k (.bus [value])) := by
    rw [planOf, planDiDataXTimes, fillEntries_acts hx, hk, ← List.replicate_append_replicate,
      List.map_replicate]
    rfl
  have hexec := exec_call_failed_ends h rfl rfl hpin hp (by simp [isRestore])
    (by rwa [List.length_replicate])
  rwa [List.map_replicate] at hexec

/-- Settles O28: both plans begin with the command frame, and no restore comes after it. -/
theorem commandErrorRestoresSelect : Obligations.CommandErrorRestoresSelect := by
  refine fun s opcode err b h hx hpin hbus => ⟨?_, fun bytes hl => ?_⟩
  · exact exec_command_failed h rfl rfl hpin hx hbus (List.append_nil _).symm trivial
  · exact exec_command_failed (i := .diCmdWithData opcode bytes) h (decide_eq_true hl) rfl hpin hx hbus rfl
      (.of_plain (dataEntries_plain s.cfg Pos.dead bytes))

/-! ### The select line after an operation (41_display_interface.md rule R93) -/

/-- The events leave `DC` at the data level, whatever it was before them. -/
def DcToData (c : Config) (evs : List Event) : Prop :=
  ∀ ps, (replay ps evs).dc = c.dcData.latch

theorem DcToData.prepend {c : Config} {b : List Event} (h : DcToData c b) (a : List Event) :
    DcToData c (a ++ b) := by
  intro ps
  rw [replay_append]
  exact h _

theorem DcToData.append_of_not_driven {c : Config} {a b : List Event} (h : DcToData c a)
    (hb : ∀ ev ∈ b, isDriveOf .dc ev = false) : DcToData c (a ++ b) := by
  intro ps
  rw [replay_append, ← h ps]
  exact getPin_replay_of_not_driven .dc b _ hb

/-- The sequence leaves `DC` at the data level, when all of it is done and when it ends at a bus call that
fails. -/
structure LeavesData (c : Config) (es : List Entry) : Prop where
  ended : DcToData c (shownAll es)
  failed {a b : List Entry} {x : Entry} {bytes : List Byte} (hes : es = a ++ x :: b)
    (hx : x.act = .bus bytes) (hb : PlainStart b) : DcToData c (shownAll a)

theorem LeavesData.append {c : Config} {es es' : List Entry} (h : LeavesData c es)
    (h' : LeavesData c es') : LeavesData c (es ++ es') where
  ended := by
    rw [shownAll_append]
    exact h'.ended.prepend _
  failed {a b x bytes} hes hx hb := by
    obtain ⟨a', rfl, hsplit⟩ | ⟨b', rfl, hsplit⟩ := List.append_eq_append_iff.mp hes
    · rw [shownAll_append]
      exact (h'.failed hsplit hx hb).prepend _
    · cases b' with
      | nil =>
        rw [List.append_nil] at h
        exact h.ended
      | cons y b' =>
        obtain ⟨rfl, rfl⟩ := List.cons.inj hsplit
        refine h.failed rfl hx ?_
        cases b' with
        | nil => trivial
        | cons y b' => exact hb

/-- A sequence that drives `DC` first, to the data level, and nowhere else. -/
theorem LeavesData.of_drive {c : Config} {e : Entry} {es : List Entry}
    (he : e.act = .drive .dc c.dcData) (hes : ∀ x ∈ es, isDriveOf .dc (shown x.act) = false) :
    LeavesData c (e :: es) := by
  have hdata : ∀ a, (∀ x ∈ a, x ∈ es) → DcToData c (shownAll (e :: a)) := by
    intro a ha
    have hhead : DcToData c [shown e.act] := by
      rw [he]
      exact fun _ => rfl
    refine hhead.append_of_not_driven (b := shownAll a) fun ev hev => ?_
    obtain ⟨x, hx, rfl⟩ := List.mem_map.mp hev
    exact hes x (ha x hx)
  refine ⟨hdata es fun _ h => h, fun {a b x bytes} hsplit hx hb => ?_⟩
  cases a with
  | nil =>
    obtain ⟨rfl, -⟩ := List.cons.inj hsplit
    rw [he] at hx
    cases hx
  | cons y a =>
    obtain ⟨rfl, rfl⟩ := List.cons.inj hsplit
    exact hdata a fun z hz => List.mem_append_left _ hz

/-- No bus call drives `DC`. -/
theorem BusAct.dc_not_driven {c : Config} {a : Act} (h : BusAct c a) :
    isDriveOf .dc (shown a) = false := by
  rcases h with ⟨-, p, v, rfl, rfl | rfl | rfl⟩ | ⟨-, bytes, rfl⟩ <;> rfl

theorem dataEntries_leavesData (c : Config) (pos : Pos) (bytes : List Byte) :
    LeavesData c (dataEntries c pos bytes) := by
  rw [dataEntries, closed_cons]
  refine .of_drive rfl fun x hx => ?_
  obtain ⟨y, hy, hact⟩ := mem_closed hx
  exact hact ▸ (mem_diWrite hy).dc_not_driven

theorem fillEntries_leavesData (c : Config) (pos : Pos) (v : Byte) (n : Nat) :
    LeavesData c (fillEntries c pos v n) := by
  rw [fillEntries, closed_cons]
  refine .of_drive rfl fun x hx => ?_
  obtain ⟨y, hy, hact⟩ := mem_closed hx
  exact hact ▸ (mem_fillWrites n 0 hy).dc_not_driven

/-- A call among the actions that send commands and data is one of the external bus. -/
theorem WriteAct.external {c : Config} {bytes : List Byte} (h : WriteAct c (.bus bytes)) :
    c.busKind = .external := by
  rcases h with (⟨-, p, v, ha, -⟩ | ⟨hx, -⟩) | ⟨v, ha⟩ | ha
  · cases ha
  · exact hx
  · cases ha
  · cases ha

/-- A command frame leaves `DC` at the data level with its restore, which follows its bus call. -/
theorem cmdEntries_leavesData (c : Config) (pos : Pos) (v : Byte) :
    LeavesData c (cmdEntries c pos v) where
  ended := by
    rw [cmdEntries, ← List.cons_append, shownAll_append]
    exact DcToData.prepend (fun _ => rfl) _
  failed {a b x bytes} hes hx hb := by
    have hmem : WriteAct c x.act := mem_cmdEntries (pos := pos) (v := v) (by simp [hes])
    rw [hx] at hmem
    have hacts := cmdEntries_acts hmem.external pos v
    rw [hes, List.map_append, List.map_cons, hx] at hacts
    rcases a with _ | ⟨y, _ | ⟨z, a⟩⟩
    · simp at hacts
    · obtain ⟨-, hrest⟩ := List.cons.inj (List.cons.inj hacts).2
      obtain ⟨w, b, rfl, hw, -⟩ := List.map_eq_cons_iff.mp hrest
      rw [PlainStart, hw] at hb
      cases hb
    · simp [List.append_eq_singleton_iff] at hacts

/-- The plans of the operations that send commands and data. -/
theorem planOf_leavesData (c : Config) {i : Instr}
    (h : opName i ∈ [OpName.diCmd, .diData, .diCmdWithData, .diDataXTimes]) :
    LeavesData c (planOf c i) := by
  cases i with
  | diCmd | wireSwReset | wireMasterActivate => exact cmdEntries_leavesData c _ _
  | diData bytes => exact dataEntries_leavesData c _ _
  | diDataXTimes value count => exact fillEntries_leavesData c _ _ _
  | diCmdWithData | wireUpdateControl1 | wireBorderWaveform | wireDataEntryMode | wireSetRamXWindow
  | wireSetRamYWindow | wireSetRamXCounter | wireSetRamYCounter | wireTempSensor | wireWriteRamBw
  | wireWriteRamRed | wireUpdateControl2 =>
    exact (cmdEntries_leavesData c _ _).append (dataEntries_leavesData c _ _)
  | _ => simp [opName] at h

/-- Settles O35: an operation that has ended did all of its plan, or came to a call that failed, or
restored `DC` after it. -/
theorem selectLineLeftInDataState : Obligations.SelectLineLeftInDataState := by
  intro s t i start ps hi h ht
  obtain ⟨done, tail, a, b, hes, hp, htail, -, hpins⟩ := h.op_case
  have hplan := planOf_leavesData s.cfg hi
  rw [hpins, replay_append, hp.replay_eq]
  rw [ht] at htail
  generalize t.fault = f at htail
  cases htail with
  | ended =>
    rw [hes, List.append_nil] at hplan
    exact hplan.ended ps
  | failed x b bytes err hx hb => exact hplan.failed hes hx hb ps
  | restored x y b bytes err hx hy => rfl

/-! ### What is on the wire, and the drives (41_display_interface.md rules R94, R95) -/

/-- Settles O37: a receiver takes the opcode and the payload as their bytes, whatever chip-select does between
the chunks. -/
theorem cmdWithDataOnTheWire : Obligations.CmdWithDataOnTheWire := by
  intro s t opcode bytes start ps hb h ht
  obtain ⟨htr, -⟩ := h.ended_eq hb ht (cmdDataEntries_follows ..) (by simp [opName])
  exact ⟨_, htr, (gives_cmdData hb opcode bytes).wireFrom ps⟩

/-- The drives of a sequence are those of its actions, whatever its samples read. -/
theorem Polled.driveCount_eq {es : List Entry} {evs : List Event} (h : Polled es evs) :
    driveCount evs = driveCount (shownAll es) := by
  induction h with
  | nil => rfl
  | @done e es ev evs hd _ ih =>
    have hev : driveCount [ev] = driveCount [shown e.act] := by
      obtain rfl | ⟨ha, r, rfl⟩ := doneEvent_shown hd
      · rfl
      · rw [ha]; rfl
    calc driveCount ([ev] ++ evs) = driveCount [shown e.act] + driveCount (shownAll es) := by
          rw [driveCount_append, hev, ih]
      _ = driveCount (shownAll (e :: es)) := (driveCount_append ..).symm
  | poll _ _ ih => exact ih

/-- With the bit-banged bus an instruction that has ended made the drives that any events of its plan
have. -/
theorem Advances.driveCount {i : Instr} {s t : State} {start : List Event} {ps : Pins}
    {evs : List Event} (h : Advances i s t start ps) (hb : s.cfg.busKind = .bitbang)
    (ht : t.pc = .idle) (hp : Polled (planOf s.cfg i) evs) :
    driveCount t.trace = driveCount start + driveCount evs := by
  obtain ⟨evs', hp', htr, -⟩ := h.ended hb ht
  rw [htr, driveCount_append, driveCount_append, hp'.driveCount_eq, hp.driveCount_eq]
  rfl

section bitbang
variable {c : Config} (hb : c.busKind = .bitbang)
include hb

theorem driveCount_cmdEvents (v : Byte) : driveCount (cmdEvents c v) = 28 := by
  rw [cmdEvents, callEvents_bitbang hb, driveCount_drive, driveCount_append, driveCount_writeEvents]
  rfl

theorem driveCount_dataEvents (bytes : List Byte) : driveCount (dataEvents c bytes) =
    1 + 2 * chunkCount c bytes.length + 24 * bytes.length := by
  rw [dataEvents, driveCount_drive, driveCount_chunkEvents hb]
  omega

theorem driveCount_fillEvents (v : Byte) (n : Nat) : driveCount (fillEvents c v n) = 1 + 26 * n := by
  rw [fillEvents, callEvents_bitbang hb, driveCount_drive, chunkEvents_eq_fill,
    driveCount_flatMap_write, fill_bytes, List.length_replicate, List.length_replicate]
  omega

end bitbang

theorem ceilChunks_eq (c : Config) (n : Nat) : ceilChunks c n = chunkCount c n := rfl

/-- Settles O38: the drives of the events of each plan. -/
theorem driveCounts : Obligations.DriveCounts := by
  intro s t start ps hb ht
  refine ⟨fun h => ⟨h.driveCount hb ht (resetEntries_follows _).polled, ?_⟩,
    fun h => h.driveCount hb ht (waitEntries_polled _ 0 (r := .low) nofun), fun opcode h => ?_,
    fun bytes h => ?_, fun opcode bytes h => ?_, fun value count h => ?_⟩
  · rw [(h.ended_eq hb ht (resetEntries_follows _) (by simp [opName])).1]
    simp [delayCount, List.countP_append]
  · rw [h.driveCount hb ht (cmdEntries_follows ..).polled, driveCount_cmdEvents hb]
  · rw [h.driveCount hb ht (dataEntries_follows ..).polled, driveCount_dataEvents hb, ceilChunks_eq]
  · rw [h.driveCount hb ht (cmdDataEntries_follows ..).polled, cmdDataEvents, driveCount_append,
      driveCount_cmdEvents hb, driveCount_dataEvents hb, ceilChunks_eq]
    omega
  · rw [h.driveCount hb ht (fillEntries_follows ..).polled, driveCount_fillEvents hb]

end Sys2Proof.Machine

/-! The obligations on the controller sequences (42_controller_sequences.md): the window that is not well
ordered (rule R106), the sequences that come to their end (rules R108 to R113, R117), what the sequencer accepts
and where an operation leaves it (rule R105), and what follows a bus call that failed (rules R109, R116, R138). -/

namespace Sys2Proof.Machine

/-! ### Windows (42_controller_sequences.md rules R106, R108) -/

/-- Settles O42: the plan of a window that is not well ordered is the raise of the fault. -/
theorem badWindowHalts : Obligations.BadWindowHalts := by
  intro s sx sy ex ey h hbad
  obtain ⟨pos, hp⟩ := planCdSetRamArea_bad s.cfg (sx := sx) (sy := sy) (ex := ex) (ey := ey) (by omega)
  exact ⟨_, exec_raise h rfl rfl hp⟩

/-- Settles O45: the plan is the window of the whole panel and the counter at the origin. -/
theorem useFullFrameCompletes : Obligations.UseFullFrameCompletes := fun s _ h hg =>
  exec_granted_ungated h rfl rfl (planCdUseFullFrame_follows s.cfg) hg

/-! ### Sequences that come to their end (42_controller_sequences.md rules R109 to R113, R117) -/

/-- Settles O48: the plan is the full frame and the plane's command with the buffer as it is. -/
theorem uploadsComplete : Obligations.UploadsComplete := fun s buffer _ h hq hl =>
  ⟨fun hg => exec_granted_frame (i := .cdUpdateBwFrame buffer) h (decide_eq_true hl) rfl hq
      (planCdUpdateBwFrame_follows s.cfg buffer) hg,
    fun hg => exec_granted_frame (i := .cdUpdateRedFrame buffer) h (decide_eq_true hl) rfl hq
      (planCdUpdateRedFrame_follows s.cfg buffer) hg⟩

section
variable (c : Config)

/-- A command frame reads no sample. -/
@[simp] theorem highCount_cmdEvents (v : Byte) : highCount (cmdEvents c v) = 0 :=
  (cmdEntries_follows c Pos.dead v).highCount

@[simp] theorem highCount_cmdDataEvents (v : Byte) (bytes : List Byte) :
    highCount (cmdDataEvents c v bytes) = 0 :=
  (cmdDataEntries_follows c Pos.dead v bytes).highCount

@[simp] theorem highCount_fullFrameEvents : highCount (fullFrameEvents c) = 0 :=
  (planCdUseFullFrame_follows c).highCount

/-- The samples that read high are those of the two waits. -/
theorem highCount_initEvents (k1 k2 : Nat) {r1 r2 : Sample} (h1 : r1 ≠ .high) (h2 : r2 ≠ .high) :
    highCount (initEvents c k1 r1 k2 r2) = k1 + k2 := by
  have hreset : highCount resetEvents = 0 := rfl
  have hsettle : highCount [.delay 10] = 0 := rfl
  simp only [initEvents, highCount_append, hreset, hsettle, highCount_cmdEvents, highCount_cmdDataEvents,
    highCount_fullFrameEvents, highCount_wait k1 h1, highCount_wait k2 h2]
  omega

theorem highCount_displayEvents (k : Nat) {r : Sample} (hr : r ≠ .high) :
    highCount (displayEvents c k r) = k := by
  simp [displayEvents, highCount_append, highCount_wait k hr]

end

/-- The end with `ok` of an operation that initializes the controller (rule R105). -/
theorem finish_initialization {op : OpName} (hu : seqClass op = .new ∨ seqClass op = .init) (s : State)
    (e : Env) (evs : List Event) :
    (((s.enter op).withEnv e).emit evs).finish op .ok =
      { (s.withEnv e).completed op evs .ok with seq := .idle, ctrlUnspecified := false } := by
  rcases hu with hu | hu <;>
    simp [State.finish, State.emit, State.completed, State.enter, State.withEnv, seqLeave, markLeave, hu]

/-- The end with `ok` of a frame operation that was issued in `Idle` (rule R105). -/
theorem finish_frame {op : OpName} (hu : seqClass op = .frame) {s : State} (hq : s.seq = .idle) (e : Env)
    (evs : List Event) :
    (((s.enter op).withEnv e).emit evs).finish op .ok = (s.withEnv e).completed op evs .ok := by
  simp [State.finish, State.emit, State.completed, State.enter, State.withEnv, seqLeave, markLeave, hu, hq]

/-- The initialization sequence (rule R110), in whichever operation it runs. -/
theorem exec_initialization {i : Instr} {s : State} {k1 k2 : Nat} {r1 r2 : Sample} {e' : Env}
    (h : s.Ready) (hw : i.wf = true) (ha : accepts s.seq (opName i) = true)
    (hu : seqClass (opName i) = .new ∨ seqClass (opName i) = .init)
    (hp : planOf s.cfg i = expand s.cfg 0 (opsInit s.cfg)) (h1 : r1 ≠ .high) (h2 : r2 ≠ .high)
    (hg : Grants s.cfg (initEvents s.cfg k1 r1 k2 r2) s.env e') :
    ∃ t, exec i s = .next t ∧ core.run (k1 + k2) t = .next
      { (s.withEnv e').completed (opName i) (initEvents s.cfg k1 r1 k2 r2) .ok with
        seq := .idle, ctrlUnspecified := false } := by
  obtain ⟨t, hexec, hrun⟩ := exec_polled h hw ha (hp ▸ expandInit_polled s.cfg k1 k2 h1 h2) hg
  refine ⟨t, hexec, ?_⟩
  rwa [highCount_initEvents s.cfg k1 k2 h1 h2, finish_initialization hu] at hrun

/-- Settles O46: CD.INIT is the initialization sequence, accepted in `Idle`. -/
theorem initCompletes : Obligations.InitCompletes := fun _ _ _ _ _ _ h hq h1 h2 hg =>
  exec_initialization (i := .cdInit) h rfl (decide_eq_true hq) (.inr rfl) rfl h1 h2 hg

/-- Settles O47: CD.NEW is the initialization sequence, accepted in `Uninitialized`. -/
theorem newCompletes : Obligations.NewCompletes := fun _ _ _ _ _ _ h hq h1 h2 hg =>
  exec_initialization (i := .cdNew) h rfl (decide_eq_true hq) (.inl rfl) rfl h1 h2 hg

/-- Settles O49: the plan ends with a wait, whose samples that read high are the steps it takes more. -/
theorem displayFrameCompletes : Obligations.DisplayFrameCompletes := by
  intro s k r e' h hq hr hg
  obtain ⟨t, hexec, hrun⟩ := exec_polled (i := .cdDisplayFrame) h rfl (decide_eq_true hq)
    (planCdDisplayFrame_polled s.cfg k hr) hg
  refine ⟨t, hexec, ?_⟩
  rwa [highCount_displayEvents s.cfg k hr, finish_frame rfl hq] at hrun

/-! ### The sequencer (42_controller_sequences.md rule R105) -/

/-- The gate applies to the public operations and to no other. -/
theorem seqClass_eq_ungated_iff (op : OpName) : seqClass op = .ungated ↔ visibility op ≠ .publicSurface := by
  cases op <;> decide

/-- The seven public operations: CD.NEW, CD.INIT, and the five of a frame. -/
theorem public_cases {op : OpName} (h : visibility op = .publicSurface) :
    op = .cdNew ∨ op = .cdInit ∨ (seqClass op = .frame ∧ op ≠ .cdNew ∧ op ≠ .cdInit) := by
  revert h
  cases op <;> decide

section
variable {op : OpName}

theorem accepts_of_not_public (h : visibility op ≠ .publicSurface) (q : Seq) : accepts q op = true := by
  simp only [accepts, (seqClass_eq_ungated_iff op).mpr h]

theorem accepts_of_public (h : visibility op = .publicSurface) (hn : op ≠ .cdNew) (q : Seq) :
    accepts q op = decide (q = .idle) := by
  obtain rfl | rfl | ⟨hc, -, -⟩ := public_cases h
  · exact absurd rfl hn
  · rfl
  · simp only [accepts, hc]

theorem seqEnter_of_public (h : visibility op = .publicSurface) (q : Seq) :
    seqEnter op q = if op = .cdNew ∨ op = .cdInit then .initializing else .busy op := by
  obtain rfl | rfl | ⟨hc, hn, hi⟩ := public_cases h
  · rfl
  · rfl
  · simp [seqEnter, hc, hn, hi]

theorem seqLeave_ok_of_public (h : visibility op = .publicSurface) (q : Seq) :
    seqLeave op .ok q = .idle := by
  obtain rfl | rfl | ⟨hc, -, -⟩ := public_cases h
  · rfl
  · rfl
  · simp only [seqLeave, hc]

theorem seqLeave_err_of_public (h : visibility op = .publicSurface) (e : BusError) (q : Seq) :
    seqLeave op (.err e) q = if op = .cdNew then .uninitialized else .idle := by
  obtain rfl | rfl | ⟨hc, hn, -⟩ := public_cases h
  · rfl
  · rfl
  · simp [seqLeave, hc, hn]

theorem markLeave_ok_of_public (h : visibility op = .publicSurface) (m : Bool) :
    markLeave op .ok m = if op = .cdNew ∨ op = .cdInit then false else m := by
  obtain rfl | rfl | ⟨hc, hn, hi⟩ := public_cases h
  · rfl
  · rfl
  · simp [markLeave, hc, hn, hi]

theorem markLeave_err_of_public (h : visibility op = .publicSurface) (e : BusError) (m : Bool) :
    markLeave op (.err e) m = true := by
  obtain rfl | rfl | ⟨hc, -, -⟩ := public_cases h
  · rfl
  · rfl
  · simp only [markLeave, hc]

end

/-- An operation that the gate does not apply to leaves the sequencer as it is, whether it ends or not. -/
theorem run_ungated_sequencer {i : Instr} (hu : seqClass (opName i) = .ungated) (es : List Entry) (n : Nat)
    (r : Option BusError) (s : State) :
    (run i es n r s).seq = s.seq ∧ (run i es n r s).ctrlUnspecified = s.ctrlUnspecified := by
  obtain ⟨hended, hheld⟩ := run_sequencer i es n r s
  by_cases hpc : (run i es n r s).pc = .idle
  · obtain ⟨o, -, hseq, hmark⟩ := hended hpc
    exact ⟨hseq.trans (by simp only [seqLeave, hu]), hmark.trans (by simp only [markLeave, hu])⟩
  · exact hheld hpc

/-- Settles O51: the gate is `accepts`, the only ground left on which a ready block refuses an instruction that
is well formed. -/
theorem sequencerGate : Obligations.SequencerGate := by
  intro s i h hw
  have hrefused : accepts s.seq (opName i) = false → exec i s = .refused (.notAccepted s.seq) :=
    fun ha => (exec_eq_issue i s).trans (issue_notAccepted h hw ha)
  have hnew : opName i = .cdNew → accepts s.seq (opName i) = decide (s.seq = .uninitialized) :=
    fun hi => by rw [hi]; rfl
  refine ⟨fun hi hq => hrefused ?_, fun hi hq => ⟨_, exec_ready h hw ?_⟩, fun hv hn hq => hrefused ?_,
    fun hv hn hq => ⟨_, exec_ready h hw ?_⟩, fun hv => ⟨_, exec_ready h hw (accepts_of_not_public hv _), ?_⟩⟩
  · rw [hnew hi, decide_eq_false hq]
  · rw [hnew hi, decide_eq_true hq]
  · rw [accepts_of_public hv hn, decide_eq_false hq]
  · rw [accepts_of_public hv hn, decide_eq_true hq]
  · have hu := (seqClass_eq_ungated_iff _).mpr hv
    obtain ⟨hseq, hmark⟩ := run_ungated_sequencer hu (planOf s.cfg i) 0 none (s.enter (opName i))
    exact ⟨hseq.trans (by simp only [State.enter, seqEnter, hu]), hmark⟩

/-- A public operation moves the sequencer by rule R105 from where its being issued put it. -/
theorem sequencerMoves_run {i : Instr} (hv : visibility (opName i) = .publicSurface) (es : List Entry)
    (n : Nat) (r : Option BusError) {s s' : State} (hseq : s'.seq = seqEnter (opName i) s.seq)
    (hmark : s'.ctrlUnspecified = s.ctrlUnspecified) : SequencerMoves i s (run i es n r s') := by
  obtain ⟨hended, hheld⟩ := run_sequencer i es n r s'
  generalize run i es n r s' = t at hended hheld
  refine ⟨fun hpc hres => ?_, fun e hpc hres => ?_, fun hpc => ?_⟩
  · obtain ⟨o, ho, hs, hm⟩ := hended hpc
    obtain rfl : o = .ok := Option.some.inj (ho.symm.trans hres)
    rw [hs, hm, hmark]
    exact ⟨seqLeave_ok_of_public hv _, markLeave_ok_of_public hv _⟩
  · obtain ⟨o, ho, hs, hm⟩ := hended hpc
    obtain rfl : o = .err e := Option.some.inj (ho.symm.trans hres)
    rw [hs, hm]
    exact ⟨markLeave_err_of_public hv e _, seqLeave_err_of_public hv e _⟩
  · obtain ⟨hs, hm⟩ := hheld hpc
    rw [hs, hm, hseq, hmark, seqEnter_of_public hv]
    exact ⟨rfl, fun hi => if_pos hi, fun hn hi => if_neg (not_or.mpr ⟨hn, hi⟩)⟩

/-- Where a public operation is in progress, the sequencer is where its being issued put it. -/
theorem seq_eq_seqEnter_of_running {q : Seq} {i : Instr} {pos : Pos} {n : Nat} {r : Option BusError}
    (hv : visibility (opName i) = .publicSurface) (hq : seqFits q (.running i pos n r)) :
    q = seqEnter (opName i) q := by
  cases hc : seqClass (opName i) with
  | ungated => exact absurd hv ((seqClass_eq_ungated_iff _).mp hc)
  | new | init | frame => simpa only [seqFits, seqEnter, hc] using hq

/-- Settles O52: issued or going on, the operation is a run from where rule R105 puts the sequencer when it is
issued. -/
theorem publicOperationMovesSequencer : Obligations.PublicOperationMovesSequencer := by
  refine ⟨fun s t i hv h => ?_, fun s t i pos n r hi hv hp h => ?_⟩
  · obtain ⟨-, -, -, rfl⟩ := exec_next h
    exact sequencerMoves_run hv _ 0 none rfl rfl
  · rw [step_running (step_next h).1 hp] at h
    cases h
    exact sequencerMoves_run hv _ n r (seq_eq_seqEnter_of_running hv (hp ▸ hi.seqOk)) rfl

/-! ### After a bus error (42_controller_sequences.md rules R109, R116, 60_exceptions.md rule R138) -/

theorem cmdEntries_external {c : Config} (hx : c.busKind = .external) (pos : Pos) (v : Byte) :
    cmdEntries c pos v =
      [⟨pos, .drive .dc c.dcCommand, false⟩, ⟨{ pos with off := some 0 }, .bus [v], false⟩,
       ⟨pos, .restore c.dcData, true⟩] := by
  simp [cmdEntries, diWrite_single, busWrite, hx]

/-- A command frame whose call fails restores `DC`, and the operation it stands in ends there (rule R88). -/
theorem run_command_failed {i : Instr} {s : State} {c : Config} {err : BusError} {b : List BusAnswer}
    {after : List Entry} (hc : s.cfg = c) (hx : c.busKind = .external) (hpin : c.pinFail = false)
    (hbus : s.env.bus = .err err :: b) (hafter : PlainStart after) (pos : Pos) (opcode : Byte) (n : Nat) :
    run i (cmdEntries c pos opcode ++ after) n none s =
      ((s.withEnv { s.env with bus := b }).emit
        [.drive .dc c.dcCommand, .bus [opcode] (.err err), .drive .dc c.dcData]).finish
        (opName i) (.err err) := by
  subst hc
  have hdrive : perform (.drive .dc s.cfg.dcCommand) s = .done (s.emit [.drive .dc s.cfg.dcCommand]) :=
    performDrive_sure hpin _ _
  rw [cmdEntries_external hx, List.cons_append, run_done (skipped_none _) hdrive, List.cons_append,
    run_bus_err (by simpa using hbus), List.cons_append, run_restore (by simpa using hpin),
    List.nil_append, run_plainStart hafter, State.leave_finish]
  simp [State.leave, emit_withEnv, emit_emit]

/-- The end of CD.NEW with an error (rule R105). -/
theorem finish_new_failed {s : State} (hq : s.seq = .uninitialized) (e : Env) (evs : List Event)
    (err : BusError) :
    (((s.enter .cdNew).withEnv e).emit evs).finish .cdNew (.err err) =
      { (s.withEnv e).completed .cdNew evs (.err err) with ctrlUnspecified := true } := by
  simp [State.finish, State.emit, State.completed, State.enter, State.withEnv, seqLeave, markLeave, seqClass,
    hq]

/-- CD.NEW begins with the reset pulse and the command frame of the software reset; after that it waits. -/
theorem planOf_cdNew (c : Config) : ∃ pos pos' after, planOf c .cdNew =
    resetEntries pos ++ (cmdEntries c pos' c.codes.swReset ++ after) ∧ PlainStart after :=
  ⟨_, _, _, rfl, rfl⟩

/-- Settles O53: after the reset pulse the plan comes to the command frame of the software reset, whose call
fails. -/
theorem newFailsAtSoftwareReset : Obligations.NewFailsAtSoftwareReset := by
  intro s e b d h hq hx hpin hbus hdelay
  have hreset : Grants s.cfg resetEvents s.env { s.env with delay := d } :=
    ⟨by simp [hpin], rfl, hdelay, rfl, rfl⟩
  obtain ⟨pos, pos', after, hplan, hafter⟩ := planOf_cdNew s.cfg
  rw [exec_ready (i := .cdNew) h rfl (decide_eq_true hq), hplan,
    run_granted .cdNew (resetEntries_follows pos) _ 0 (s.enter (opName .cdNew)) _ hreset,
    run_command_failed (by simp) hx hpin (by simpa using hbus) hafter, State.did_env, State.did_withEnv,
    State.did_emit, State.did_finish, emit_withEnv, withEnv_withEnv, emit_emit]
  exact congrArg Host.Outcome.next (finish_new_failed hq _ _ e)

/-- An event that stands in a list but not after its head is the head. -/
theorem eq_of_cons_eq_append_cons {x y : Event} {l before after : List Event}
    (h : y :: l = before ++ x :: after) (hx : x ∉ l) : y = x ∧ l = after := by
  cases before with
  | nil => exact List.cons.inj h
  | cons z before => exact absurd (by simp [(List.cons.inj h).2]) hx

/-- An event that is not in the first of two lists stands in the second. -/
theorem eq_append_cons_of_not_mem {x : Event} {a b before after : List Event}
    (h : a ++ b = before ++ x :: after) (hx : x ∉ a) : ∃ mid, b = mid ++ x :: after := by
  obtain ⟨mid, rfl, rfl⟩ | ⟨mid, rfl, hmid⟩ := List.append_eq_append_iff.mp h
  · exact ⟨mid, rfl⟩
  · cases mid with
    | nil => exact ⟨[], hmid.symm⟩
    | cons y mid =>
      obtain ⟨rfl, -⟩ := List.cons.inj hmid
      exact absurd (by simp) hx

/-- What can follow a bus call that failed. -/
theorem OpTail.after_error {c : Config} {i : Instr} {n : Nat} {rest : List Entry} {pc : Pc}
    {f : Option Fatal} {before after : List Event} {bytes : List Byte} {e : BusError}
    (h : OpTail c i n rest (before ++ .bus bytes (.err e) :: after) pc f) :
    after = [.ret (opName i) (.err e)] ∨ after = [.drive .dc c.dcData, .ret (opName i) (.err e)] ∨
      after = [.halt (.pinFault .dc)] := by
  generalize htail : before ++ .bus bytes (.err e) :: after = tail at h
  have hmem : Event.bus bytes (.err e) ∈ tail := by simp [← htail]
  cases h with
  | ended | halted => simp at hmem
  | held => cases List.eq_of_mem_replicate hmem
  | failed =>
    obtain ⟨hev, rfl⟩ := eq_of_cons_eq_append_cons htail.symm (by simp)
    cases hev
    exact .inl rfl
  | restored =>
    obtain ⟨hev, rfl⟩ := eq_of_cons_eq_append_cons htail.symm (by simp)
    cases hev
    exact .inr (.inl rfl)
  | restoreHalted =>
    obtain ⟨-, rfl⟩ := eq_of_cons_eq_append_cons htail.symm (by simp)
    exact .inr (.inr rfl)

/-- Settles O54: the actions that were done have no call that failed among their events, so it stands in what
comes after those. -/
theorem nothingAfterBusError : Obligations.NothingAfterBusError := by
  intro s t i start before after ps bytes e h htr
  obtain ⟨done, tail, a, b, hcase⟩ := h.op_case
  have hevs : done ++ tail = before ++ .bus bytes (.err e) :: after := by
    have heq := hcase.trace.symm.trans htr
    rwa [List.append_assoc, List.append_cancel_left_eq] at heq
  obtain ⟨mid, rfl⟩ := eq_append_cons_of_not_mem hevs (hcase.polled.no_error bytes e)
  exact hcase.rest.after_error

end Sys2Proof.Machine

/-! The obligations on what stops the block: a fatal condition (60_exceptions.md rule R139), and an
environment that withholds its answer (rule R148). -/

namespace Sys2Proof.Machine

/-! ### The halted block (rule R139) -/

theorem step_halted {s : State} {f : Fatal} (h : s.fault = some f) : step s = .fault (.halted f) := by
  simp [step, h]

/-- Settles O9: `step` looks at the fault first, and so does every instruction, which is issued. -/
theorem haltedBlockStops : Obligations.HaltedBlockStops := fun s _ h =>
  ⟨step_halted h, fun i => (exec_eq_issue i s).trans (issue_halted h)⟩

/-! ### The operation that the environment holds (rule R148) -/

theorem performBus_held {s : State} {b : List BusAnswer} (h : s.env.bus = .pending :: b)
    (bytes : List Byte) : performBus bytes s = .wait (s.withEnv { s.env with bus := b }) := by
  simp [performBus, Env.nextBus, h]

theorem State.suspend_of_pc {s : State} {i : Instr} {pos : Pos} {n : Nat} {r : Option BusError}
    (h : s.pc = .running i pos n r) : s.suspend i pos n r = s := by
  rw [State.suspend, ← h]

/-- An action that waits leaves the block at that action. -/
theorem perform_wait_pc {a : Act} {s t : State} (h : perform a s = .wait t) : t.pc = s.pc := by
  have hp := performed a s
  rw [h] at hp
  obtain ⟨e, ⟨-, rfl⟩ | ⟨-, rfl⟩⟩ := hp
  · rfl
  · rfl

/-- A step of an operation that is at an action that waits is that action and nothing more. -/
theorem step_of_perform_wait {s t : State} {i : Instr} {pos : Pos} {n : Nat} {r : Option BusError}
    {a : Act} {ends : Bool} (hf : s.fault = none) (hp : s.pc = .running i pos n r)
    (hget : (planOf s.cfg i)[n]? = some ⟨pos, a, ends⟩) (hs : skipped r a = false)
    (h : perform a s = .wait t) : step s = .next t := by
  obtain ⟨hlt, hget⟩ := List.getElem?_eq_some_iff.mp hget
  rw [step_running hf hp, resume, List.drop_eq_getElem_cons hlt, hget, run_wait hs h,
    State.suspend_of_pc ((perform_wait_pc h).trans hp)]

/-- Settles O26: each of the three answers makes its action wait. -/
theorem heldOperationStaysHeld : Obligations.HeldOperationStaysHeld := by
  intro s i pos n r a ends hf hp hget hs
  refine ⟨?_, ?_, ?_⟩
  · rintro b rfl hbusy
    exact step_of_perform_wait hf hp hget hs (performSample_busy hbusy)
  · rintro ms d rfl hdelay
    exact step_of_perform_wait hf hp hget hs (performDelay_held hdelay ms)
  · rintro bytes b rfl hbus
    exact step_of_perform_wait hf hp hget hs (performBus_held hbus bytes)

end Sys2Proof.Machine
